-- ==== Sys2Proof/Word.lean ====
section
/-! DEFINITION. The widths of the core: bytes, 32-bit output words and 64-bit register words (00_scope R8). -/

namespace Sys2Proof

/-- One byte of host memory. -/
abbrev Byte := BitVec 8

/-- An output word of the core: a DECODE value or a BATCH result word, 4 bytes (20_memory R106). -/
abbrev Word32 := BitVec 32

/-- A register of the window, a command word, a key sub-word, a hash: 64 bits (10_state R31). -/
abbrev Word := BitVec 64

end Sys2Proof
end

