-- ==== Sys2Proof/Config.lean ====
section
/-! DEFINITION. What an implementation fixes (the constants of the spec and its OPEN parameters), and the free values. -/

namespace Sys2Proof

/-- One region of the platform's bus map: BUS_OK holds of its addresses. `idempotent` says that reading it has no side
effect and gives the same bytes each time, as 20_memory R105 asks of every place a read set lies in (93 I3). -/
structure Region where
  base       : Nat
  size       : Nat
  idempotent : Bool
  deriving DecidableEq, Repr

/-- The OPEN parameters (00_scope R8, 20_memory R105, R118, R120, 60_exceptions R430): the spec's model "takes each OPEN
parameter as an argument". They ride in the state unchanged (log entry 5). -/
structure Platform where
  nlanes   : Nat
  candCap  : Nat
  bus      : List Region
  coherent : Bool
  regBase  : Nat
  irqLine  : Nat
  deriving DecidableEq, Repr

namespace Config

/-- FILTER_CAP (00_scope R8). -/
def filterCap : Nat := 4096

/-- The ID register (10_state R33). -/
def idValue : Word := 0x464C54524A450007

/-- The reset value of CFG.M (10_state R40). -/
def resetM : BitVec 21 := 784931

/-- The reset value of CFG.P (10_state R40). -/
def resetP : BitVec 5 := 19

/-- The size of the register window in bytes (10_state R31). -/
def windowSize : Nat := 4096

/-- The number of byte addresses of host memory (10_state R59). -/
def addrLimit : Nat := 2 ^ 64

/-- NLANES less one: OPEN, NLANES is at least 1 (00_scope R8) and fits PARAMS[15:0] (DEDUCED, log entry 5). -/
opaque nlanesPred : Fin 65535

/-- CAND_CAP less one: OPEN, 1 to 65535 (00_scope R8). -/
opaque candCapPred : Fin 65535

/-- BUS_OK: OPEN (20_memory R105). -/
opaque busMap : List Region

/-- COHERENT: OPEN (20_memory R118). -/
opaque coherent : Bool

/-- REG_BASE: OPEN, the bus address of the register window (20_memory R120). -/
opaque regBase : Word

/-- IRQ_LINE: OPEN, the platform's number for the line IRQ is routed to (60_exceptions R430). -/
opaque irqLine : Nat

/-- The platform the machine is reset on: every parameter OPEN within its bounds. -/
def platform : Platform :=
  { nlanes := nlanesPred.val + 1, candCap := candCapPred.val + 1, bus := busMap, coherent := coherent,
    regBase := regBase.toNat, irqLine := irqLine }

/-- The free values: the n-th value drawn where the spec says "any value" (93 treatments). Nothing constrains it, and a
claim holds for every value of it (log entry 3). -/
opaque free : Nat → Word

end Config

end Sys2Proof
end

