-- ==== Sys2Proof/Syntax.lean ====
section
/-! DEFINITION. The commands of the core (30_encoding R141): one constructor per row of the opcode table. -/

namespace Sys2Proof

/-- A command. It has no operand fields: "A command takes its operands from the registers" (30_encoding R140).
`matchFilter` is the table's MATCH. -/
inductive Instr
  | nop
  | hash
  | map
  | decode
  | matchFilter
  | batch
  | abort
  deriving DecidableEq, Repr

end Sys2Proof
end

