-- ==== Sys2Proof/WellFormed.lean ====
section
/-! DEFINITION. The checks: which command words are commands (30_encoding R142), and which platforms the spec allows
(00_scope R8). -/

namespace Sys2Proof

/-- The two fields of a command word (30_encoding R140). -/
structure CommandFields where
  opcode : BitVec 8
  rsvd   : BitVec 56
  deriving DecidableEq, Repr

/-- RSVD must be 0 (30_encoding R140, R142). -/
def CommandFields.reservedZero (c : CommandFields) : Bool := c.rsvd == 0

/-- OPCODE is 0x00 to 0x06 (30_encoding R142). -/
def CommandFields.opcodeDefined (c : CommandFields) : Bool := decide (c.opcode.toNat ≤ 6)

/-- A legal command word (30_encoding R142). -/
def CommandFields.wellFormed (c : CommandFields) : Bool := c.reservedZero && c.opcodeDefined

/-- A command has no operand that could be out of range, so every one is well formed. -/
def Instr.wellFormed : Instr → Bool
  | .nop => true
  | .hash => true
  | .map => true
  | .decode => true
  | .matchFilter => true
  | .batch => true
  | .abort => true

/-- NLANES is an integer of at least 1 that PARAMS[15:0] can hold (00_scope R8, 10_state R34). -/
def Platform.lanesLegal (p : Platform) : Bool := decide (1 ≤ p.nlanes ∧ p.nlanes ≤ 65535)

/-- 1 ≤ CAND_CAP ≤ 65535 (00_scope R8). -/
def Platform.candCapLegal (p : Platform) : Bool := decide (1 ≤ p.candCap ∧ p.candCap ≤ 65535)

/-- The bounds the spec puts on its OPEN parameters. -/
def Platform.wellFormed (p : Platform) : Bool := p.lanesLegal && p.candCapLegal

end Sys2Proof
end

