-- ==== Sys2Proof/Decode.lean ====
section
/-! DEFINITION. Decoding a command word, total on all 2^64 words and rejecting by name (30_encoding R140 to R143), and the
encoder. -/

namespace Sys2Proof

/-- Why a word is no command (30_encoding R142). -/
inductive Reject
  /-- RSVD is not 0. -/
  | reservedNotZero
  /-- OPCODE is 0x07 to 0xFF. -/
  | undefinedOpcode
  deriving DecidableEq, Repr

/-- The fields of a command word: OPCODE in bits 7:0, RSVD in bits 63:8 (30_encoding R140). -/
def fieldsOf (w : Word) : CommandFields :=
  { opcode := w.extractLsb' 0 8, rsvd := w.extractLsb' 8 56 }

/-- The opcode map read from the word (30_encoding R141). -/
def ofOpcode (op : BitVec 8) : Option Instr :=
  match op.toNat with
  | 0 => some .nop
  | 1 => some .hash
  | 2 => some .map
  | 3 => some .decode
  | 4 => some .matchFilter
  | 5 => some .batch
  | 6 => some .abort
  | _ => none

/-- Decode a command word (30_encoding R140 to R142). -/
def decode (w : Word) : Except Reject Instr :=
  if (fieldsOf w).reservedZero then
    match ofOpcode (fieldsOf w).opcode with
    | some i => .ok i
    | none => .error .undefinedOpcode
  else .error .reservedNotZero

/-- The opcode of a command (30_encoding R141). -/
def Instr.opcode : Instr → BitVec 8
  | .nop => 0x00
  | .hash => 0x01
  | .map => 0x02
  | .decode => 0x03
  | .matchFilter => 0x04
  | .batch => 0x05
  | .abort => 0x06

/-- "The command word is zext_64(OPCODE), with every other bit 0" (30_encoding R141). -/
def encode (i : Instr) : Word := i.opcode.setWidth 64

/-- The instruction the decoder reads from the table's word w of nbits bits: a command word is written with one 64-bit
register access (30_encoding R143), so a value that does not fit 64 bits is no word at all. -/
def decodeTableWord (nbits w : Nat) : Option Instr :=
  if nbits ≤ 64 ∧ w < 2 ^ 64 then
    match decode (BitVec.ofNat 64 w) with
    | .ok i => some i
    | .error _ => none
  else none

end Sys2Proof
end

