-- ==== Sys2Proof/Machine/State.lean ====
section
/-! DEFINITION. The state of the machine: everything the spec names (10_state), as plain data, with the host's events to
come; its reset value (70_reset_and_hazards R450); and the two ways the model itself can stop. -/

namespace Sys2Proof.Machine

/-- The commands that run (10_state R56: "BUSY(op) with op one of HASH, MAP, DECODE, MATCH or BATCH"). -/
inductive Op
  | hash
  | map
  | decode
  | matchFilter
  | batch
  deriving DecidableEq, Repr

/-- Command errors (30_encoding R172). -/
inductive CmdError
  | illegal
  | busy
  | badCfg
  | busRead
  | align
  deriving DecidableEq, Repr

/-- Result codes (30_encoding R170). -/
inductive ResultCode
  | noMatch
  | isMatch
  | truncated
  | capacityExceeded
  | countMismatch
  | overlongQuotient
  | noncanonicalCount
  | valueRange
  | descriptorError
  | candidateOverflow
  | busError
  deriving DecidableEq, Repr

/-- CFG (10_state R40). -/
structure Cfg where
  m : BitVec 21
  p : BitVec 5
  deriving DecidableEq, Repr

/-- The thirteen operand registers (10_state R40 to R48), which acceptance copies whole (R47). -/
structure Operands where
  cfg        : Cfg
  key0       : Word
  key1       : Word
  srcAddr    : Word
  srcLen     : BitVec 32
  dstAddr    : Word
  watchAddr  : Word
  watchCount : BitVec 32
  argH       : Word
  argF       : Word
  jobAddr    : Word
  jobCount   : BitVec 32
  resAddr    : Word
  deriving DecidableEq, Repr

/-- The bits of STATUS that are stored (10_state R36). BUSY is not here: it is the phase (R56).
`errCode = none` is ERRCODE 0x00; `lastOp = none` is LAST_OP 0. -/
structure Status where
  done    : Bool
  err     : Bool
  aborted : Bool
  busErr  : Bool
  errCode : Option CmdError
  lastOp  : Option Op
  deriving DecidableEq, Repr

/-- Host memory as (address, byte) pairs, in the canonical form of `Memory.wf`. -/
abbrev Memory := List Host.Cell

/-- What evaluating one filter leaves: the result word (30_encoding R171), the count N if the prefix yielded it, the
buffers FV and CV (10_state R55), and the bit cursor where the decoder stopped (10_state R52). -/
structure Evaluated where
  word      : Word32
  n         : Option Nat
  fv        : List Nat
  cv        : List Nat
  bitCursor : Nat
  deriving DecidableEq, Repr

/-- A busy lane (44_batch R350, R353): the job it runs and, once it has evaluated it, what that gave. -/
structure Lane where
  job  : Nat
  eval : Option Evaluated
  deriving DecidableEq, Repr

/-- What exists while the phase is BUSY(op): the latched operands (10_state R47), the bookkeeping of R57, the lanes, the
sequencer's own buffers (R55), and four fields of the model's: memory as it stood at acceptance (log entry 6), the jobs
whose read set the host has written since (20_memory R113, log entry 7), the jobs one of whose accesses memory never
answers (93 I9, log entry 16), and the byte ranges over which a breach of the cache duties stood at acceptance or has come
since (20_memory R118, log entry 20). A HASH, MAP, DECODE or MATCH counts as the one job 0. -/
structure Running where
  op       : Op
  latched  : Operands
  before   : Memory
  eval     : Option Evaluated
  written  : List Nat
  cursor   : Nat
  lanes    : List Lane
  abortReq : Bool
  raced    : List Nat
  hung     : List Nat
  stale    : List (Nat × Nat)
  deriving DecidableEq, Repr

/-- What may happen next (log entry 1). The first three are the lines of a host program (30_encoding R180); `busWrite` and
`busRead` are the same accesses by their bus address. -/
inductive Event
  /-- `wr`: a write of the register window: offset, width in bytes, value. -/
  | regWrite (offset width : Nat) (value : Word)
  /-- `rd`: a read of the register window. -/
  | regRead (offset width : Nat)
  /-- `wait`: poll STATUS until BUSY reads 0. -/
  | wait
  /-- the host's store of `width` bytes to a bus address: the register window at REG_BASE (20_memory R120), or memory. -/
  | busWrite (addr width : Nat) (value : Word)
  /-- the host's load of `width` bytes from a bus address. -/
  | busRead (addr width : Nat)
  /-- the host's write to memory, at the moment it is performed there. -/
  | memWrite (addr : Nat) (bytes : List Byte)
  /-- the host's read of n bytes of memory. -/
  | memRead (addr n : Nat)
  /-- the host samples the line IRQ_LINE that IRQ is routed to (60_exceptions R430). -/
  | irqSample
  /-- the core takes one step; `pick` says which of the steps open to it. -/
  | core (pick : Nat)
  /-- a memory access of this job is never answered (93 I9). -/
  | memHang (job : Nat)
  /-- a breach of the cache duties of a platform with COHERENT = 0, over these bytes (20_memory R118). -/
  | cacheBreach (addr n : Nat)
  /-- the host has written back and invalidated its cached copies of these bytes: the breach over them is over. -/
  | cacheSync (addr n : Nat)
  /-- RESET_IN is asserted (70_reset_and_hazards R451). -/
  | resetAssert
  /-- RESET_IN is released. -/
  | resetRelease
  deriving DecidableEq, Repr

/-- What the host has seen (30_encoding R180: "the value read is the line's result"). -/
inductive Observation
  | reg (offset : Nat) (value : Word)
  | mem (addr : Nat) (bytes : List Byte)
  | irq (line : Nat) (level : Bool)
  deriving DecidableEq, Repr

/-- The machine. `running = none` is the phase IDLE. `agenda`, `observed`, `drawn` and `stale`, the byte ranges over which
a breach of the cache duties stands (20_memory R118), are the model's own fields (log entries 1, 21, 3 and 20). -/
structure State where
  platform : Platform
  irqEn    : Bool
  status   : Status
  regs     : Operands
  result0  : Word
  result1  : Word
  jobsDone : BitVec 32
  running  : Option Running
  mem      : Memory
  resetIn  : Bool
  agenda   : List Event
  observed : List Observation
  drawn    : Nat
  stale    : List (Nat × Nat)
  deriving DecidableEq, Repr

/-- Why the machine stops with a fault. -/
inductive Fault
  /-- Raised by `step` when the host waits or has nothing more to do, a command is running, and every memory access it
  needs is one that is never answered: "stuck: the model has no further step" (93 I9). Safe: the hardware does not move
  either. -/
  | memoryNeverAnswers
  deriving DecidableEq, Repr

/-- Why the model gives no meaning. -/
inductive Refusal
  /-- Raised by an arm of `exec` whose instruction has no meaning yet; no arm is. Safe. -/
  | notModelled (mnemonic : String)
  /-- Raised by a register access that is not 64 bits wide at a multiple of 8 inside the window: "A model refuses such an
  access" (10_state R32, 93 I11). Safe. -/
  | registerAccess (offset width : Nat)
  /-- Raised by an access of a bus address below REG_BASE that runs into the window: a misaligned access, refused as the
  last (10_state R32, 93 I11; log entry 27). Safe. -/
  | windowEdge (addr width : Nat)
  deriving DecidableEq, Repr

/-- The operand registers after reset (70_reset_and_hazards R450). -/
def Operands.reset : Operands :=
  { cfg := { m := Config.resetM, p := Config.resetP }, key0 := 0, key1 := 0, srcAddr := 0, srcLen := 0, dstAddr := 0,
    watchAddr := 0, watchCount := 0, argH := 0, argF := 0, jobAddr := 0, jobCount := 0, resAddr := 0 }

/-- STATUS after reset (70_reset_and_hazards R450). -/
def Status.reset : Status :=
  { done := false, err := false, aborted := false, busErr := false, errCode := none, lastOp := none }

/-- The machine right after reset (70_reset_and_hazards R450), with nothing in memory and nothing to come. -/
def State.reset : State :=
  { platform := Config.platform, irqEn := false, status := Status.reset, regs := Operands.reset, result0 := 0,
    result1 := 0, jobsDone := 0, running := none, mem := [], resetIn := false, agenda := [], observed := [], drawn := 0,
    stale := [] }

namespace State

def setIrqEn (s : State) (x : Bool) : State := { s with irqEn := x }
def setStatus (s : State) (x : Status) : State := { s with status := x }
def setRegs (s : State) (x : Operands) : State := { s with regs := x }
def setResult0 (s : State) (x : Word) : State := { s with result0 := x }
def setResult1 (s : State) (x : Word) : State := { s with result1 := x }
def setJobsDone (s : State) (x : BitVec 32) : State := { s with jobsDone := x }
def setRunning (s : State) (x : Option Running) : State := { s with running := x }
def setMem (s : State) (x : Memory) : State := { s with mem := x }
def setResetIn (s : State) (x : Bool) : State := { s with resetIn := x }
def setAgenda (s : State) (x : List Event) : State := { s with agenda := x }
def setObserved (s : State) (x : List Observation) : State := { s with observed := x }
def setDrawn (s : State) (x : Nat) : State := { s with drawn := x }
def setStale (s : State) (x : List (Nat × Nat)) : State := { s with stale := x }

end State

end Sys2Proof.Machine
end

