-- ==== Sys2Proof/Machine/Ops.lean ====
section
/-! DEFINITION. The named operations over memory and registers: bytes and byte order, MemRead and MemWrite (20_memory),
drawing a free value, raising a command error (60_exceptions R402) and completing a command (10_state R56). -/

namespace Sys2Proof.Machine

/-! ## Bytes and byte order (20_memory R101) -/

/-- `LE(bytes)`: the first byte is the least significant (00_scope R11). -/
def le : List Byte → Nat
  | [] => 0
  | b :: bs => b.toNat + 256 * le bs

/-- The n bytes of v, least significant first. -/
def leBytes : Nat → Nat → List Byte
  | 0, _ => []
  | n + 1, v => BitVec.ofNat 8 v :: leBytes n (v / 256)

/-- The n bytes of a byte string from offset `at`. -/
def slice (bs : List Byte) (offset n : Nat) : List Byte := (bs.drop offset).take n

/-- Put a number into an ascending list, keeping duplicates. -/
def insertAsc (x : Nat) : List Nat → List Nat
  | [] => [x]
  | y :: ys => if x ≤ y then x :: y :: ys else y :: insertAsc x ys

/-! ## Host memory -/

/-- What a byte nobody has written reads as (log entry 4). -/
def Memory.unlisted : Byte := 0

/-- The byte at an address. -/
def Memory.read : Memory → Nat → Byte
  | [], _ => Memory.unlisted
  | (k, b) :: rest, a => if k = a then b else Memory.read rest a

/-- Put a byte where the canonical form has its place. -/
def Memory.insert : Memory → Nat → Byte → Memory
  | [], a, b => if b = Memory.unlisted then [] else [(a, b)]
  | (k, c) :: rest, a, b =>
    if a < k then (if b = Memory.unlisted then (k, c) :: rest else (a, b) :: (k, c) :: rest)
    else if a = k then (if b = Memory.unlisted then rest else (a, b) :: rest)
    else (k, c) :: Memory.insert rest a b

/-- Write one byte; an address of 2^64 or more does not exist (10_state R59), so nothing is written there. -/
def Memory.writeByte (m : Memory) (a : Nat) (b : Byte) : Memory :=
  if a < Config.addrLimit then m.insert a b else m

/-- Write bytes at a, a+1, ... -/
def Memory.writeBytes (m : Memory) (a : Nat) : List Byte → Memory
  | [] => m
  | b :: bs => Memory.writeBytes (m.writeByte a b) (a + 1) bs

/-- The n bytes at a, a+1, ... -/
def Memory.readBytes (m : Memory) (a n : Nat) : List Byte := (List.range n).map fun i => m.read (a + i)

/-- The canonical form: addresses strictly rising and existing, and no entry equal to what an unlisted address reads as. -/
abbrev Memory.wf (m : Memory) : Prop :=
  m.Pairwise (fun c d => c.1 < d.1) ∧ ∀ c ∈ m, c.1 < Config.addrLimit ∧ c.2 ≠ Memory.unlisted

/-! ## The bus (20_memory R105 to R107) -/

/-- The address lies in the region. -/
def Region.holds (r : Region) (a : Nat) : Bool := decide (r.base ≤ a ∧ a < r.base + r.size)

/-- BUS_OK (20_memory R105). -/
def busOk (p : Platform) (a : Nat) : Bool := p.bus.any fun r => Region.holds r a

/-- No address of the n bytes at addr is rejected, and none passes 2^64 (20_memory R105, R107). -/
def rangeOk (p : Platform) (addr n : Nat) : Bool :=
  decide (addr + n ≤ Config.addrLimit) && (List.range n).all fun i => busOk p (addr + i)

/-- `MemRead(addr, n)`; `none` is BusError (20_memory R105). -/
def memRead (p : Platform) (m : Memory) (addr n : Nat) : Option (List Byte) :=
  if n = 0 then some []
  else if rangeOk p addr n then some (m.readBytes addr n)
  else none

/-- Two byte ranges (address, length) have a byte in common. -/
def meets (a b : Nat × Nat) : Bool := decide (0 < a.2 ∧ 0 < b.2 ∧ a.1 < b.1 + b.2 ∧ b.1 < a.1 + a.2)

/-- The address lies in the byte range (address, length). -/
def inRange (r : Nat × Nat) (a : Nat) : Bool := decide (r.1 ≤ a ∧ a < r.1 + r.2)

/-- The address lies in one of the byte ranges. -/
def inRanges (gs : List (Nat × Nat)) (a : Nat) : Bool := gs.any fun g => inRange g a

/-- What is left of the byte range x without the bytes of g: a part below and a part above. -/
def cutRange (g x : Nat × Nat) : List (Nat × Nat) :=
  [(x.1, min (x.1 + x.2) g.1 - x.1), (max x.1 (g.1 + g.2), x.1 + x.2 - max x.1 (g.1 + g.2))].filter fun y => y.2 != 0

/-! ## Free values (93_implementation_defined; log entry 3) -/

/-- The i-th free value not yet drawn. -/
def freeAt (s : State) (i : Nat) : Word := Config.free (s.drawn + i)

/-- Count n free values as drawn. -/
def draw (s : State) (n : Nat) : State := s.setDrawn (s.drawn + n)

/-- What a failed write leaves of its bytes: "each byte keeps its old value or takes the new one" (20_memory R106). -/
def partialBytes (f : Word) (m : Memory) (addr : Nat) (new : List Byte) : List Byte :=
  (List.range new.length).map fun i => if f.getLsbD i then new.getD i 0 else m.read (addr + i)

/-- `MemWrite(addr, 4, v)`, the only kind of write of the core (20_memory R106); a BusError sets STATUS.BUSERR
(60_exceptions R410). -/
def writeOutputWord (addr : Nat) (v : Word32) (s : State) : State :=
  if rangeOk s.platform addr 4 then
    s.setMem (s.mem.writeBytes addr (leBytes 4 v.toNat))
  else
    (draw (s.setMem (s.mem.writeBytes addr (partialBytes (freeAt s 0) s.mem addr (leBytes 4 v.toNat)))) 1).setStatus
      { s.status with busErr := true }

/-- The four bytes at an address become any value: an output word already written whose input turns out disturbed
(20_memory R113 item 3). No access of the core, so BUSERR stays (log entry 7). -/
def anyWord (addr : Nat) (s : State) : State :=
  draw (s.setMem (s.mem.writeBytes addr (leBytes 4 ((freeAt s 0).setWidth 32).toNat))) 1

/-- Any value of a result word, zero-extended as RESULT0 holds it (20_memory R113 item 3, 10_state R49). -/
def anyResultWord (s : State) : Word := ((freeAt s 0).setWidth 32).setWidth 64

/-! ## Errors, completion, reset -/

/-- `CmdError(code)`: "sets STATUS.ERR ← 1 and STATUS.ERRCODE ← code. It changes nothing else" (60_exceptions R402). This
is the core's whole exception entry: it saves nothing and vectors nowhere (R431). -/
def cmdError (e : CmdError) (s : State) : State :=
  s.setStatus { s.status with err := true, errCode := some e }

/-- The host's acknowledgement, the core's only return from an error (60_exceptions R432): the W1C write of STATUS
(10_state R37). -/
def ackStatus (v : Word) (s : State) : State :=
  s.setStatus
    { s.status with
      done := s.status.done && !v.getLsbD 1
      err := s.status.err && !v.getLsbD 2
      aborted := s.status.aborted && !v.getLsbD 3
      busErr := s.status.busErr && !v.getLsbD 4
      errCode := if v.getLsbD 2 then none else s.status.errCode }

/-- What every completion step does: BUSY ← 0, DONE ← 1, phase ← IDLE (10_state R56). -/
def complete (s : State) : State :=
  (s.setRunning none).setStatus { s.status with done := true }

/-- Every register, field and internal state at its reset value; host memory and the constants stay
(70_reset_and_hazards R450, R453), and so does what belongs to the outside world. -/
def resetCore (s : State) : State :=
  { State.reset with
    platform := s.platform, mem := s.mem, resetIn := s.resetIn, agenda := s.agenda, observed := s.observed,
    drawn := s.drawn, stale := s.stale }

/-- Change the bookkeeping of the running command, if one runs. -/
def setRun (r : Running) (s : State) : State := s.setRunning (some r)

end Sys2Proof.Machine
end

