-- ==== Sys2Proof/Machine/Operands.lean ====
section
/-! DEFINITION. Every operand form: the register window read and written (10_state R31 to R50), the fields of latched
registers (30_encoding R156), the memory formats (R161, R165), the result word (R171), and the read set of each command
(20_memory R112) with what makes an output any value. -/

namespace Sys2Proof.Machine

/-! ## Numbers of the encodings -/

/-- The opcode of a command that runs (30_encoding R141), as LAST_OP holds it. -/
def opNumber : Op → BitVec 8
  | .hash => 0x01
  | .map => 0x02
  | .decode => 0x03
  | .matchFilter => 0x04
  | .batch => 0x05

/-- ERRCODE (30_encoding R172). -/
def errNumber : CmdError → BitVec 8
  | .illegal => 0x01
  | .busy => 0x02
  | .badCfg => 0x03
  | .busRead => 0x04
  | .align => 0x05

/-- CODE (30_encoding R170). -/
def codeNumber : ResultCode → BitVec 8
  | .noMatch => 0x00
  | .isMatch => 0x01
  | .truncated => 0x10
  | .capacityExceeded => 0x11
  | .countMismatch => 0x12
  | .overlongQuotient => 0x13
  | .noncanonicalCount => 0x14
  | .valueRange => 0x20
  | .descriptorError => 0x30
  | .candidateOverflow => 0x31
  | .busError => 0x32

/-- `result(code, N, w16)`: NSAT in 31:16, W16 in bit 8, CODE in 7:0 (30_encoding R171). -/
def resultWord (c : ResultCode) (n : Option Nat) (w16 : Bool) : Word32 :=
  BitVec.ofNat 16 (min (n.getD 0) 0xFFFF) ++ (0#7 ++ (BitVec.ofBool w16 ++ codeNumber c))

/-! ## Fields of the operand registers (30_encoding R156) -/

/-- M = CFG[20:0] (30_encoding R156). -/
def cfgM (o : Operands) : Nat := o.cfg.m.toNat

/-- P = CFG[28:24] (30_encoding R156). -/
def cfgP (o : Operands) : Nat := o.cfg.p.toNat

/-- 1 ≤ CFG.M ≤ 2^20 (10_state R41). -/
def cfgLegal (o : Operands) : Bool := decide (1 ≤ cfgM o ∧ cfgM o ≤ 2 ^ 20)

/-- The commands that use CFG (10_state R41). -/
def usesCfg : Op → Bool
  | .hash => false
  | .map => false
  | .decode => true
  | .matchFilter => true
  | .batch => true

/-- The alignment each command asks of its address registers (20_memory R108, 30_encoding R150). -/
def alignedFor (op : Op) (o : Operands) : Bool :=
  match op with
  | .hash => true
  | .map => true
  | .decode => o.dstAddr.toNat % 4 == 0
  | .matchFilter => o.watchAddr.toNat % 8 == 0
  | .batch => o.jobAddr.toNat % 8 == 0 && o.resAddr.toNat % 4 == 0

/-! ## The memory formats -/

/-- The arguments of one job (43_matcher R310): the key, the filter's address and length, the watch table's address and
entry count. -/
structure JobArgs where
  k0 : Word
  k1 : Word
  fa : Nat
  lb : Nat
  wa : Nat
  w  : Nat
  deriving DecidableEq, Repr

/-- MATCH takes its job from the registers (43_matcher R320). -/
def matchArgs (o : Operands) : JobArgs :=
  { k0 := o.key0, k1 := o.key1, fa := o.srcAddr.toNat, lb := o.srcLen.toNat, wa := o.watchAddr.toNat,
    w := o.watchCount.toNat }

/-- A job from its descriptor D of 64 bytes (30_encoding R161, 44_batch R345). -/
def descriptorArgs (d : List Byte) : JobArgs :=
  { k0 := BitVec.ofNat 64 (le (slice d 0 8)), k1 := BitVec.ofNat 64 (le (slice d 8 8)), fa := le (slice d 16 8),
    lb := le (slice d 24 4), wa := le (slice d 32 8), w := le (slice d 40 4) }

/-- The reserved fields are 0 and WATCH_ADDR is 8-byte aligned (44_batch R345). -/
def descriptorLegal (d : List Byte) : Bool :=
  le (slice d 28 4) == 0 && le (slice d 44 4) == 0 && le (slice d 48 8) == 0 && le (slice d 56 8) == 0
    && le (slice d 32 8) % 8 == 0

/-- The address of job j's descriptor (20_memory R121). -/
def descriptorAddr (o : Operands) (j : Nat) : Nat := o.jobAddr.toNat + 64 * j

/-- The address of job j's result slot (20_memory R121). -/
def slotAddr (o : Operands) (j : Nat) : Nat := o.resAddr.toNat + 4 * j

/-- The address of DECODE value i (20_memory R121). -/
def valueAddr (o : Operands) (i : Nat) : Nat := o.dstAddr.toNat + 4 * i

/-- A watch entry (30_encoding R165). -/
structure WatchEntry where
  addr : Nat
  len  : Nat
  rsvd : Nat
  deriving DecidableEq, Repr

/-- Entry i of a watch table's bytes (30_encoding R165). -/
def watchEntry (t : List Byte) (i : Nat) : WatchEntry :=
  { addr := le (slice t (16 * i) 8), len := le (slice t (16 * i + 8) 4), rsvd := le (slice t (16 * i + 12) 4) }

/-- The w entries of a watch table's bytes. -/
def watchEntries (t : List Byte) (w : Nat) : List WatchEntry := (List.range w).map (watchEntry t)

/-! ## The read set (20_memory R112) -/

/-- The items a watch table names, as byte ranges; none where the table itself cannot be read. -/
def itemRanges (p : Platform) (m : Memory) (wa w : Nat) : List (Nat × Nat) :=
  match memRead p m wa (16 * w) with
  | some t => (watchEntries t w).map fun e => (e.addr, e.len)
  | none => []

/-- The read set of one job after its descriptor: filter, watch table, items (20_memory R112). -/
def jobRanges (p : Platform) (m : Memory) (a : JobArgs) : List (Nat × Nat) :=
  (a.fa, a.lb) :: (a.wa, 16 * a.w) :: itemRanges p m a.wa a.w

/-- The read set of BATCH job j (20_memory R112). -/
def batchJobRanges (p : Platform) (m : Memory) (o : Operands) (j : Nat) : List (Nat × Nat) :=
  (descriptorAddr o j, 64) ::
    match memRead p m (descriptorAddr o j) 64 with
    | some d => if descriptorLegal d then jobRanges p m (descriptorArgs d) else []
    | none => []

/-- How many jobs the command has; a command that is no BATCH counts as one. -/
def jobsOf (op : Op) (o : Operands) : Nat :=
  match op with
  | .batch => o.jobCount.toNat
  | .hash => 1
  | .map => 1
  | .decode => 1
  | .matchFilter => 1

/-- The read set of job j of a command, as byte ranges over the memory the command was issued on (20_memory R112). -/
def readSet (p : Platform) (m : Memory) (op : Op) (o : Operands) (j : Nat) : List (Nat × Nat) :=
  match op with
  | .hash => [(o.srcAddr.toNat, o.srcLen.toNat)]
  | .map => []
  | .decode => [(o.srcAddr.toNat, o.srcLen.toNat)]
  | .matchFilter => jobRanges p m (matchArgs o)
  | .batch => batchJobRanges p m o j

/-- The output region of a command (20_memory R114): address and length. -/
def outputRegion (op : Op) (o : Operands) : Nat × Nat :=
  match op with
  | .hash => (0, 0)
  | .map => (0, 0)
  | .decode => (o.dstAddr.toNat, 4 * Config.filterCap)
  | .matchFilter => (0, 0)
  | .batch => (o.resAddr.toNat, 4 * o.jobCount.toNat)

/-- How many words the output region holds. -/
def outputWords (op : Op) (o : Operands) : Nat := (outputRegion op o).2 / 4

/-- The address of output word k (20_memory R121). -/
def outputAddr (op : Op) (o : Operands) (k : Nat) : Nat := (outputRegion op o).1 + 4 * k

/-! ## When an output is any value -/

/-- Some byte of the output region is a byte of a read set of the same command (20_memory R114). -/
def overlaps (p : Platform) (m : Memory) (op : Op) (o : Operands) : Bool :=
  (List.range (jobsOf op o)).any fun j => (readSet p m op o j).any fun r => meets (outputRegion op o) r

/-- Some byte of job j's read set lies where reads have side effects or are not idempotent (20_memory R105, 93 I3). -/
def readsDevice (p : Platform) (m : Memory) (op : Op) (o : Operands) (j : Nat) : Bool :=
  (readSet p m op o j).any fun r => p.bus.any fun g => !g.idempotent && meets (g.base, g.size) r

/-- Some byte of the range g lies under a breach of the cache duties that stood or came while the command ran (20_memory
R118). -/
def breached (r : Running) (g : Nat × Nat) : Bool := r.stale.any fun b => meets b g

/-- Every output of job j is any value: the host wrote its read set (20_memory R113), or the output region overlaps a read
set (R114), or the read set lies in device memory (R105) or under a breach of the cache duties (R118). -/
def tainted (p : Platform) (r : Running) (j : Nat) : Bool :=
  r.raced.contains j || overlaps p r.before r.op r.latched || readsDevice p r.before r.op r.latched j
    || (readSet p r.before r.op r.latched j).any (breached r)

/-- The output word of job j at addr is any value: the job is tainted, or the word itself lies under a breach of the cache
duties (20_memory R118: "the affected inputs and outputs"). -/
def wordLost (p : Platform) (r : Running) (j addr : Nat) : Bool := tainted p r j || breached r (addr, 4)

/-- The byte range g meets the read set of job j (20_memory R112). -/
def touches (p : Platform) (g : Nat × Nat) (r : Running) (j : Nat) : Bool :=
  (readSet p r.before r.op r.latched j).any fun x => meets g x

/-- The host writes the byte range g while the command runs: every job whose read set it touches is raced (20_memory R113
item 3). -/
def markRaced (p : Platform) (g : Nat × Nat) (r : Running) : Running :=
  { r with raced := (List.range (jobsOf r.op r.latched)).filter fun j => r.raced.contains j || touches p g r j }

/-- The write of an output word of job j: its own value, or any value where it is lost (20_memory R113, R114, R118). It is
one MemWrite in either case, so that its failure sets BUSERR as any other's (60_exceptions R410; log entry 7). -/
def writeJobWord (r : Running) (j addr : Nat) (v : Word32) (s : State) : State :=
  if wordLost s.platform r j addr then writeOutputWord addr ((freeAt s 0).setWidth 32) (draw s 1) else writeOutputWord addr v s

/-! ## The register window (10_state R31) -/

/-- The registers of the window. -/
inductive Reg
  | id
  | params
  | ctrl
  | status
  | cmd
  | cfg
  | key0
  | key1
  | srcAddr
  | srcLen
  | dstAddr
  | watchAddr
  | watchCount
  | argH
  | argF
  | jobAddr
  | jobCount
  | resAddr
  | result0
  | result1
  | jobsDone
  | reserved
  deriving DecidableEq, Repr

/-- The register at an offset; 0x0A8 to 0xFF8 are reserved (10_state R31). -/
def regAt (offset : Nat) : Reg :=
  match offset with
  | 0x000 => .id
  | 0x008 => .params
  | 0x010 => .ctrl
  | 0x018 => .status
  | 0x020 => .cmd
  | 0x028 => .cfg
  | 0x030 => .key0
  | 0x038 => .key1
  | 0x040 => .srcAddr
  | 0x048 => .srcLen
  | 0x050 => .dstAddr
  | 0x058 => .watchAddr
  | 0x060 => .watchCount
  | 0x068 => .argH
  | 0x070 => .argF
  | 0x078 => .jobAddr
  | 0x080 => .jobCount
  | 0x088 => .resAddr
  | 0x090 => .result0
  | 0x098 => .result1
  | 0x0A0 => .jobsDone
  | _ => .reserved

/-- The accesses the spec defines: 64 bits at a multiple of 8 inside the window (10_state R32). -/
def accessDefined (offset width : Nat) : Bool := width == 8 && offset % 8 == 0 && decide (offset < Config.windowSize)

/-- PARAMS (10_state R34). -/
def paramsWord (p : Platform) : Word :=
  0#16 ++ (BitVec.ofNat 16 Config.filterCap ++ (BitVec.ofNat 16 p.candCap ++ BitVec.ofNat 16 p.nlanes))

/-- CFG as a word: P in 28:24, M in 20:0, the rest reads 0 (10_state R40). -/
def cfgWord (c : Cfg) : Word := 0#35 ++ (c.p ++ (0#3 ++ c.m))

/-- The CFG a written word leaves: "A write stores the M and P fields exactly as written" (10_state R40). -/
def cfgOfWord (v : Word) : Cfg := { m := v.extractLsb' 0 21, p := v.extractLsb' 24 5 }

/-- A write of an operand register; reserved bits are dropped (10_state R40 to R48). Every other register is left alone. -/
def writeOperand (r : Reg) (v : Word) (o : Operands) : Operands :=
  match r with
  | .cfg => { o with cfg := cfgOfWord v }
  | .key0 => { o with key0 := v }
  | .key1 => { o with key1 := v }
  | .srcAddr => { o with srcAddr := v }
  | .srcLen => { o with srcLen := v.extractLsb' 0 32 }
  | .dstAddr => { o with dstAddr := v }
  | .watchAddr => { o with watchAddr := v }
  | .watchCount => { o with watchCount := v.extractLsb' 0 32 }
  | .argH => { o with argH := v }
  | .argF => { o with argF := v }
  | .jobAddr => { o with jobAddr := v }
  | .jobCount => { o with jobCount := v.extractLsb' 0 32 }
  | .resAddr => { o with resAddr := v }
  | .id | .params | .ctrl | .status | .cmd | .result0 | .result1 | .jobsDone | .reserved => o

end Sys2Proof.Machine
end

