-- ==== Sys2Proof/Machine/Flags.lean ====
section
/-! DEFINITION. The flags: STATUS as a word (10_state R36), the interrupt line (R54), and reading a register of the
window. -/

namespace Sys2Proof.Machine

/-- STATUS.BUSY reads 1 exactly when the phase is BUSY (10_state R56). -/
def busy (s : State) : Bool := s.running.isSome

/-- ERRCODE of a status (10_state R36). -/
def errCodeByte (e : Option CmdError) : BitVec 8 :=
  match e with
  | none => 0
  | some c => errNumber c

/-- LAST_OP of a status (10_state R36). -/
def lastOpByte (o : Option Op) : BitVec 8 :=
  match o with
  | none => 0
  | some c => opNumber c

/-- STATUS as the host reads it: LAST_OP 23:16, ERRCODE 15:8, BUSERR 4, ABORTED 3, ERR 2, DONE 1, BUSY 0; the rest reads 0
(10_state R36). -/
def statusWord (s : State) : Word :=
  0#40 ++ (lastOpByte s.status.lastOp ++ (errCodeByte s.status.errCode ++ (0#3 ++
    (BitVec.ofBool s.status.busErr ++ (BitVec.ofBool s.status.aborted ++ (BitVec.ofBool s.status.err ++
      (BitVec.ofBool s.status.done ++ BitVec.ofBool (busy s))))))))

/-- `IRQ = CTRL.IRQ_EN and (STATUS.DONE or STATUS.ERR)` (10_state R54). -/
def irq (s : State) : Bool := s.irqEn && (s.status.done || s.status.err)

/-- A register as the host reads it (10_state R31). -/
def regWord (r : Reg) (s : State) : Word :=
  match r with
  | .id => Config.idValue
  | .params => paramsWord s.platform
  | .ctrl => (BitVec.ofBool s.irqEn).setWidth 64
  | .status => statusWord s
  | .cmd => 0
  | .cfg => cfgWord s.regs.cfg
  | .key0 => s.regs.key0
  | .key1 => s.regs.key1
  | .srcAddr => s.regs.srcAddr
  | .srcLen => s.regs.srcLen.setWidth 64
  | .dstAddr => s.regs.dstAddr
  | .watchAddr => s.regs.watchAddr
  | .watchCount => s.regs.watchCount.setWidth 64
  | .argH => s.regs.argH
  | .argF => s.regs.argF
  | .jobAddr => s.regs.jobAddr
  | .jobCount => s.regs.jobCount.setWidth 64
  | .resAddr => s.regs.resAddr
  | .result0 => s.result0
  | .result1 => s.result1
  | .jobsDone => s.jobsDone.setWidth 64
  | .reserved => 0

/-- A register as the host reads it: while RESET_IN is asserted, "reads of the window return the reset values"
(70_reset_and_hazards R451). -/
def readReg (offset : Nat) (s : State) : Word :=
  regWord (regAt offset) (if s.resetIn then resetCore s else s)

end Sys2Proof.Machine
end

