-- ==== Sys2Proof/Machine/Issue.lean ====
section
/-! DEFINITION. Command issue and acceptance (30_encoding R150 to R153), shared by the five commands that run. -/

namespace Sys2Proof.Machine

/-- The bookkeeping of a command just accepted (10_state R47, R57). -/
def freshRun (op : Op) (s : State) : Running :=
  { op := op, latched := s.regs, before := s.mem, eval := none, written := [], cursor := 0, lanes := [],
    abortReq := false, raced := [], hung := [], stale := s.stale }

/-- Acceptance (30_encoding R153): latch, DONE ← 0, ABORTED ← 0, BUSY ← 1, LAST_OP ← op; ERR, ERRCODE and BUSERR stay. A
BATCH also sets JOBS_DONE to 0. -/
def accept (op : Op) (s : State) : State :=
  let t := (s.setRunning (some (freshRun op s))).setStatus
    { s.status with done := false, aborted := false, lastOp := some op }
  match op with
  | .batch => t.setJobsDone 0
  | .hash => t
  | .map => t
  | .decode => t
  | .matchFilter => t

/-- The checks of 30_encoding R150 that come after decoding, in their order (R151): BUSY, BAD_CFG, ALIGN. -/
def issue (op : Op) (s : State) : State :=
  if busy s then cmdError .busy s
  else if usesCfg op && !cfgLegal s.regs then cmdError .badCfg s
  else if !alignedFor op s.regs then cmdError .align s
  else accept op s

end Sys2Proof.Machine
end

