-- ==== Sys2Proof/Machine/GolombRice.lean ====
section
/-! DEFINITION. The count prefix (30_encoding R162), the Golomb-Rice decoder (42_golomb_rice R262) and the DECODE
command (R280, R281). -/

namespace Sys2Proof.Machine

/-! ## The decoder -/

/-- Bits of a byte string, most significant first (00_scope R10). -/
def bitsOf : List Byte → List Bool
  | [] => []
  | b :: bs =>
    b.getLsbD 7 :: b.getLsbD 6 :: b.getLsbD 5 :: b.getLsbD 4 :: b.getLsbD 3 :: b.getLsbD 2 :: b.getLsbD 1 ::
      b.getLsbD 0 :: bitsOf bs

/-- What parsing the count prefix gives: N and the prefix length, or a code with N where the prefix yielded it. -/
inductive Prefix
  | ok (n plen : Nat)
  | bad (code : ResultCode) (n : Option Nat)
  deriving DecidableEq, Repr

/-- The capacity check, the last of the prefix (30_encoding R162). -/
def prefixCapacity (n plen : Nat) : Prefix :=
  if n > Config.filterCap then .bad .capacityExceeded (some n) else .ok n plen

/-- A prefix of 1 + w bytes, whose count must be at least lo (30_encoding R162). -/
def prefixLong (rest : List Byte) (w lo : Nat) : Prefix :=
  if rest.length < w then .bad .truncated none
  else if le (rest.take w) < lo then .bad .noncanonicalCount (some (le (rest.take w)))
  else prefixCapacity (le (rest.take w)) (1 + w)

/-- `parse_prefix(B, L)` (30_encoding R162). -/
def parsePrefix : List Byte → Prefix
  | [] => .bad .truncated none
  | b0 :: rest =>
    if b0.toNat < 0xFD then prefixCapacity b0.toNat 1
    else if b0.toNat = 0xFD then prefixLong rest 2 0xFD
    else if b0.toNat = 0xFE then prefixLong rest 4 0x10000
    else prefixLong rest 8 0x100000000

/-- The unary quotient: one-bits up to the first zero-bit, OVERLONG_QUOTIENT as soon as q × 2^P ≥ F, TRUNCATED at the end
of the buffer (42_golomb_rice R262 to R264). On success the quotient and the bits after it, on error the bits not read. -/
def unary (f p : Nat) : Nat → List Bool → Except (ResultCode × List Bool) (Nat × List Bool)
  | _, [] => .error (.truncated, [])
  | q, false :: bs => .ok (q, bs)
  | q, true :: bs => if (q + 1) * 2 ^ p ≥ f then .error (.overlongQuotient, bs) else unary f p (q + 1) bs

/-- The remainder: the next P bits, most significant first (42_golomb_rice R265). -/
def remainder : Nat → Nat → List Bool → Except (ResultCode × List Bool) (Nat × List Bool)
  | 0, r, bs => .ok (r, bs)
  | _ + 1, _, [] => .error (.truncated, [])
  | p + 1, r, b :: bs => remainder p (2 * r + b.toNat) bs

/-- One code: the delta q × 2^P + r (42_golomb_rice R266). -/
def oneCode (f p : Nat) (bs : List Bool) : Except (ResultCode × List Bool) (Nat × List Bool) :=
  match unary f p 0 bs with
  | .error e => .error e
  | .ok (q, bs) =>
    match remainder p 0 bs with
    | .error e => .error e
    | .ok (r, bs) => .ok (q * 2 ^ p + r, bs)

/-- What decoding the codes gives: the error if any, the values appended, the bits not read. -/
structure Codes where
  code : Option ResultCode
  out  : List Nat
  rest : List Bool
  deriving DecidableEq, Repr

/-- Decode n codes from the accumulator acc (42_golomb_rice R262): each value must be less than F (R268). -/
def decodeCodes (f p : Nat) : Nat → Nat → List Bool → Codes
  | 0, _, bs => { code := none, out := [], rest := bs }
  | n + 1, acc, bs =>
    match oneCode f p bs with
    | .error (c, rest) => { code := some c, out := [], rest := rest }
    | .ok (d, rest) =>
      if acc + d ≥ f then { code := some .valueRange, out := [], rest := rest }
      else
        let t := decodeCodes f p n (acc + d) rest
        { t with out := (acc + d) :: t.out }

/-- The tuple of GRDecode (42_golomb_rice R262), `code = none` for ok, and the bit cursor where it stopped. -/
structure Decoded where
  code : Option ResultCode
  n    : Option Nat
  out  : List Nat
  w16  : Bool
  pos  : Nat
  deriving DecidableEq, Repr

/-- `GRDecode(B, Lb, M, P)` (42_golomb_rice R262): the prefix, the codes, and COUNT_MISMATCH when 8 or more bits remain
(R269). -/
def grDecode (b : List Byte) (m p : Nat) : Decoded :=
  match parsePrefix b with
  | .bad c n => { code := some c, n := n, out := [], w16 := false, pos := 0 }
  | .ok n plen =>
    let f := n * m
    let t := decodeCodes f p n 0 (bitsOf (b.drop plen))
    { code := match t.code with
        | some c => some c
        | none => if t.rest.length ≥ 8 then some .countMismatch else none
      n := some n, out := t.out, w16 := decide (f < 65536), pos := 8 * b.length - t.rest.length }

/-! ## The DECODE command -/

/-- DECODE: the CMD write (42_golomb_rice R280). -/
def execDecode (s : State) : Host.Outcome State Fault Refusal := .next (issue .decode s)

/-- What DECODE gives on the memory it was issued on (42_golomb_rice R280): BUS_ERROR if the filter cannot be read; code
0x00 reports "decoded". -/
def decodeEval (p : Platform) (m : Memory) (o : Operands) : Evaluated :=
  match memRead p m o.srcAddr.toNat o.srcLen.toNat with
  | none => { word := resultWord .busError none false, n := none, fv := [], cv := [], bitCursor := 0 }
  | some b =>
    let d := grDecode b (cfgM o) (cfgP o)
    { word := resultWord (d.code.getD .noMatch) d.n d.w16, n := d.n, fv := d.out, cv := [], bitCursor := d.pos }

/-- How many values a DECODE may write: those it decoded, or any number up to FILTER_CAP where it is tainted (20_memory R113
item 3, "any DECODE output values"). -/
def valuesDue (p : Platform) (r : Running) (e : Evaluated) : Nat :=
  if tainted p r 0 then Config.filterCap else e.fv.length

/-- The values still to be dealt with. -/
def valuesLeft (p : Platform) (r : Running) (e : Evaluated) : List Nat :=
  (List.range (valuesDue p r e)).filter fun i => !r.written.contains i

/-- Write DECODE value i: 4 bytes at DST_ADDR + 4i (42_golomb_rice R281). Of a tainted DECODE any value is written there, or
none, its number of values being any number. DESIGN CHOICE (log entry 7): BUSERR, of which R113 and R114 say nothing, is set
exactly by the writes that are made and fail. -/
def writeValue (r : Running) (e : Evaluated) (i : Nat) (s : State) : State :=
  setRun { r with written := insertAsc i r.written }
    (if tainted s.platform r 0 && (freeAt s 0).getLsbD 32 then draw s 1
    else writeJobWord r 0 (valueAddr r.latched i) (BitVec.ofNat 32 (e.fv.getD i 0)) s)

/-- DECODE's completion step (42_golomb_rice R280); of a tainted DECODE the result word and RESULT1 are any value. -/
def decodeComplete (r : Running) (e : Evaluated) (s : State) : State :=
  if tainted s.platform r 0 then complete (draw ((s.setResult0 (anyResultWord s)).setResult1 (freeAt s 1)) 2)
  else complete ((s.setResult0 (e.word.setWidth 64)).setResult1 (BitVec.ofNat 64 e.fv.length))

/-- One core step of a DECODE: decode; then write the values, in any order (20_memory R113 item 6); then complete. -/
def decodeStep (pick : Nat) (r : Running) (s : State) : State :=
  match r.eval with
  | none => setRun { r with eval := some (decodeEval s.platform r.before r.latched) } s
  | some e =>
    match valuesLeft s.platform r e with
    | [] => decodeComplete r e s
    | i :: is => writeValue r e ((i :: is).getD (pick % (is.length + 1)) i) s

end Sys2Proof.Machine
end

