-- ==== Sys2Proof/Machine/Hash.lean ====
section
/-! DEFINITION. SipHash-2-4 and the HASH command (40_keyed_hash). -/

namespace Sys2Proof.Machine

/-- The four words of SipHash (40_keyed_hash R202). -/
structure SipState where
  v0 : Word
  v1 : Word
  v2 : Word
  v3 : Word
  deriving DecidableEq, Repr

/-- SipRound, its statements in the order written (40_keyed_hash R202). -/
def sipRound (v : SipState) : SipState :=
  let v0 := v.v0 + v.v1
  let v1 := v.v1.rotateLeft 13
  let v1 := v1 ^^^ v0
  let v0 := v0.rotateLeft 32
  let v2 := v.v2 + v.v3
  let v3 := v.v3.rotateLeft 16
  let v3 := v3 ^^^ v2
  let v0 := v0 + v3
  let v3 := v3.rotateLeft 21
  let v3 := v3 ^^^ v0
  let v2 := v2 + v1
  let v1 := v1.rotateLeft 17
  let v1 := v1 ^^^ v2
  let v2 := v2.rotateLeft 32
  { v0 := v0, v1 := v1, v2 := v2, v3 := v3 }

/-- The initial words (40_keyed_hash R203). -/
def sipInit (k0 k1 : Word) : SipState :=
  { v0 := k0 ^^^ 0x736F6D6570736575, v1 := k1 ^^^ 0x646F72616E646F6D, v2 := k0 ^^^ 0x6C7967656E657261,
    v3 := k1 ^^^ 0x7465646279746573 }

/-- One message word: into v3, two rounds, into v0 (40_keyed_hash R203). -/
def sipAbsorb (w : Word) (v : SipState) : SipState :=
  let u := sipRound (sipRound { v with v3 := v.v3 ^^^ w })
  { u with v0 := u.v0 ^^^ w }

/-- The full 8-byte words of the message, and the bytes left over (40_keyed_hash R203). -/
def sipWords (v : SipState) : List Byte → SipState × List Byte
  | b0 :: b1 :: b2 :: b3 :: b4 :: b5 :: b6 :: b7 :: rest =>
    sipWords (sipAbsorb (BitVec.ofNat 64 (le [b0, b1, b2, b3, b4, b5, b6, b7])) v) rest
  | left => (v, left)

/-- The last word: the length mod 256 in its top byte, the bytes left over below (40_keyed_hash R203). -/
def sipLast (n : Nat) (left : List Byte) : Word := BitVec.ofNat 64 (n % 256) <<< 56 ||| BitVec.ofNat 64 (le left)

/-- The finalization (40_keyed_hash R203). -/
def sipFinish (v : SipState) : Word :=
  let u := sipRound (sipRound (sipRound (sipRound { v with v2 := v.v2 ^^^ 0xFF })))
  u.v0 ^^^ u.v1 ^^^ u.v2 ^^^ u.v3

/-- SipHash24(K0, K1, m) (40_keyed_hash R203). -/
def sipHash24 (k0 k1 : Word) (m : List Byte) : Word :=
  let body := sipWords (sipInit k0 k1) m
  sipFinish (sipAbsorb (sipLast m.length body.2) body.1)

/-- HASH: the CMD write (40_keyed_hash R210). -/
def execHash (s : State) : Host.Outcome State Fault Refusal := .next (issue .hash s)

/-- HASH's completion step (40_keyed_hash R210): a read error is command error BUS_READ and leaves RESULT0; a tainted hash
is any value (20_memory R113). DESIGN CHOICE (log entry 7): where both hold, R113's any value and BUS_READ of R112, BUS_READ
wins for a HASH. -/
def hashComplete (r : Running) (s : State) : State :=
  match memRead s.platform r.before r.latched.srcAddr.toNat r.latched.srcLen.toNat with
  | none => complete (cmdError .busRead s)
  | some m =>
    if tainted s.platform r 0 then complete (draw (s.setResult0 (freeAt s 0)) 1)
    else complete (s.setResult0 (sipHash24 r.latched.key0 r.latched.key1 m))

end Sys2Proof.Machine
end

