-- ==== Sys2Proof/Machine/RangeMap.lean ====
section
/-! DEFINITION. The range mapper and the MAP command (41_range_mapper). -/

namespace Sys2Proof.Machine

/-- `Map(h, F) = floor(h × F / 2^64)`, the exact product's high half (41_range_mapper R231). -/
def rangeMap (h f : Nat) : Nat := h * f / 2 ^ 64

/-- MAP: the CMD write (41_range_mapper R235). -/
def execMap (s : State) : Host.Outcome State Fault Refusal := .next (issue .map s)

/-- MAP's completion step (41_range_mapper R235). -/
def mapComplete (r : Running) (s : State) : State :=
  complete (s.setResult0 (BitVec.ofNat 64 (rangeMap r.latched.argH.toNat r.latched.argF.toNat)))

end Sys2Proof.Machine
end

