-- ==== Sys2Proof/Machine/Matcher.lean ====
section
/-! DEFINITION. Candidates, the merge, one job (43_matcher R302 to R310) and the MATCH command (R320). -/

namespace Sys2Proof.Machine

/-- The candidate value of one item under the key and F (43_matcher R302). -/
def candidate (k0 k1 : Word) (f : Nat) (item : List Byte) : Nat := rangeMap (sipHash24 k0 k1 item).toNat f

/-- The CandidateSet sorted ascending, duplicates kept (43_matcher R302, R303). -/
def sortAscending : List Nat → List Nat
  | [] => []
  | x :: xs => insertAsc x (sortAscending xs)

/-- The merge with two cursors: "advance the smaller, report match on equality" (43_matcher R307). The first argument
bounds the comparisons. -/
def mergeSteps : Nat → List Nat → List Nat → Bool
  | 0, _, _ => false
  | _ + 1, [], _ => false
  | _ + 1, _ :: _, [] => false
  | k + 1, a :: as, b :: bs =>
    if a = b then true
    else if a < b then mergeSteps k as (b :: bs)
    else mergeSteps k (a :: as) bs

/-- `Merge(out, CV)`: at most N + W - 1 comparisons (43_matcher R307). -/
def merge (out cv : List Nat) : Bool := mergeSteps (out.length + cv.length) out cv

/-- Read every item of the watch entries, or `none` if one read is a BusError (43_matcher R310). -/
def readItems (p : Platform) (m : Memory) : List WatchEntry → Option (List (List Byte))
  | [] => some []
  | e :: es =>
    match memRead p m e.addr e.len with
    | none => none
    | some b =>
      match readItems p m es with
      | none => none
      | some bs => some (b :: bs)

/-- A job that ends before its prefix is parsed. -/
def earlyResult (c : ResultCode) : Evaluated :=
  { word := resultWord c none false, n := none, fv := [], cv := [], bitCursor := 0 }

/-- A job whose items are read: decode, then match (the last four lines of 43_matcher R310). The decode completes before
any result is formed (R309); an empty filter or watch set gives NOMATCH (R306). -/
def decodeAndMatch (k0 k1 : Word) (b : List Byte) (m p : Nat) (items : List (List Byte)) : Evaluated :=
  let d := grDecode b m p
  match d.code with
  | some c => { word := resultWord c d.n d.w16, n := d.n, fv := d.out, cv := [], bitCursor := d.pos }
  | none =>
    if d.n.getD 0 = 0 ∨ items.length = 0 then
      { word := resultWord .noMatch d.n d.w16, n := d.n, fv := d.out, cv := [], bitCursor := d.pos }
    else
      let cv := sortAscending (items.map (candidate k0 k1 (d.n.getD 0 * m)))
      { word := resultWord (if merge d.out cv then .isMatch else .noMatch) d.n d.w16, n := d.n, fv := d.out, cv := cv,
        bitCursor := d.pos }

/-- A job whose filter and watch table are read (43_matcher R310): the entries' reserved fields, then the items. -/
def checkAndMatch (p : Platform) (m : Memory) (cfg : Operands) (a : JobArgs) (b t : List Byte) : Evaluated :=
  if (watchEntries t a.w).any fun e => e.rsvd != 0 then earlyResult .descriptorError
  else
    match readItems p m (watchEntries t a.w) with
    | none => earlyResult .busError
    | some items => decodeAndMatch a.k0 a.k1 b (cfgM cfg) (cfgP cfg) items

/-- `RunJob` (43_matcher R310), its checks in the order that fixes the reported code (60_exceptions R420). -/
def runJob (p : Platform) (m : Memory) (cfg : Operands) (a : JobArgs) : Evaluated :=
  if a.w > p.candCap then earlyResult .candidateOverflow
  else
    match memRead p m a.fa a.lb with
    | none => earlyResult .busError
    | some b =>
      match memRead p m a.wa (16 * a.w) with
      | none => earlyResult .busError
      | some t => checkAndMatch p m cfg a b t

/-- MATCH: the CMD write (43_matcher R320). -/
def execMatch (s : State) : Host.Outcome State Fault Refusal := .next (issue .matchFilter s)

/-- MATCH's completion step (43_matcher R320): RESULT1 is N where the prefix yielded it, 0 otherwise (10_state R49). Of a
tainted MATCH the result word and RESULT1 are any value (20_memory R113). -/
def matchComplete (r : Running) (e : Evaluated) (s : State) : State :=
  if tainted s.platform r 0 then complete (draw ((s.setResult0 (anyResultWord s)).setResult1 (freeAt s 1)) 2)
  else complete ((s.setResult0 (e.word.setWidth 64)).setResult1 (BitVec.ofNat 64 (e.n.getD 0)))

/-- One core step of a MATCH: run the job, then complete. -/
def matchStep (r : Running) (s : State) : State :=
  match r.eval with
  | none => setRun { r with eval := some (runJob s.platform r.before r.latched (matchArgs r.latched)) } s
  | some e => matchComplete r e s

end Sys2Proof.Machine
end

