-- ==== Sys2Proof/Machine/Batch.lean ====
section
/-! DEFINITION. The batch dispatcher and its lanes, and the BATCH, ABORT and NOP commands (44_batch). -/

namespace Sys2Proof.Machine

/-- NOP: "It has no effect on any state, whatever the phase" (44_batch R380). -/
def execNop (s : State) : Host.Outcome State Fault Refusal := .next s

/-- BATCH: the CMD write (44_batch R340, R341). -/
def execBatch (s : State) : Host.Outcome State Fault Refusal := .next (issue .batch s)

/-- ABORT: abort_req on a running BATCH, no effect otherwise (44_batch R370). -/
def execAbort (s : State) : Host.Outcome State Fault Refusal :=
  .next
    (match s.running with
    | none => s
    | some r => if r.op = .batch then setRun { r with abortReq := true } s else s)

/-- `BatchJob(j)` (44_batch R345), on the memory the batch was issued on. -/
def batchJob (p : Platform) (m : Memory) (o : Operands) (j : Nat) : Evaluated :=
  match memRead p m (descriptorAddr o j) 64 with
  | none => earlyResult .busError
  | some d => if descriptorLegal d then runJob p m o (descriptorArgs d) else earlyResult .descriptorError

/-! ## The steps open to a running batch -/

/-- The steps of the dispatcher and of the lanes. -/
inductive BatchMove
  /-- the dispatcher hands job j to a free lane (44_batch R352). -/
  | dispatch (j : Nat)
  /-- the lane of job j evaluates it (44_batch R345). -/
  | evaluate (j : Nat)
  /-- the lane of job j writes its result slot (44_batch R360). -/
  | finish (j : Nat)
  /-- the same, with the completion step in that same step (44_batch R362, 93 I14). -/
  | finishAndComplete (j : Nat)
  /-- after an ABORT, job j is dropped with no write (44_batch R371). -/
  | drop (j : Nat)
  /-- the completion step (44_batch R362, R371). -/
  | complete
  deriving DecidableEq, Repr

/-- J = L[JOB_COUNT] (44_batch R340). -/
def jobCount (r : Running) : Nat := r.latched.jobCount.toNat

/-- The jobs in flight. -/
def inFlight (r : Running) : List Nat := r.lanes.map Lane.job

/-- The jobs no lane has taken yet. -/
def undispatched (r : Running) : List Nat :=
  (List.range (jobCount r)).filter fun j => !r.written.contains j && !(inFlight r).contains j

/-- The lanes that can move: none of their accesses is one that is never answered (93 I9). -/
def movable (r : Running) : List Lane := r.lanes.filter fun l => !r.hung.contains l.job

/-- Every done[j] is set (44_batch R362), or an abort is requested and no job is in flight (R371). -/
def batchOver (r : Running) : Bool :=
  r.lanes.isEmpty && (r.abortReq || decide (r.written.length = jobCount r))

/-- What remains once the lane of job j has written its slot. -/
def afterFinish (r : Running) (j : Nat) : Running :=
  { r with written := insertAsc j r.written, lanes := r.lanes.filter fun l => l.job != j }

/-- The jobs whose lane can write its slot. -/
def evaluatedJobs (r : Running) : List Nat := ((movable r).filter fun l => l.eval.isSome).map Lane.job

/-- The jobs whose lane has still to evaluate them. -/
def unevaluatedJobs (r : Running) : List Nat := ((movable r).filter fun l => l.eval.isNone).map Lane.job

/-- The moves open to a batch (44_batch R351: every interleaving). A job is handed out only while a lane is free and no
abort is requested (R352, R371); any job may be handed out next, since the order of dispatch "is not a guarantee the host
may rely on" (R371, log entry 14). -/
def batchMoves (p : Platform) (r : Running) : List BatchMove :=
  (evaluatedJobs r).map .finish
    ++ (unevaluatedJobs r).map .evaluate
    ++ (if !r.abortReq && decide (r.lanes.length < p.nlanes) then (undispatched r).map .dispatch else [])
    ++ ((evaluatedJobs r).filter fun j => batchOver (afterFinish r j)).map .finishAndComplete
    ++ (if r.abortReq then ((movable r).map Lane.job).map .drop else [])
    ++ (if batchOver r then [.complete] else [])

/-- The word a lane's job writes. -/
def laneWord (r : Running) (j : Nat) : Word32 :=
  match r.lanes.find? fun l => l.job == j with
  | some l => (l.eval.map Evaluated.word).getD 0
  | none => 0

/-- Writing result slot j: the word, done[j], JOBS_DONE + 1, BUSERR on a BusError (44_batch R360). It is the one write of
the slot (R354), whatever the word. -/
def finishJob (r : Running) (j : Nat) (s : State) : State :=
  let t := writeJobWord r j (slotAddr r.latched j) (laneWord r j) s
  (setRun (afterFinish r j) t).setJobsDone (t.jobsDone + 1)

/-- A batch's completion step (44_batch R362, R371): ABORTED if an abort was requested. -/
def batchComplete (r : Running) (s : State) : State :=
  complete (s.setStatus { s.status with aborted := s.status.aborted || r.abortReq })

/-- Make one move. -/
def batchMove (b : BatchMove) (r : Running) (s : State) : State :=
  match b with
  | .dispatch j => setRun { r with cursor := r.cursor + 1, lanes := r.lanes ++ [{ job := j, eval := none }] } s
  | .evaluate j =>
    setRun
      { r with
        lanes := r.lanes.map fun l =>
          if l.job = j then { l with eval := some (batchJob s.platform r.before r.latched j) } else l } s
  | .finish j => finishJob r j s
  | .finishAndComplete j => batchComplete (afterFinish r j) (finishJob r j s)
  | .drop j => setRun { r with lanes := r.lanes.filter fun l => l.job != j } s
  | .complete => batchComplete r s

/-- One core step of a BATCH: one of the moves open to it, or nothing where none is. -/
def batchStep (pick : Nat) (r : Running) (s : State) : State :=
  match batchMoves s.platform r with
  | [] => s
  | b :: bs => batchMove ((b :: bs).getD (pick % (bs.length + 1)) b) r s

end Sys2Proof.Machine
end

