-- ==== Sys2Proof/Machine/Sequencer.lean ====
section
/-! DEFINITION. One step of the core (30_encoding R154), whether it can move, and what a soft reset or a host read makes of
the output words of a running command (70_reset_and_hazards R452, 20_memory R113). -/

namespace Sys2Proof.Machine

/-- The core has a step it can take: memory answers some access it waits for (44_batch R383, 93 I9). -/
def coreCanMove (s : State) : Bool :=
  match s.running with
  | none => false
  | some r =>
    match r.op with
    | .batch => !(batchMoves s.platform r).isEmpty
    | .hash | .map | .decode | .matchFilter => !r.hung.contains 0

/-- The step of the running command. -/
def runStep (pick : Nat) (r : Running) (s : State) : State :=
  match r.op with
  | .hash => hashComplete r s
  | .map => mapComplete r s
  | .decode => decodeStep pick r s
  | .matchFilter => matchStep r s
  | .batch => batchStep pick r s

/-- One step of the core: "While the phase is IDLE it does no work" (60_exceptions R445). -/
def coreStep (pick : Nat) (s : State) : State :=
  match s.running with
  | none => s
  | some r => if coreCanMove s then runStep pick r s else s

/-- Steps of the core with no event of the host between them. -/
def coreSteps : List Nat → State → State
  | [], s => s
  | k :: ks, s => coreSteps ks (coreStep k s)

/-- A core step whose pick is a free value (44_batch R351). -/
def coreStepFree (s : State) : State := coreStep (freeAt s 0).toNat (draw s 1)

/-- The job makes a memory access: a filter or a watch table to read, behind the check that outranks both (43_matcher
R310). A read of 0 bytes accesses nothing (20_memory R105). -/
def jobAccesses (p : Platform) (a : JobArgs) : Bool := decide (a.w ≤ p.candCap) && (a.lb != 0 || a.w != 0)

/-- The running command has an access of job j still to come: a read before the step that evaluates it, or the write of an
output word. MAP reads no memory (41_range_mapper R235); a job in a lane reads its descriptor and writes its slot. DESIGN
CHOICE (log entry 16): an access counts whatever its address, one that is a BusError by R105 to R107 among them, past 2^64 - 1
or rejected by BUS_OK. -/
def waitsFor (p : Platform) (r : Running) (j : Nat) : Bool :=
  match r.op with
  | .hash => j == 0 && r.latched.srcLen != 0
  | .map => false
  | .decode =>
    j == 0 &&
      match r.eval with
      | none => r.latched.srcLen != 0
      | some e => !(valuesLeft p r e).isEmpty
  | .matchFilter => j == 0 && r.eval.isNone && jobAccesses p (matchArgs r.latched)
  | .batch => (inFlight r).contains j

/-- A memory access of job j is never answered (93 I9); nothing happens where it has none to come (44_batch R383). -/
def hangJob (j : Nat) (s : State) : State :=
  match s.running with
  | none => s
  | some r => if waitsFor s.platform r j then setRun { r with hung := insertAsc j r.hung } s else s

/-! ## The output words of a running command -/

/-- The value a running command writes to its output word k, if it writes one (20_memory R110), on the memory it was issued
on. -/
def outputValue (p : Platform) (r : Running) (k : Nat) : Option Word32 :=
  match r.op with
  | .decode => ((decodeEval p r.before r.latched).fv[k]?).map (BitVec.ofNat 32)
  | .batch => if k < jobCount r then some (batchJob p r.before r.latched k).word else none
  | .hash => none
  | .map => none
  | .matchFilter => none

/-- Which job an output word belongs to. -/
def outputJob (r : Running) (k : Nat) : Nat :=
  match r.op with
  | .batch => k
  | .hash | .map | .decode | .matchFilter => 0

/-- The output word k of a command abandoned by a soft reset: "either its old content or the value the command would have
written" (70_reset_and_hazards R452), or as it stands now, which is one of the two; any value if lost. DESIGN
CHOICE (log entry 28): where the host has written the word meanwhile (a breach of R465), as it stands now is what the host
wrote, and its old content is that from before the command. -/
def abandonWord (r : Running) (s : State) (k : Nat) : State :=
  let addr := outputAddr r.op r.latched k
  if wordLost s.platform r (outputJob r k) addr then anyWord addr s
  else
    match outputValue s.platform r k with
    | none => s
    | some v =>
      let t := draw s 1
      if (freeAt s 0).getLsbD 0 then
        if (freeAt s 0).getLsbD 1 then writeOutputWord addr v t
        else t.setMem (t.mem.writeBytes addr (r.before.readBytes addr 4))
      else t

/-- The output words already written that `lost` picks become any value. -/
def loseWords (lost : Nat → Bool) (r : Running) (s : State) : State :=
  (r.written.filter lost).foldl (fun u k => anyWord (outputAddr r.op r.latched k) u) s

/-- The host writes the byte range g: the output words already written of the jobs whose read set it touches become any
value (20_memory R113 item 3). -/
def raceWords (g : Nat × Nat) (r : Running) (s : State) : State :=
  loseWords (fun k => touches s.platform g r (outputJob r k)) r s

/-- Soft reset (70_reset_and_hazards R452): the running command is abandoned, its output words are settled, and everything
takes its reset value. -/
def softReset (s : State) : State :=
  match s.running with
  | none => resetCore s
  | some r => resetCore ((List.range (outputWords r.op r.latched)).foldl (abandonWord r) s)

/-- One byte of memory as the host reads it where no breach of the cache duties stands (20_memory R113 item 5): while a
command runs, a byte of an output word is that of the word before the command, or of the value the command writes, one choice
for the whole word (R109); any value if lost. A word whose write fails may hold any mix of the two (R106). What memory holds
now is always possible: DESIGN CHOICE (log entry 28), where the host has written the word meanwhile (70_reset_and_hazards
R465), it may read what it wrote. -/
def hostByte (s : State) (a : Nat) : Byte :=
  match s.running with
  | none => s.mem.read a
  | some r =>
    if inRange (outputRegion r.op r.latched) a then
      let k := (a - (outputRegion r.op r.latched).1) / 4
      let i := (a - (outputRegion r.op r.latched).1) % 4
      let choice := freeAt s (2 * k)
      if wordLost s.platform r (outputJob r k) (outputAddr r.op r.latched k) then (freeAt s (2 * k + 1)).extractLsb' (8 * i) 8
      else
        match outputValue s.platform r k with
        | none => s.mem.read a
        | some v =>
          if choice.getLsbD 0 then s.mem.read a
          else if choice.getLsbD (if rangeOk s.platform (outputAddr r.op r.latched k) 4 then 1 else 1 + i) then
            (leBytes 4 v.toNat).getD i 0
          else r.before.read a
    else s.mem.read a

/-- How many free values a host read may use. -/
def hostReadDraws (s : State) : Nat :=
  match s.running with
  | none => 0
  | some r => 2 * outputWords r.op r.latched

end Sys2Proof.Machine
end

