-- ==== Sys2Proof/Machine/Dispatch.lean ====
section
/-! DEFINITION. One arm per command: the effect of writing its word to CMD (30_encoding R150), after decoding. -/

namespace Sys2Proof.Machine

open Sys2Proof (Instr)

def exec (i : Instr) (s : State) : Host.Outcome State Fault Refusal :=
  match i with
  | .nop => Sys2Proof.Machine.execNop s
  | .hash => Sys2Proof.Machine.execHash s
  | .map => Sys2Proof.Machine.execMap s
  | .decode => Sys2Proof.Machine.execDecode s
  | .matchFilter => Sys2Proof.Machine.execMatch s
  | .batch => Sys2Proof.Machine.execBatch s
  | .abort => Sys2Proof.Machine.execAbort s

end Sys2Proof.Machine
end

