-- ==== Sys2Proof/Machine/HostPort.lean ====
section
/-! DEFINITION. What the outside world does to the machine: register accesses (10_state R31, R32), memory accesses of the
host (20_memory R113), cache breaches (R118), the interrupt line and RESET_IN (70_reset_and_hazards R451). -/

namespace Sys2Proof.Machine

/-- The sequencer's answer to a word written to CMD (30_encoding R150): an illegal word is command error ILLEGAL. -/
def writeCmd (w : Word) (s : State) : Host.Outcome State Fault Refusal :=
  match decode w with
  | .ok i => exec i s
  | .error _ => .next (cmdError .illegal s)

/-- A write of a register (10_state R31): CMD issues a command, CTRL with SRST = 1 is a soft reset (R35), STATUS takes the
W1C bits (R37); a write to a read-only or reserved one has no effect (R32). -/
def writeReg (r : Reg) (v : Word) (s : State) : Host.Outcome State Fault Refusal :=
  match r with
  | .cmd => writeCmd v s
  | .ctrl => .next (if v.getLsbD 1 then softReset s else s.setIrqEn (v.getLsbD 0))
  | .status => .next (ackStatus v s)
  | .cfg | .key0 | .key1 | .srcAddr | .srcLen | .dstAddr | .watchAddr | .watchCount | .argH | .argF | .jobAddr
  | .jobCount | .resAddr => .next (s.setRegs (writeOperand r v s.regs))
  | .id | .params | .result0 | .result1 | .jobsDone | .reserved => .next s

/-- A host write of the window: refused where the spec gives the access no meaning (10_state R32), ignored while RESET_IN
is asserted (70_reset_and_hazards R451). -/
def hostRegWrite (offset width : Nat) (v : Word) (s : State) : Host.Outcome State Fault Refusal :=
  if accessDefined offset width then
    if s.resetIn then .next s else writeReg (regAt offset) v s
  else .refused (.registerAccess offset width)

/-- The host sees something. -/
def observe (o : Observation) (s : State) : State := s.setObserved (s.observed ++ [o])

/-- A host read of the window (10_state R32). -/
def hostRegRead (offset width : Nat) (s : State) : Host.Outcome State Fault Refusal :=
  if accessDefined offset width then .next (observe (.reg offset (readReg offset s)) s)
  else .refused (.registerAccess offset width)

/-- The host's polling loop (30_encoding R180): while BUSY reads 1 the core takes a step and the host polls again. A
command whose memory accesses are never answered leaves BUSY at 1 for good (93 I9). -/
def hostWait (s : State) : Host.Outcome State Fault Refusal :=
  if busy s then
    if coreCanMove s then .next (coreStepFree (s.setAgenda (.wait :: s.agenda))) else .fault .memoryNeverAnswers
  else .next s

/-- The host wrote these bytes of memory: the jobs that read them are raced, and what they have written is any value
(20_memory R113 item 3). -/
def raceOn (g : Nat × Nat) (s : State) : State :=
  match s.running with
  | none => s
  | some r => setRun (markRaced s.platform g r) (raceWords g r s)

/-- The host's write to memory, as it is performed. DESIGN CHOICE (log entry 28): so is one to an output word of the running
command, a breach of 70_reset_and_hazards R465 that the spec gives no effect; the later of it and the core's write stands. -/
def hostMemWrite (addr : Nat) (bs : List Byte) (s : State) : State :=
  let t := raceOn (addr, bs.length) s
  t.setMem (t.mem.writeBytes addr bs)

/-- The host's read of memory: a byte over which a breach of the cache duties stands reads as any value (20_memory R118). -/
def hostMemRead (addr n : Nat) (s : State) : State :=
  draw
    (observe (.mem addr ((List.range n).map fun i =>
      if inRanges s.stale (addr + i) then (freeAt s (hostReadDraws s + i)).setWidth 8 else hostByte s (addr + i))) s)
    (hostReadDraws s + n)

/-- The running command meets a breach over g: of the words it has written, those that lie in g and those of jobs that read
it are any value, and so will be all that it still writes there or for those jobs. -/
def breachRun (g : Nat × Nat) (s : State) : State :=
  match s.running with
  | none => s
  | some r =>
    setRun { r with stale := r.stale ++ [g] }
      (loseWords (fun k => touches s.platform g r (outputJob r k) || meets g (outputAddr r.op r.latched k, 4)) r s)

/-- A breach of the cache duties of COHERENT = 0 over these bytes: "any value for the affected inputs and outputs"
(20_memory R118). It stands until the host synchronises its caches: the running command and any that is accepted meanwhile
have any value for the outputs of jobs that read the bytes and for the output words there, and the host reads any value
there. With COHERENT = 1 there are no such duties. -/
def cacheBreach (addr n : Nat) (s : State) : State :=
  if s.platform.coherent then s
  else
    let t := breachRun (addr, n) s
    t.setStale (t.stale ++ [(addr, n)])

/-- The host has written back and invalidated its cached copies of these bytes. What memory holds where a breach stood is
any value, and stays it until the next write. -/
def cacheSync (addr n : Nat) (s : State) : State :=
  if s.platform.coherent then s
  else
    let bs := (List.range n).map fun i =>
      if inRanges s.stale (addr + i) then (freeAt s i).setWidth 8 else s.mem.read (addr + i)
    ((draw s n).setMem (s.mem.writeBytes addr bs)).setStale (s.stale.flatMap (cutRange (addr, n)))

/-! ## The bus of the host (20_memory R120) -/

/-- The register window as a range of bus addresses: it begins at REG_BASE (20_memory R120, 60_exceptions R442). -/
def windowRange (p : Platform) : Nat × Nat := (p.regBase, Config.windowSize)

/-- The host's store of the low `width` bytes of v at a bus address: an access of the window where it meets the window, a
write to memory elsewhere (log entry 27). -/
def hostBusWrite (addr width : Nat) (v : Word) (s : State) : Host.Outcome State Fault Refusal :=
  if meets (addr, width) (windowRange s.platform) then
    if addr < s.platform.regBase then .refused (.windowEdge addr width)
    else hostRegWrite (addr - s.platform.regBase) width v s
  else .next (hostMemWrite addr (leBytes width v.toNat) s)

/-- The host's load of `width` bytes from a bus address. -/
def hostBusRead (addr width : Nat) (s : State) : Host.Outcome State Fault Refusal :=
  if meets (addr, width) (windowRange s.platform) then
    if addr < s.platform.regBase then .refused (.windowEdge addr width)
    else hostRegRead (addr - s.platform.regBase) width s
  else .next (hostMemRead addr width s)

/-- RESET_IN asserted (70_reset_and_hazards R451): everything is at its reset value (R450), and host memory stays. -/
def assertReset (s : State) : State := (resetCore s).setResetIn true

/-- One event of the outside world, or one step of the core where the event says so. -/
def happen (e : Event) (s : State) : Host.Outcome State Fault Refusal :=
  match e with
  | .regWrite offset width v => hostRegWrite offset width v s
  | .regRead offset width => hostRegRead offset width s
  | .wait => hostWait s
  | .memWrite addr bs => .next (hostMemWrite addr bs s)
  | .memRead addr n => .next (hostMemRead addr n s)
  | .busWrite addr width v => hostBusWrite addr width v s
  | .busRead addr width => hostBusRead addr width s
  | .irqSample => .next (observe (.irq s.platform.irqLine (irq s)) s)
  | .core pick => .next (coreStep pick s)
  | .memHang j => .next (hangJob j s)
  | .cacheBreach addr n => .next (cacheBreach addr n s)
  | .cacheSync addr n => .next (cacheSync addr n s)
  | .resetAssert => .next (assertReset s)
  | .resetRelease => .next (s.setResetIn false)

/-- With nothing to come from outside, a running command goes on by itself (30_encoding R154); where it waits for memory
that never answers, nothing can move any more (93 I9). -/
def runAlone (s : State) : Host.Outcome State Fault Refusal :=
  if busy s then (if coreCanMove s then .next (coreStepFree s) else .fault .memoryNeverAnswers) else .next s

/-- The offset of CMD (10_state R31). -/
def cmdOffset : Nat := 0x020

/-- A host program (30_encoding R180) whose next line writes the word to CMD. -/
def cmdWrite (w : Word) : Event := .regWrite cmdOffset 8 w

end Sys2Proof.Machine
end

