-- ==== Sys2Proof/Machine/Step.lean ====
section
/-! DEFINITION. One step of the machine: the next event of the agenda, or, with none to come, a step of the core. -/

namespace Sys2Proof.Machine

/-- One step. The instruction stream is the host's writes to CMD (10_state R52), so the "fetch" is the next event. -/
def step (s : State) : Host.Outcome State Fault Refusal :=
  match s.agenda with
  | [] => runAlone s
  | e :: es => happen e (s.setAgenda es)

/-- s with the command word as the host's very next write to CMD, and RESET_IN released so that the write is not ignored
(log entry 2). -/
def State.withFetchWord (s : State) (_nbits w : Nat) : State :=
  { s with agenda := cmdWrite (BitVec.ofNat 64 w) :: s.agenda, resetIn := false }

end Sys2Proof.Machine
end

