-- ==== Sys2Proof/Safety.lean ====
section
/-! DEFINITION. What counts as a good state: the invariant that every step keeps, in the spec's terms. -/

namespace Sys2Proof.Machine

/-- The bookkeeping of a running BATCH (10_state R57, 44_batch R350 to R362). -/
structure BatchInv (s : State) (r : Running) : Prop where
  /-- done[j] is set only for jobs of the batch. -/
  writtenBound : ∀ j ∈ r.written, j < jobCount r
  /-- no two lanes run one job: "every job ... is evaluated exactly once" (44_batch R354). -/
  lanesDistinct : (inFlight r).Nodup
  /-- a lane runs a job of the batch whose slot is not written yet. -/
  lanesBound : ∀ j ∈ inFlight r, j < jobCount r ∧ j ∉ r.written
  /-- "At most NLANES jobs are in flight at once" (44_batch R353). -/
  lanesRoom : r.lanes.length ≤ s.platform.nlanes
  /-- a lane that has evaluated its job holds that job's own result (44_batch R346). -/
  laneEval : ∀ l ∈ r.lanes, ∀ e, l.eval = some e → e = batchJob s.platform r.before r.latched l.job
  /-- JOBS_DONE counts the slots written (10_state R50). -/
  jobsDone : s.jobsDone.toNat = r.written.length
  /-- the job cursor "runs from 0 to L[JOB_COUNT]" (10_state R52) ... -/
  cursorBound : r.cursor ≤ jobCount r
  /-- ... and every job written or in flight was handed out; without an abort there is no other. -/
  cursorCount : r.written.length + r.lanes.length ≤ r.cursor
  cursorExact : r.abortReq = false → r.cursor = r.written.length + r.lanes.length

/-- The bookkeeping of a running command (10_state R47, R56, R57). -/
structure RunInv (s : State) (r : Running) : Prop where
  beforeWf : r.before.wf
  /-- LAST_OP is the running command (10_state R36). -/
  lastOp : s.status.lastOp = some r.op
  /-- DONE and ABORTED are cleared by acceptance and set only by completion (10_state R36). -/
  notDone : s.status.done = false
  notAborted : s.status.aborted = false
  /-- what was latched passed the issue checks (30_encoding R150). -/
  cfgOk : usesCfg r.op = true → cfgLegal r.latched = true
  aligned : alignedFor r.op r.latched = true
  racedBound : ∀ j ∈ r.raced, j < jobsOf r.op r.latched
  /-- the output words written, each once. -/
  writtenOnce : r.written.Pairwise (· < ·)
  /-- only a BATCH has lanes, a cursor and an abort request. -/
  batchOnly : r.op ≠ .batch → r.lanes = [] ∧ r.cursor = 0 ∧ r.abortReq = false
  /-- only DECODE and MATCH use the sequencer's buffers (10_state R55). -/
  noBuffers : r.op = .hash ∨ r.op = .map ∨ r.op = .batch → r.eval = none
  /-- only DECODE and BATCH write memory (20_memory R110). -/
  noWords : r.op = .hash ∨ r.op = .map ∨ r.op = .matchFilter → r.written = []
  /-- the sequencer's buffers hold what the filter gives. -/
  decodeEval : r.op = .decode → ∀ e, r.eval = some e → e = decodeEval s.platform r.before r.latched
  decodeFirst : r.op = .decode → r.eval = none → r.written = []
  decodeBound : r.op = .decode → ∀ i ∈ r.written, i < Config.filterCap
  decodeOwn : r.op = .decode → tainted s.platform r 0 = false → ∀ e, r.eval = some e → ∀ i ∈ r.written, i < e.fv.length
  matchEval : r.op = .matchFilter → ∀ e, r.eval = some e →
    e = runJob s.platform r.before r.latched (matchArgs r.latched)
  batch : r.op = .batch → BatchInv s r

/-- The invariant of the machine. -/
structure Inv (s : State) : Prop where
  /-- memory is in its canonical form. -/
  memWf : s.mem.wf
  /-- the OPEN parameters are within the spec's bounds (00_scope R8). -/
  platformLegal : s.platform.wellFormed = true
  /-- ERR is set exactly when ERRCODE is not 0 (10_state R36). -/
  errCode : s.status.err = s.status.errCode.isSome
  /-- while RESET_IN is asserted every register and the phase are at reset (70_reset_and_hazards R451). -/
  quiet : s.resetIn = true → resetCore s = s
  /-- a running command's bookkeeping. -/
  running : ∀ r, s.running = some r → RunInv s r
  /-- with COHERENT = 1 there are no cache duties to breach (20_memory R118). -/
  coherent : s.platform.coherent = true → s.stale = [] ∧ ∀ r, s.running = some r → r.stale = []

/-- The n bytes at a can be read or written by the core: they exist and BUS_OK holds of each (20_memory R105, R106). -/
def accessible (p : Platform) (a n : Nat) : Prop := a + n ≤ 2 ^ 64 ∧ ∀ i < n, busOk p (a + i) = true

/-- Nothing makes the outputs of a command issued now "any value": its output region meets no read set of its own
(20_memory R114), no read set lies in device memory (R105), and no breach of the cache duties stands over any of them
(R118). -/
def undisturbed (op : Op) (s : State) : Prop :=
  overlaps s.platform s.mem op s.regs = false ∧
    (∀ j < jobsOf op s.regs, readsDevice s.platform s.mem op s.regs j = false) ∧
    ∀ b ∈ s.stale, meets b (outputRegion op s.regs) = false ∧
      ∀ j < jobsOf op s.regs, ∀ g ∈ readSet s.platform s.mem op s.regs j, meets b g = false

end Sys2Proof.Machine
end

