-- ==== Sys2Proof/Certificates/Slice0/Obligations.lean ====
section
/-! DEFINITION. The statements for the provers. Each docstring names the rules of spec/ it formalises. -/

namespace Sys2Proof.Claims

open Sys2Proof Sys2Proof.Machine

/-! ## Words the statements use, written out from the rules -/

/-- The instruction whose acceptance moves the phase to BUSY(op). -/
def instrOf : Op → Instr
  | .hash => .hash
  | .map => .map
  | .decode => .decode
  | .matchFilter => .matchFilter
  | .batch => .batch

/-- The state 30_encoding R153 gives after acceptance of op: L latched, DONE and ABORTED cleared, LAST_OP set, phase
BUSY(op), and for a BATCH JOBS_DONE, done[] and abort_req cleared. A breach of the cache duties that stands is the command's
too (20_memory R118). -/
def acceptance (op : Op) (s : State) : State :=
  { s with
    running := some { op := op, latched := s.regs, before := s.mem, eval := none, written := [], cursor := 0, lanes := [],
                      abortReq := false, raced := [], hung := [], stale := s.stale }
    status := { s.status with done := false, aborted := false, lastOp := some op }
    jobsDone := if op = .batch then 0 else s.jobsDone }

/-- The effect of a command error (60_exceptions R402). -/
def withError (e : CmdError) (s : State) : State :=
  { s with status := { s.status with err := true, errCode := some e } }

/-- What every completion step does (10_state R56): BUSY ← 0, DONE ← 1, phase ← IDLE. -/
def completed (s : State) : State :=
  { s with running := none, status := { s.status with done := true } }

/-- CFG.M is legal (10_state R41). -/
def legalM (s : State) : Prop := 1 ≤ s.regs.cfg.m.toNat ∧ s.regs.cfg.m.toNat ≤ 2 ^ 20

/-- The four bytes at a are those of the 32-bit word v, least significant first (20_memory R101). -/
def holdsWord (m : Memory) (a : Nat) (v : Word32) : Prop := ∀ k < 4, m.read (a + k) = v.extractLsb' (8 * k) 8

/-- The message of a HASH (40_keyed_hash R210). -/
def message (s : State) : List Byte :=
  (List.range s.regs.srcLen.toNat).map fun i => s.mem.read (s.regs.srcAddr.toNat + i)

/-- The deltas of a sequence (30_encoding R164). -/
def deltas : Nat → List Nat → List Nat
  | _, [] => []
  | prev, v :: vs => (v - prev) :: deltas v vs

/-- One Golomb-Rice code: q one-bits, a zero-bit, the P low-order bits most significant first (30_encoding R163). -/
def codeBits (p d : Nat) : List Bool :=
  List.replicate (d / 2 ^ p) true ++ (false :: (List.range p).map fun i => d.testBit (p - 1 - i))

/-- The bitstream of a sequence (30_encoding R164). -/
def streamBits (p : Nat) (vs : List Nat) : List Bool := (deltas 0 vs).flatMap (codeBits p)

/-- The canonical count prefix of N ≤ 4096 (30_encoding R162). -/
def canonicalPrefix (n : Nat) : List Byte :=
  if n < 253 then [BitVec.ofNat 8 n] else [0xFD, BitVec.ofNat 8 (n % 256), BitVec.ofNat 8 (n / 256)]

/-- CODE (30_encoding R170). -/
def codeValue : ResultCode → Nat
  | .noMatch => 0x00
  | .isMatch => 0x01
  | .truncated => 0x10
  | .capacityExceeded => 0x11
  | .countMismatch => 0x12
  | .overlongQuotient => 0x13
  | .noncanonicalCount => 0x14
  | .valueRange => 0x20
  | .descriptorError => 0x30
  | .candidateOverflow => 0x31
  | .busError => 0x32

/-- A result word as a number: CODE in 7:0, W16 in bit 8, min(N, 0xFFFF) in 31:16 (30_encoding R171). -/
def resultNumber (c : ResultCode) (n : Option Nat) (w16 : Bool) : Nat :=
  codeValue c + 256 * (if w16 then 1 else 0) + 65536 * min (n.getD 0) 0xFFFF

/-- ERRCODE (30_encoding R172). -/
def errValue : Option CmdError → Nat
  | none => 0x00
  | some .illegal => 0x01
  | some .busy => 0x02
  | some .badCfg => 0x03
  | some .busRead => 0x04
  | some .align => 0x05

/-- LAST_OP: the opcode of the last command accepted (10_state R36, 30_encoding R141). -/
def opcodeValue : Option Op → Nat
  | none => 0x00
  | some .hash => 0x01
  | some .map => 0x02
  | some .decode => 0x03
  | some .matchFilter => 0x04
  | some .batch => 0x05

/-- The n-byte little-endian field at an offset of a byte string (20_memory R101). -/
def fieldAt (bs : List Byte) (offset n : Nat) : Nat :=
  (List.range n).foldr (fun i v => (bs.getD (offset + i) 0).toNat + 256 * v) 0

/-- The job a descriptor names (30_encoding R161). -/
def jobOf (d : List Byte) : JobArgs :=
  { k0 := BitVec.ofNat 64 (fieldAt d 0 8), k1 := BitVec.ofNat 64 (fieldAt d 8 8), fa := fieldAt d 16 8,
    lb := fieldAt d 24 4, wa := fieldAt d 32 8, w := fieldAt d 40 4 }

/-- A descriptor's reserved fields are 0 and its watch table is 8-byte aligned (44_batch R345). -/
def jobLegal (d : List Byte) : Prop :=
  fieldAt d 28 4 = 0 ∧ fieldAt d 44 4 = 0 ∧ fieldAt d 48 8 = 0 ∧ fieldAt d 56 8 = 0 ∧ fieldAt d 32 8 % 8 = 0

/-- Output word k of a running command stands at this address (20_memory R110, R121). -/
def OutputWordAt (r : Running) (k addr : Nat) : Prop :=
  (r.op = .decode ∧ k < 4096 ∧ addr = r.latched.dstAddr.toNat + 4 * k) ∨
    (r.op = .batch ∧ k < r.latched.jobCount.toNat ∧ addr = r.latched.resAddr.toNat + 4 * k)

/-- The command writes this word there: value k of a DECODE (42_golomb_rice R281), result k of a BATCH (44_batch R360). -/
def WritesWord (p : Platform) (r : Running) (k addr : Nat) (v : Word32) : Prop :=
  OutputWordAt r k addr ∧
    ((r.op = .decode ∧ ∃ x, (decodeEval p r.before r.latched).fv[k]? = some x ∧ v = BitVec.ofNat 32 x) ∨
      (r.op = .batch ∧ v = (batchJob p r.before r.latched k).word))

/-- Every output of job j is any value: its read set was written (20_memory R113), meets the output region (R114), lies in
device memory (R105), or lies under a breach of the cache duties (R118). -/
def Disturbed (p : Platform) (r : Running) (j : Nat) : Prop :=
  j ∈ r.raced ∨ overlaps p r.before r.op r.latched = true ∨ readsDevice p r.before r.op r.latched j = true ∨
    ∃ g ∈ readSet p r.before r.op r.latched j, ∃ b ∈ r.stale, meets b g = true

/-- The output word at addr is any value whatever its job: it lies under a breach of the cache duties (20_memory R118). -/
def UnderBreach (r : Running) (addr : Nat) : Prop := ∃ b ∈ r.stale, meets b (addr, 4) = true

/-- A breach over the byte range g affects output word k, which stands at w: it lies in g, or its job reads a byte of g
(20_memory R118). -/
def BreachReaches (p : Platform) (g : Nat × Nat) (r : Running) (k w : Nat) : Prop :=
  meets g (w, 4) = true ∨
    ∃ x ∈ readSet p r.before r.op r.latched (if r.op = .batch then k else 0), meets g x = true

/-- A breach of the cache duties stands over the byte at a (20_memory R118). -/
def Stale (s : State) (a : Nat) : Prop := ∃ b ∈ s.stale, b.1 ≤ a ∧ a < b.1 + b.2

/-- The operand registers and the others a running command may not touch, and what belongs to the outside world. -/
def SameOutside (s t : State) : Prop :=
  t.platform = s.platform ∧ t.irqEn = s.irqEn ∧ t.regs = s.regs ∧ t.resetIn = s.resetIn ∧ t.agenda = s.agenda ∧
    t.observed = s.observed ∧ t.stale = s.stale

end Sys2Proof.Claims

open Sys2Proof Sys2Proof.Machine Sys2Proof.Claims

/-! ## Encoding, issue and acceptance -/

/-- 10_state R38, R52: the host's next write to CMD is the next instruction. When its word decodes, the step is exec of
that instruction, after the write is taken from the agenda; and withFetchWord places exactly such a write. 30_encoding R154,
R180: every other event is taken the same way, and is the access, the core step or the reset it names; with nothing to come a
running command takes a step of its own and an idle core stays, and `wait` lets the core step until BUSY reads 0, where the
host goes on. Only a command one of whose accesses is never answered can stop the machine instead (93 I9). That the host's
writes stand in `agenda`, and that `wait` and an empty agenda step the core with a free pick, is the model's choice (log
entries 1, 2, 16, 21 and 22). -/
def Obligations.StepRunsDecodedCommand : Prop :=
  (∀ (s : State) (w : Word) (es : List Event) (i : Instr),
    s.agenda = Event.regWrite 0x020 8 w :: es → s.resetIn = false → decode w = .ok i →
    step s = exec i { s with agenda := es }) ∧
  (∀ (s : State) (w : Nat) (i : Instr),
    decode (BitVec.ofNat 64 w) = .ok i → step (s.withFetchWord 64 w) = exec i { s with resetIn := false }) ∧
  (∀ (s : State) (e : Event) (es : List Event), s.agenda = e :: es → step s = happen e { s with agenda := es }) ∧
  (∀ (s : State) (pick offset width : Nat) (v : Word),
    happen (.core pick) s = .next (coreStep pick s) ∧
    happen (.regWrite offset width v) s = hostRegWrite offset width v s ∧
    happen (.regRead offset width) s = hostRegRead offset width s ∧
    happen .resetAssert s = .next (assertReset s)) ∧
  (∀ s : State, s.running = none →
    happen .wait s = .next s ∧ (s.agenda = [] → step s = .next s)) ∧
  ∀ (s : State) (r : Running), Inv s → s.running = some r →
    (r.hung = [] →
      happen .wait s = .next (coreStep (Config.free s.drawn).toNat
        { s with agenda := .wait :: s.agenda, drawn := s.drawn + 1 }) ∧
      (s.agenda = [] → step s = .next (coreStep (Config.free s.drawn).toNat { s with drawn := s.drawn + 1 }))) ∧
    (happen .wait s = .next (coreStep (Config.free s.drawn).toNat
        { s with agenda := .wait :: s.agenda, drawn := s.drawn + 1 }) ∨
      happen .wait s = .fault .memoryNeverAnswers ∧ ∀ pick, coreStep pick s = s) ∧
    (s.agenda = [] →
      step s = .next (coreStep (Config.free s.drawn).toNat { s with drawn := s.drawn + 1 }) ∨
      step s = .fault .memoryNeverAnswers ∧ ∀ pick, coreStep pick s = s)

/-- 30_encoding R142: OPCODE 0x07 to 0xFF or RSVD ≠ 0 raises ILLEGAL and has no other effect; every other word is one of
the seven commands. -/
def Obligations.IllegalWordRaisesIllegalOnly : Prop :=
  ∀ (s : State) (w : Word), s.resetIn = false →
    ((w.toNat / 256 ≠ 0 ∨ 7 ≤ w.toNat % 256) → hostRegWrite 0x020 8 w s = .next (withError .illegal s)) ∧
    (¬(w.toNat / 256 ≠ 0 ∨ 7 ≤ w.toNat % 256) →
      ∃ i : Instr, decode w = .ok i ∧ w = encode i ∧ hostRegWrite 0x020 8 w s = exec i s)

/-- 30_encoding R141: the command words are the seven opcodes zero-extended, and the decoder reads an instruction from a
word exactly when the word is that instruction's. -/
def Obligations.DecodeReadsExactlyTheEncodedWord : Prop :=
  (encode .nop = 0x00 ∧ encode .hash = 0x01 ∧ encode .map = 0x02 ∧ encode .decode = 0x03 ∧ encode .matchFilter = 0x04 ∧
    encode .batch = 0x05 ∧ encode .abort = 0x06) ∧
  ∀ (w : Word) (i : Instr), decode w = .ok i ↔ w = encode i

/-- 30_encoding R140, R141: words written out from the table, and two that are no commands. -/
def Obligations.WordsOfTheOpcodeMapDecode : Prop :=
  decode 0x0000000000000000 = .ok .nop ∧ decode 0x0000000000000001 = .ok .hash ∧
  decode 0x0000000000000002 = .ok .map ∧ decode 0x0000000000000003 = .ok .decode ∧
  decode 0x0000000000000004 = .ok .matchFilter ∧ decode 0x0000000000000005 = .ok .batch ∧
  decode 0x0000000000000006 = .ok .abort ∧ decode 0x0000000000000007 = .error .undefinedOpcode ∧
  decode 0x0000000000000101 = .error .reservedNotZero

/-- 30_encoding R150, R151: a CMD write in full, its cases in their order. -/
def Obligations.CmdWriteFollowsTheIssueProcedure : Prop :=
  ∀ (s : State) (w : Word), s.resetIn = false →
    hostRegWrite 0x020 8 w s = .next (
      if w.toNat / 256 ≠ 0 ∨ 6 < w.toNat % 256 then withError .illegal s
      else if w.toNat = 0 then s
      else if w.toNat = 6 then
        (match s.running with
        | some r => if r.op = .batch then { s with running := some { r with abortReq := true } } else s
        | none => s)
      else if s.running.isSome then withError .busy s
      else if (w.toNat = 3 ∨ w.toNat = 4 ∨ w.toNat = 5) ∧ ¬(1 ≤ s.regs.cfg.m.toNat ∧ s.regs.cfg.m.toNat ≤ 2 ^ 20) then
        withError .badCfg s
      else if w.toNat = 3 ∧ s.regs.dstAddr.toNat % 4 ≠ 0 then withError .align s
      else if w.toNat = 4 ∧ s.regs.watchAddr.toNat % 8 ≠ 0 then withError .align s
      else if w.toNat = 5 ∧ (s.regs.jobAddr.toNat % 8 ≠ 0 ∨ s.regs.resAddr.toNat % 4 ≠ 0) then withError .align s
      else if w.toNat = 1 then acceptance .hash s
      else if w.toNat = 2 then acceptance .map s
      else if w.toNat = 3 then acceptance .decode s
      else if w.toNat = 4 then acceptance .matchFilter s
      else acceptance .batch s)

/-- 30_encoding R152: while a command runs, another one raises BUSY and the running command is unaffected. -/
def Obligations.CommandWhileBusyIsRejectedAndLost : Prop :=
  ∀ (s : State) (op : Op) (r : Running), s.running = some r →
    exec (instrOf op) s = .next (withError .busy s) ∧ (withError .busy s).running = some r

/-- 10_state R41: CFG.M is legal from 1 to 2^20; DECODE, MATCH and BATCH are rejected with BAD_CFG otherwise, HASH, MAP, NOP
and ABORT never are; and then F = N × M is at most 2^32. -/
def Obligations.IllegalModulusRejectsItsUsersOnly : Prop :=
  ∀ (s : State), s.running = none →
    (¬legalM s →
      exec .decode s = .next (withError .badCfg s) ∧ exec .matchFilter s = .next (withError .badCfg s) ∧
      exec .batch s = .next (withError .badCfg s)) ∧
    exec .hash s = .next (acceptance .hash s) ∧ exec .map s = .next (acceptance .map s) ∧
    exec .nop s = .next s ∧ exec .abort s = .next s ∧
    (legalM s → ∀ n ≤ 4096, n * s.regs.cfg.m.toNat ≤ 2 ^ 32 ∧
      ∀ h < 2 ^ 64, rangeMap h (n * s.regs.cfg.m.toNat) < 2 ^ 32)

/-- 44_batch R380: NOP has no effect on any state, whatever the phase; opcode 0x00 with RSVD ≠ 0 is ILLEGAL. -/
def Obligations.NopChangesNothing : Prop :=
  (∀ s : State, exec .nop s = .next s) ∧
  ∀ (s : State) (w : Word), s.resetIn = false → w.toNat % 256 = 0 → w ≠ 0 →
    hostRegWrite 0x020 8 w s = .next (withError .illegal s)

/-- 44_batch R370: ABORT sets abort_req of a running BATCH and nothing else; in any other phase it has no effect; a second
one has no further effect. -/
def Obligations.AbortRequestsTheEndOfABatchOnly : Prop :=
  (∀ (s : State) (r : Running), s.running = some r → r.op = .batch →
    exec .abort s = .next { s with running := some { r with abortReq := true } }) ∧
  (∀ s : State, (∀ r, s.running = some r → r.op ≠ .batch) → exec .abort s = .next s) ∧
  (∀ s t : State, exec .abort s = .next t → exec .abort t = .next t)

/-- 30_encoding R150, R153, 10_state R51: the frame of every CMD write: it accesses no memory, writes no operand or result
register, no bit of CTRL, and of STATUS not BUSERR; only a BATCH changes JOBS_DONE. -/
def Obligations.CommandIssueFrame : Prop :=
  ∀ (i : Instr) (s t : State), exec i s = .next t →
    SameOutside s t ∧ t.mem = s.mem ∧ t.result0 = s.result0 ∧ t.result1 = s.result1 ∧
    t.status.busErr = s.status.busErr ∧ t.drawn = s.drawn ∧ (i ≠ .batch → t.jobsDone = s.jobsDone) ∧
    (s.running.isSome = true → t.status.done = s.status.done ∧ t.status.aborted = s.status.aborted ∧
      t.status.lastOp = s.status.lastOp)

/-! ## HASH and MAP -/

/-- 40_keyed_hash R210, for a message that can be read: an idle core accepts HASH, and its next step completes it with
RESULT0 = SipHash24(KEY0, KEY1, message), RESULT1 and memory unchanged. That the completion is the very next core step is the
model's choice (log entry 19). -/
def Obligations.HashCommandResult : Prop :=
  ∀ (s : State) (pick : Nat), s.running = none →
    (s.regs.srcLen = 0 ∨ accessible s.platform s.regs.srcAddr.toNat s.regs.srcLen.toNat) → undisturbed .hash s →
    ∃ t, exec .hash s = .next t ∧ t = acceptance .hash s ∧
      coreStep pick t = { completed t with result0 := sipHash24 s.regs.key0 s.regs.key1 (message s) }

/-- 40_keyed_hash R210, for a message that cannot be read: BUS_READ at completion, with RESULT0 unchanged. That the completion
is the very next core step is the model's choice (log entry 19), and so is that BUS_READ wins for a message that lies in device
memory or under a breach of the cache duties too (log entry 7). -/
def Obligations.HashReadErrorIsBusRead : Prop :=
  ∀ (s : State) (pick : Nat), s.running = none → s.regs.srcLen ≠ 0 →
    ¬accessible s.platform s.regs.srcAddr.toNat s.regs.srcLen.toNat →
    ∃ t, exec .hash s = .next t ∧ t = acceptance .hash s ∧ coreStep pick t = completed (withError .busRead t)

/-- 40_keyed_hash R210 (worked example) and the empty message: the designers' published SipHash-2-4 vectors. -/
def Obligations.HashMatchesThePublishedVectors : Prop :=
  sipHash24 0x0706050403020100 0x0F0E0D0C0B0A0908 [0, 1, 2, 3, 4, 5, 6, 7, 8, 9, 10, 11, 12, 13, 14] = 0xA129CA6149BE45E5 ∧
  sipHash24 0x0706050403020100 0x0F0E0D0C0B0A0908 [] = 0x726FDB47DD0E0E31

/-- 41_range_mapper R231 as the MAP command gives it (R235, 10_state R56): an idle core accepts MAP, and its next step
completes it with RESULT0 = floor(h × F / 2^64), for every h and F and whatever CFG holds. That the completion is the very
next core step is the model's choice (log entry 19). -/
def Obligations.MapCommandResult : Prop :=
  ∀ (s : State) (pick : Nat), s.running = none →
    ∃ t, exec .map s = .next t ∧ t = acceptance .map s ∧
      ∃ u, coreStep pick t = u ∧ u = { completed t with result0 := u.result0 } ∧
        u.result0.toNat = s.regs.argH.toNat * s.regs.argF.toNat / 2 ^ 64

/-- 41_range_mapper R232: Map stays below F, is 0 for F = 0, is non-decreasing in h; and no candidate is mapped when N = 0. -/
def Obligations.RangeMapStaysInRange : Prop :=
  (∀ h f, h < 2 ^ 64 → 1 ≤ f → rangeMap h f ≤ f - 1) ∧ (∀ h, rangeMap h 0 = 0) ∧
  (∀ h h' f, h ≤ h' → rangeMap h f ≤ rangeMap h' f) ∧
  (∀ k0 k1 b m p items, (grDecode b m p).n = some 0 → (decodeAndMatch k0 k1 b m p items).cv = [])

/-- 41_range_mapper R233: with N ≤ 4096 and M ≤ 2^20, F is at most 2^32 and every candidate value is less than 2^32; when F
is less than 65536, so is every candidate value. -/
def Obligations.CandidatesFitTheirStorage : Prop :=
  ∀ (n m : Nat) (k0 k1 : Word) (item : List Byte), n ≤ 4096 → m ≤ 2 ^ 20 →
    n * m ≤ 2 ^ 32 ∧ candidate k0 k1 (n * m) item < 2 ^ 32 ∧
    (n * m < 65536 → candidate k0 k1 (n * m) item < 65536)

/-! ## The decoder -/

/-- 30_encoding R162, R171: the parser accepts N ≤ 4096 exactly behind its canonical prefix: one byte for N < 253, FD lo hi
for 253 ≤ N ≤ 4096. Every other buffer is rejected with the code and the N of the rule: an empty buffer and a prefix longer
than the buffer are TRUNCATED with no N, a count below the least its prefix may hold is NONCANONICAL_COUNT with that count,
and any other above 4096 is CAPACITY_EXCEEDED with it. -/
def Obligations.PrefixAcceptsExactlyTheCanonicalForm : Prop :=
  (∀ (b : List Byte) (n plen : Nat), parsePrefix b = .ok n plen ↔
    (n ≤ 4096 ∧ plen = (canonicalPrefix n).length ∧ ∃ rest, b = canonicalPrefix n ++ rest)) ∧
  parsePrefix [] = .bad .truncated none ∧
  ∀ (b0 : Byte) (rest : List Byte) (w lo : Nat),
    (b0.toNat, w, lo) ∈ [(0xFD, 2, 0xFD), (0xFE, 4, 0x10000), (0xFF, 8, 0x100000000)] →
    (rest.length < w → parsePrefix (b0 :: rest) = .bad .truncated none) ∧
    (w ≤ rest.length → fieldAt rest 0 w < lo →
      parsePrefix (b0 :: rest) = .bad .noncanonicalCount (some (fieldAt rest 0 w))) ∧
    (w ≤ rest.length → lo ≤ fieldAt rest 0 w → 4096 < fieldAt rest 0 w →
      parsePrefix (b0 :: rest) = .bad .capacityExceeded (some (fieldAt rest 0 w)))

/-- 42_golomb_rice R271: what a successful decode gives. -/
def Obligations.SuccessfulDecodeProperties : Prop :=
  ∀ (b : List Byte) (m p n plen : Nat), parsePrefix b = .ok n plen → (grDecode b m p).code = none →
    (grDecode b m p).out.length = n ∧ n ≤ 4096 ∧ (grDecode b m p).out.Pairwise (· ≤ ·) ∧
    (∀ v ∈ (grDecode b m p).out, v < n * m) ∧
    (grDecode b m p).pos = 8 * plen + ((deltas 0 (grDecode b m p).out).map fun d => d / 2 ^ p + 1 + p).sum ∧
    (grDecode b m p).pos ≤ 8 * b.length ∧ 8 * b.length < (grDecode b m p).pos + 8

/-- 30_encoding R160, R163, R164 read back: decoding the canonical encoding of a sorted sequence of values below F gives
that sequence, for every P and whatever fills the last byte. -/
def Obligations.CanonicalFilterDecodesToItsValues : Prop :=
  ∀ (m p : Nat) (vs : List Nat) (rest : List Byte) (pad : List Bool),
    vs.length ≤ 4096 → vs.Pairwise (· ≤ ·) → (∀ v ∈ vs, v < vs.length * m) →
    bitsOf rest = streamBits p vs ++ pad → pad.length < 8 →
    (grDecode (canonicalPrefix vs.length ++ rest) m p).code = none ∧
    (grDecode (canonicalPrefix vs.length ++ rest) m p).n = some vs.length ∧
    (grDecode (canonicalPrefix vs.length ++ rest) m p).out = vs ∧
    (grDecode (canonicalPrefix vs.length ++ rest) m p).w16 = decide (vs.length * m < 65536)

/-- 42_golomb_rice R272: a filter that decodes, cut short by one byte or more, is TRUNCATED. -/
def Obligations.CutFilterIsTruncated : Prop :=
  ∀ (b : List Byte) (m p k : Nat), (grDecode b m p).code = none → 1 ≤ k → k ≤ b.length →
    (grDecode (b.take (b.length - k)) m p).code = some .truncated

/-- 42_golomb_rice R269: after the Nth code, fewer than 8 unread bits are ignored and 8 or more raise COUNT_MISMATCH; for
N = 0 that is exactly when a byte follows the prefix. -/
def Obligations.WholeUnreadByteIsCountMismatch : Prop :=
  (∀ (b : List Byte) (m p n plen : Nat), parsePrefix b = .ok n plen →
    (decodeCodes (n * m) p n 0 (bitsOf (b.drop plen))).code = none →
    ((decodeCodes (n * m) p n 0 (bitsOf (b.drop plen))).rest.length < 8 → (grDecode b m p).code = none) ∧
    (8 ≤ (decodeCodes (n * m) p n 0 (bitsOf (b.drop plen))).rest.length →
      (grDecode b m p).code = some .countMismatch)) ∧
  (∀ (b : List Byte) (m p plen : Nat), parsePrefix b = .ok 0 plen →
    ((grDecode b m p).code = some .countMismatch ↔ plen < b.length))

/-- 42_golomb_rice R264: the decoder never reads more than ceil(F / 2^P) + P + 1 bits for one code, whether it decodes or
fails. -/
def Obligations.OneCodeReadsBoundedBits : Prop :=
  ∀ (f p : Nat) (bs : List Bool), 1 ≤ f →
    (∀ d rest, oneCode f p bs = .ok (d, rest) → bs.length ≤ rest.length + ((f + 2 ^ p - 1) / 2 ^ p + p + 1)) ∧
    (∀ c rest, oneCode f p bs = .error (c, rest) → bs.length ≤ rest.length + ((f + 2 ^ p - 1) / 2 ^ p + p + 1))

/-- 42_golomb_rice R262 to R264, R268 to R270: what GRDecode reports when it fails. A rejected prefix gives its own code and
N, no value and W16 = 0. Behind an accepted prefix N and W16 are given whatever the outcome, and the output holds the values
of the codes that decode, in order, and no other: after vs fewer than N of them, a next code the buffer ends in is TRUNCATED,
one whose unary run reaches F / 2^P is OVERLONG_QUOTIENT, one whose value is F or more is VALUE_RANGE; after all N, a whole
unread byte is COUNT_MISMATCH. In each case vs are the values given. -/
def Obligations.FailedDecodeReportsItsFirstError : Prop :=
  (∀ (b : List Byte) (m p : Nat) (c : ResultCode) (n : Option Nat), parsePrefix b = .bad c n →
    (grDecode b m p).code = some c ∧ (grDecode b m p).n = n ∧ (grDecode b m p).out = [] ∧
      (grDecode b m p).w16 = false) ∧
  (∀ (b : List Byte) (m p n plen : Nat), parsePrefix b = .ok n plen →
    (grDecode b m p).n = some n ∧ (grDecode b m p).w16 = decide (n * m < 65536) ∧ (grDecode b m p).out.length ≤ n ∧
    (grDecode b m p).out.Pairwise (· ≤ ·) ∧ (∀ v ∈ (grDecode b m p).out, v < n * m) ∧
    ∃ tail, bitsOf (b.drop plen) = streamBits p (grDecode b m p).out ++ tail) ∧
  ∀ (b : List Byte) (m p n plen : Nat) (vs : List Nat) (tail : List Bool), parsePrefix b = .ok n plen →
    bitsOf (b.drop plen) = streamBits p vs ++ tail → vs.Pairwise (· ≤ ·) → (∀ v ∈ vs, v < n * m) →
    (vs.length < n →
      (∀ q, q = 0 ∨ q * 2 ^ p < n * m →
        (tail = List.replicate q true ∨ ∃ low, low.length < p ∧ tail = List.replicate q true ++ false :: low) →
        (grDecode b m p).code = some .truncated ∧ (grDecode b m p).out = vs) ∧
      (∀ q rest, 1 ≤ q → n * m ≤ q * 2 ^ p → tail = List.replicate q true ++ rest →
        (grDecode b m p).code = some .overlongQuotient ∧ (grDecode b m p).out = vs) ∧
      (∀ d rest, d / 2 ^ p = 0 ∨ d / 2 ^ p * 2 ^ p < n * m → n * m ≤ vs.getLastD 0 + d → tail = codeBits p d ++ rest →
        (grDecode b m p).code = some .valueRange ∧ (grDecode b m p).out = vs)) ∧
    (vs.length = n → 8 ≤ tail.length →
      (grDecode b m p).code = some .countMismatch ∧ (grDecode b m p).out = vs)

/-- 42_golomb_rice R280, R281: in every schedule of its steps an undisturbed DECODE whose output words can be written
completes; RESULT0 and RESULT1 are as the rule says, value i stands at DST_ADDR + 4i, and no other byte changes. How many
core steps a DECODE takes is the model's choice (log entry 19). -/
def Obligations.DecodeCommandResult : Prop :=
  ∀ (s : State) (picks : List Nat), s.running = none → s.mem.wf → legalM s → s.regs.dstAddr.toNat % 4 = 0 →
    undisturbed .decode s →
    (∀ i < (decodeEval s.platform s.mem s.regs).fv.length, accessible s.platform (s.regs.dstAddr.toNat + 4 * i) 4) →
    (decodeEval s.platform s.mem s.regs).fv.length + 2 ≤ picks.length →
    ∃ t, exec .decode s = .next t ∧ t = acceptance .decode s ∧
      ∃ u, coreSteps picks t = u ∧
        u = { completed t with
              mem := u.mem
              result0 := (decodeEval s.platform s.mem s.regs).word.setWidth 64
              result1 := BitVec.ofNat 64 (decodeEval s.platform s.mem s.regs).fv.length } ∧
        (∀ (i : Nat) (h : i < (decodeEval s.platform s.mem s.regs).fv.length),
          holdsWord u.mem (s.regs.dstAddr.toNat + 4 * i)
            (BitVec.ofNat 32 ((decodeEval s.platform s.mem s.regs).fv[i]'h))) ∧
        (∀ a, (a < s.regs.dstAddr.toNat ∨
            s.regs.dstAddr.toNat + 4 * (decodeEval s.platform s.mem s.regs).fv.length ≤ a) →
          u.mem.read a = s.mem.read a)

/-- 42_golomb_rice R280, 30_encoding R170, R171: what a DECODE reports: BUS_ERROR where the filter cannot be read, otherwise
the outcome of GRDecode with M = CFG.M and P = CFG.P, code 0x00 standing for "decoded". -/
def Obligations.DecodeReportsItsDecoding : Prop :=
  ∀ (p : Platform) (m : Memory) (o : Operands),
    (o.srcLen ≠ 0 → ¬accessible p o.srcAddr.toNat o.srcLen.toNat →
      (decodeEval p m o).word = 0x32 ∧ (decodeEval p m o).fv = []) ∧
    (o.srcLen = 0 ∨ accessible p o.srcAddr.toNat o.srcLen.toNat →
      ∀ d, d = grDecode (m.readBytes o.srcAddr.toNat o.srcLen.toNat) o.cfg.m.toNat o.cfg.p.toNat →
        (decodeEval p m o).fv = d.out ∧
        (d.code = none → (decodeEval p m o).word.toNat
          = 0x00 + 256 * (if d.w16 then 1 else 0) + 65536 * min (d.n.getD 0) 0xFFFF) ∧
        (∀ c, d.code = some c → (decodeEval p m o).word.toNat = resultNumber c d.n d.w16))

/-- 42_golomb_rice R281, 60_exceptions R410: writing DECODE value i: the four bytes or, on a BusError, BUSERR and each byte
old or new; the value counts as dealt with and the DECODE goes on in every case; nothing else of the machine changes. Of a
disturbed DECODE any value is written, or none, and BUSERR is set only by a write that is made and fails: the model's choice
(log entry 7). A word under a breach of the cache duties is written as any other, with any value (20_memory R118). -/
def Obligations.ValueWriteGoesOnEitherWay : Prop :=
  ∀ (s t : State) (r : Running) (e : Evaluated) (i addr : Nat), s.mem.wf → addr = r.latched.dstAddr.toNat + 4 * i →
    t = writeValue r e i s →
    (t = { s with running := some { r with written := insertAsc i r.written }, mem := t.mem, drawn := t.drawn,
                  status := { s.status with busErr := t.status.busErr } } ∧
      (∀ a, (a < addr ∨ addr + 4 ≤ a) → t.mem.read a = s.mem.read a) ∧
      (accessible s.platform addr 4 → t.status = s.status)) ∧
    (∀ x, ¬Disturbed s.platform r 0 → ¬UnderBreach r addr → e.fv[i]? = some x →
      (accessible s.platform addr 4 → holdsWord t.mem addr (BitVec.ofNat 32 x) ∧ t.drawn = s.drawn) ∧
      (¬accessible s.platform addr 4 → t.status.busErr = true ∧
        ∀ k < 4, t.mem.read (addr + k) = s.mem.read (addr + k) ∨
          t.mem.read (addr + k) = (BitVec.ofNat 32 x : Word32).extractLsb' (8 * k) 8)) ∧
    (¬Disturbed s.platform r 0 → UnderBreach r addr →
      (accessible s.platform addr 4 → holdsWord t.mem addr ((Config.free s.drawn).setWidth 32)) ∧
      (¬accessible s.platform addr 4 → t.status.busErr = true)) ∧
    (Disturbed s.platform r 0 →
      (accessible s.platform addr 4 →
        t.mem = s.mem ∨ holdsWord t.mem addr ((Config.free s.drawn).setWidth 32)) ∧
      (¬accessible s.platform addr 4 → (t.mem = s.mem ∧ t.status = s.status) ∨ t.status.busErr = true))

/-! ## The matcher -/

/-- 43_matcher R308: on two non-decreasing sequences the merge reports a match exactly when they have a common value. -/
def Obligations.MergeFindsExactlyTheCommonValues : Prop :=
  ∀ out cv : List Nat, out.Pairwise (· ≤ ·) → cv.Pairwise (· ≤ ·) →
    (merge out cv = true ↔ ∃ v, v ∈ out ∧ v ∈ cv)

/-- 43_matcher R304, R306: a job whose decode succeeded with N ≥ 1 is MATCH if some decoded value equals a candidate value,
and NOMATCH otherwise; with N = 0 it is NOMATCH whatever the items; and the count it gives is the N of the filter. -/
def Obligations.JobMatchesExactlyOnACommonValue : Prop :=
  ∀ (k0 k1 : Word) (b : List Byte) (m p n : Nat) (items : List (List Byte)),
    (grDecode b m p).code = none → (grDecode b m p).n = some n →
    (1 ≤ n → (∃ v ∈ (grDecode b m p).out, ∃ item ∈ items, v = rangeMap (sipHash24 k0 k1 item).toNat (n * m)) →
      (decodeAndMatch k0 k1 b m p items).word.toNat = resultNumber .isMatch (some n) (grDecode b m p).w16) ∧
    (1 ≤ n → ¬(∃ v ∈ (grDecode b m p).out, ∃ item ∈ items, v = rangeMap (sipHash24 k0 k1 item).toNat (n * m)) →
      (decodeAndMatch k0 k1 b m p items).word.toNat = resultNumber .noMatch (some n) (grDecode b m p).w16) ∧
    (n = 0 → (decodeAndMatch k0 k1 b m p items).word = 0x00000100) ∧
    (decodeAndMatch k0 k1 b m p items).n = some n

/-- 43_matcher R320, 10_state R49: an idle core with a legal CFG.M and an aligned WATCH_ADDR accepts MATCH, and two steps
complete it: RESULT0 is RunJob's result word, RESULT1 the count N or 0, and memory is unchanged. That it takes two steps is
the model's choice (log entry 19). -/
def Obligations.MatchCommandResult : Prop :=
  ∀ (s : State) (pick pick' : Nat), s.running = none → legalM s → s.regs.watchAddr.toNat % 8 = 0 →
    undisturbed .matchFilter s →
    ∃ t, exec .matchFilter s = .next t ∧ t = acceptance .matchFilter s ∧
      ∀ e, e = runJob s.platform s.mem s.regs
          { k0 := s.regs.key0, k1 := s.regs.key1, fa := s.regs.srcAddr.toNat, lb := s.regs.srcLen.toNat,
            wa := s.regs.watchAddr.toNat, w := s.regs.watchCount.toNat } →
        coreStep pick' (coreStep pick t) =
          { completed t with result0 := e.word.setWidth 64, result1 := BitVec.ofNat 64 (e.n.getD 0) }

/-- 60_exceptions R420: the priority of what a job reports, from the descriptor to the match. The first clause is a BATCH's
own: its descriptor (44_batch R345); the second is RunJob (43_matcher R310), which a MATCH runs on its registers' job and a
BATCH on the descriptor's. With each goes the count N where the prefix yielded one, and none where it did not, which is what a
MATCH's RESULT1 shows (10_state R49). -/
def Obligations.JobReportsItsFirstError : Prop :=
  (∀ (p : Platform) (m : Memory) (o : Operands) (j : Nat),
    (memRead p m (o.jobAddr.toNat + 64 * j) 64 = none →
      (batchJob p m o j).word.toNat = resultNumber .busError none false ∧ (batchJob p m o j).n = none) ∧
    ∀ d, memRead p m (o.jobAddr.toNat + 64 * j) 64 = some d →
      (¬jobLegal d →
        (batchJob p m o j).word.toNat = resultNumber .descriptorError none false ∧ (batchJob p m o j).n = none) ∧
      (jobLegal d → batchJob p m o j = runJob p m o (jobOf d))) ∧
  ∀ (p : Platform) (m : Memory) (o : Operands) (a : JobArgs),
    (p.candCap < a.w →
      (runJob p m o a).word.toNat = resultNumber .candidateOverflow none false ∧ (runJob p m o a).n = none) ∧
    (a.w ≤ p.candCap →
      (memRead p m a.fa a.lb = none ∨ memRead p m a.wa (16 * a.w) = none →
        (runJob p m o a).word.toNat = resultNumber .busError none false ∧ (runJob p m o a).n = none) ∧
      ∀ b t, memRead p m a.fa a.lb = some b → memRead p m a.wa (16 * a.w) = some t →
        ((∃ i < a.w, fieldAt t (16 * i + 12) 4 ≠ 0) →
          (runJob p m o a).word.toNat = resultNumber .descriptorError none false ∧ (runJob p m o a).n = none) ∧
        ((∀ i < a.w, fieldAt t (16 * i + 12) 4 = 0) →
          ((∃ i < a.w, memRead p m (fieldAt t (16 * i) 8) (fieldAt t (16 * i + 8) 4) = none) →
            (runJob p m o a).word.toNat = resultNumber .busError none false ∧ (runJob p m o a).n = none) ∧
          ∀ (items : List (List Byte)) (d : Decoded), items.length = a.w →
            (∀ (i : Nat) (h : i < items.length),
              memRead p m (fieldAt t (16 * i) 8) (fieldAt t (16 * i + 8) 4) = some (items[i]'h)) →
            d = grDecode b o.cfg.m.toNat o.cfg.p.toNat →
            (∀ c, d.code = some c →
              (runJob p m o a).word.toNat = resultNumber c d.n d.w16 ∧ (runJob p m o a).n = d.n) ∧
            (d.code = none →
              runJob p m o a = decodeAndMatch a.k0 a.k1 b o.cfg.m.toNat o.cfg.p.toNat items)))

/-! ## The batch -/

/-- 44_batch R342: a BATCH with JOB_COUNT = 0 is accepted and completes in its next step with no memory access and
JOBS_DONE = 0. -/
def Obligations.EmptyBatchCompletesAtOnce : Prop :=
  ∀ (s : State) (pick : Nat), s.running = none → legalM s → s.regs.jobAddr.toNat % 8 = 0 →
    s.regs.resAddr.toNat % 4 = 0 → s.regs.jobCount = 0 →
    ∃ t, exec .batch s = .next t ∧ t = acceptance .batch s ∧ coreStep pick t = completed t ∧ t.jobsDone = 0

/-- 44_batch R340, R346, R361, R362: in every schedule of the dispatcher and the lanes an undisturbed BATCH whose result
slots can be written completes, with every slot j holding job j's own result, JOBS_DONE = J, and no other byte, operand or
result register changed. The three steps per job are the model's choice (log entries 1, 14, 18). -/
def Obligations.BatchGivesTheSameSlotsInEverySchedule : Prop :=
  ∀ (s : State) (picks : List Nat), s.running = none → s.mem.wf → s.platform.wellFormed = true → legalM s →
    s.regs.jobAddr.toNat % 8 = 0 → s.regs.resAddr.toNat % 4 = 0 → undisturbed .batch s →
    (∀ j < s.regs.jobCount.toNat, accessible s.platform (s.regs.resAddr.toNat + 4 * j) 4) →
    3 * s.regs.jobCount.toNat + 1 ≤ picks.length →
    ∃ t, exec .batch s = .next t ∧ t = acceptance .batch s ∧
      ∃ u, coreSteps picks t = u ∧ u = { completed t with mem := u.mem, jobsDone := s.regs.jobCount } ∧
        (∀ j < s.regs.jobCount.toNat,
          holdsWord u.mem (s.regs.resAddr.toNat + 4 * j) (batchJob s.platform s.mem s.regs j).word) ∧
        (∀ a, (a < s.regs.resAddr.toNat ∨ s.regs.resAddr.toNat + 4 * s.regs.jobCount.toNat ≤ a) →
          u.mem.read a = s.mem.read a)

/-- 44_batch R371: a batch that an ABORT stops, at any moment and in any schedule, ends with DONE and ABORTED; every slot
holds its old content or its own job's result, and JOBS_DONE is the number of slots written. The steps are the model's
choice (log entries 1, 14, 15). -/
def Obligations.AbortedBatchLeavesOldOrOwnResults : Prop :=
  ∀ (s : State) (picks picks' : List Nat), s.running = none → s.mem.wf → s.platform.wellFormed = true → legalM s →
    s.regs.jobAddr.toNat % 8 = 0 → s.regs.resAddr.toNat % 4 = 0 → undisturbed .batch s →
    (∀ j < s.regs.jobCount.toNat, accessible s.platform (s.regs.resAddr.toNat + 4 * j) 4) →
    (coreSteps picks (acceptance .batch s)).running.isSome = true →
    3 * s.regs.jobCount.toNat + 1 ≤ picks'.length →
    ∃ t, exec .abort (coreSteps picks (acceptance .batch s)) = .next t ∧
      ∃ (u : State) (written : List Nat), coreSteps picks' t = u ∧ u.running = none ∧ u.status.done = true ∧ u.status.aborted = true ∧
        written.Nodup ∧ (∀ j ∈ written, j < s.regs.jobCount.toNat) ∧ u.jobsDone.toNat = written.length ∧
        (∀ j ∈ written,
          holdsWord u.mem (s.regs.resAddr.toNat + 4 * j) (batchJob s.platform s.mem s.regs j).word) ∧
        (∀ a, (∀ j ∈ written, a < s.regs.resAddr.toNat + 4 * j ∨ s.regs.resAddr.toNat + 4 * j + 4 ≤ a) →
          u.mem.read a = s.mem.read a)

/-- 44_batch R346: a job's result is a function of CFG, its own read set and BUS_OK over it; nothing else of memory, of the
other registers or of the platform (NLANES among them) can change it. -/
def Obligations.JobDependsOnItsReadSetOnly : Prop :=
  ∀ (p p' : Platform) (m m' : Memory) (o o' : Operands) (j : Nat),
    p'.candCap = p.candCap → o'.cfg = o.cfg → o'.jobAddr = o.jobAddr →
    (∀ g ∈ readSet p m .batch o j, ∀ a, g.1 ≤ a → a < g.1 + g.2 →
      m'.read a = m.read a ∧ busOk p' a = busOk p a) →
    batchJob p' m' o' j = batchJob p m o j

/-- 44_batch R360, 60_exceptions R410: a lane that has evaluated job j writes its slot: the four bytes or, on a BusError,
BUSERR and each byte old or new; the lane is free, done[j] is set and JOBS_DONE counts it in every case; nothing else of the
machine changes. The slot of a disturbed job, or one under a breach of the cache duties, is written once as any other, with
any value (20_memory R113, R114, R118; log entry 7). -/
def Obligations.SlotWriteCountsTheJobEitherWay : Prop :=
  ∀ (s t : State) (r : Running) (l : Lane) (e : Evaluated) (addr : Nat), s.mem.wf → (r.lanes.map Lane.job).Nodup →
    l ∈ r.lanes → l.eval = some e → addr = r.latched.resAddr.toNat + 4 * l.job → t = finishJob r l.job s →
    (t = { s with running := some { r with written := insertAsc l.job r.written,
                                           lanes := r.lanes.filter fun x => x.job != l.job }
                  jobsDone := s.jobsDone + 1, mem := t.mem, drawn := t.drawn
                  status := { s.status with busErr := t.status.busErr } } ∧
      (∀ a, (a < addr ∨ addr + 4 ≤ a) → t.mem.read a = s.mem.read a) ∧
      (accessible s.platform addr 4 → t.status = s.status) ∧
      (¬accessible s.platform addr 4 → t.status.busErr = true)) ∧
    (¬Disturbed s.platform r l.job → ¬UnderBreach r addr →
      (accessible s.platform addr 4 → holdsWord t.mem addr e.word ∧ t.drawn = s.drawn) ∧
      (¬accessible s.platform addr 4 →
        ∀ k < 4, t.mem.read (addr + k) = s.mem.read (addr + k) ∨ t.mem.read (addr + k) = e.word.extractLsb' (8 * k) 8)) ∧
    (Disturbed s.platform r l.job ∨ UnderBreach r addr → accessible s.platform addr 4 →
      holdsWord t.mem addr ((Config.free s.drawn).setWidth 32))

/-! ## The running command as a whole -/

/-- 20_memory R110, 10_state R49, R51: the frame of every core step: the core writes memory only in the output region of
DECODE or BATCH, no operand register ever, RESULT0, RESULT1, DONE and ABORTED only in the step that completes the command,
JOBS_DONE only in a BATCH, ERR only in a HASH, ABORTED only in a BATCH. -/
def Obligations.CoreStepFrame : Prop :=
  ∀ (s : State) (pick : Nat), Inv s →
    SameOutside s (coreStep pick s) ∧
    (s.running = none → coreStep pick s = s) ∧
    ((coreStep pick s).running.isSome = true →
      (coreStep pick s).result0 = s.result0 ∧ (coreStep pick s).result1 = s.result1 ∧
      (coreStep pick s).status.done = s.status.done ∧ (coreStep pick s).status.aborted = s.status.aborted) ∧
    (∀ r, s.running = some r →
      (∀ a, (∀ k w, OutputWordAt r k w → a < w ∨ w + 4 ≤ a) → (coreStep pick s).mem.read a = s.mem.read a) ∧
      (r.op ≠ .batch → (coreStep pick s).jobsDone = s.jobsDone ∧ (coreStep pick s).status.aborted = s.status.aborted) ∧
      (r.op ≠ .hash → (coreStep pick s).status.err = s.status.err ∧
        (coreStep pick s).status.errCode = s.status.errCode) ∧
      (r.op = .hash ∨ r.op = .map ∨ r.op = .matchFilter →
        (coreStep pick s).mem = s.mem ∧ (coreStep pick s).status.busErr = s.status.busErr) ∧
      (r.op = .hash ∨ r.op = .map ∨ r.op = .batch → (coreStep pick s).result1 = s.result1) ∧
      (r.op = .batch → (coreStep pick s).result0 = s.result0) ∧
      (coreStep pick s).status.lastOp = s.status.lastOp)

/-- 44_batch R383: where memory answers, every running command completes within a number of its steps fixed at acceptance,
in every schedule. The number itself is the model's (log entries 14 and 19). -/
def Obligations.EveryRunningCommandCompletes : Prop :=
  ∀ (s : State) (r : Running) (picks : List Nat), Inv s → s.running = some r → r.hung = [] →
    3 * jobCount r + 4099 ≤ picks.length → (coreSteps picks s).running = none

/-- 93 I9: the machine stops with a fault only when a command runs, the host waits or has nothing more to do, and some access
the command needs is never answered; a command with no access to come cannot be stopped so (44_batch R383): a MAP, a HASH or
DECODE of no bytes, a MATCH with too many items or with neither filter nor items. `hung` is the model's record of such
accesses (log entry 16). -/
def Obligations.MachineStopsOnlyWhenMemoryNeverAnswers : Prop :=
  (∀ (s : State) (f : Fault), Inv s → step s = .fault f →
    ∃ r, s.running = some r ∧ r.hung ≠ [] ∧ (s.agenda = [] ∨ ∃ es, s.agenda = Event.wait :: es)) ∧
  ∀ (s : State) (r : Running) (j : Nat), s.running = some r →
    r.op = .map ∨ (r.op = .hash ∧ r.latched.srcLen = 0) ∨ (r.op = .decode ∧ r.latched.srcLen = 0 ∧ r.eval = none) ∨
      (r.op = .matchFilter ∧ (s.platform.candCap < r.latched.watchCount.toNat ∨
        (r.latched.srcLen = 0 ∧ r.latched.watchCount = 0))) →
    happen (.memHang j) s = .next s

/-- 20_memory R113 item 3, R114: a host write marks exactly the jobs whose read set it touches, and what they have written
becomes any value; a disturbed HASH, MATCH or DECODE neither sticks nor errs: it completes with any value in its results, a
result word being zero-extended (10_state R49). The marks and the free values are the model's form of "any value" (log
entries 3 and 7); nothing is said of what they are. -/
def Obligations.RaceGivesAnyResultAndNoError : Prop :=
  (∀ (s : State) (r : Running) (addr : Nat) (bs : List Byte), s.running = some r →
    ∃ r', (hostMemWrite addr bs s).running = some r' ∧ r' = { r with raced := r'.raced } ∧
      ∀ j, j ∈ r'.raced ↔ j < jobsOf r.op r.latched ∧
        (j ∈ r.raced ∨ ∃ g ∈ readSet s.platform r.before r.op r.latched j, ∃ a,
          (addr ≤ a ∧ a < addr + bs.length) ∧ (g.1 ≤ a ∧ a < g.1 + g.2))) ∧
  (∀ (s : State) (r : Running) (addr : Nat) (bs : List Byte) (k w : Nat), Inv s → s.running = some r → k ∈ r.written →
    OutputWordAt r k w → w + 4 ≤ 2 ^ 64 →
    (∃ g ∈ readSet s.platform r.before r.op r.latched (if r.op = .batch then k else 0), ∃ a,
      (addr ≤ a ∧ a < addr + bs.length) ∧ (g.1 ≤ a ∧ a < g.1 + g.2)) →
    ∃ n, s.drawn ≤ n ∧ ∀ i < 4, (w + i < addr ∨ addr + bs.length ≤ w + i) →
      (hostMemWrite addr bs s).mem.read (w + i) = ((Config.free n).setWidth 32).extractLsb' (8 * i) 8) ∧
  (∀ (s : State) (r : Running) (pick : Nat), s.running = some r → r.op = .hash → r.hung = [] → Disturbed s.platform r 0 →
    (r.latched.srcLen = 0 ∨ accessible s.platform r.latched.srcAddr.toNat r.latched.srcLen.toNat) →
    coreStep pick s = { completed s with result0 := Config.free s.drawn, drawn := s.drawn + 1 }) ∧
  (∀ (s : State) (r : Running) (e : Evaluated) (pick : Nat), s.running = some r → r.hung = [] → r.eval = some e →
    Disturbed s.platform r 0 → r.op = .matchFilter ∨ (r.op = .decode ∧ ∀ i < 4096, i ∈ r.written) →
    coreStep pick s = { completed s with result0 := ((Config.free s.drawn).setWidth 32).setWidth 64,
                                         result1 := Config.free (s.drawn + 1), drawn := s.drawn + 2 })

/-- 20_memory R109, R113 item 5: while an undisturbed command runs, a host read of an output word that can be written, and
that memory holds old or new, returns all old or all new bytes, never a mix (log entry 11). A read event of the host answers
these bytes, all of them at one moment, and changes nothing but the model's records of what the host saw and of the free
values drawn (log entries 3 and 21); bytes and words under a breach of the cache duties are CacheBreachGivesAnyValue's. -/
def Obligations.HostReadsOldOrNewOutputWord : Prop :=
  (∀ (s : State) (r : Running) (k w : Nat) (v : Word32), s.running = some r →
    (∀ j < jobsOf r.op r.latched, ¬Disturbed s.platform r j) → ¬UnderBreach r w → WritesWord s.platform r k w v →
    accessible s.platform w 4 →
    (holdsWord s.mem w v ∨ ∀ i < 4, s.mem.read (w + i) = r.before.read (w + i)) →
    (∀ i < 4, hostByte s (w + i) = v.extractLsb' (8 * i) 8) ∨
    (∀ i < 4, hostByte s (w + i) = r.before.read (w + i))) ∧
  ∀ (s : State) (addr n : Nat), ∃ (t : State) (bs : List Byte),
    happen (.memRead addr n) s = .next t ∧ t = hostMemRead addr n s ∧ bs.length = n ∧
    (∀ i < n, ¬Stale s (addr + i) → bs.getD i 0 = hostByte s (addr + i)) ∧
    t = { s with observed := s.observed ++ [.mem addr bs], drawn := t.drawn } ∧ s.drawn ≤ t.drawn

/-! ## Memory -/

/-- 20_memory R105, R106, R107, 60_exceptions R410: MemRead gives no bytes for n = 0, BusError where a byte is past 2^64 - 1
or rejected, and otherwise exactly the n bytes; MemWrite writes its word and no other byte, least significant byte first, or
is a BusError, which sets BUSERR and leaves each byte of the word old or new. -/
def Obligations.MemoryAccessesFollowTheBus : Prop :=
  (∀ (p : Platform) (m : Memory) (a n : Nat),
    (n = 0 → memRead p m a n = some []) ∧
    (n ≠ 0 → (2 ^ 64 < a + n ∨ ∃ i < n, busOk p (a + i) = false) → memRead p m a n = none) ∧
    (a + n ≤ 2 ^ 64 → (∀ i < n, busOk p (a + i) = true) →
      ∃ bs, memRead p m a n = some bs ∧ bs.length = n ∧ ∀ i < n, bs[i]? = some (m.read (a + i)))) ∧
  (∀ (s t : State) (a : Nat) (v : Word32), s.mem.wf → t = writeOutputWord a v s →
    (t = { s with mem := t.mem, status := t.status, drawn := t.drawn } ∧
      ∀ x, (x < a ∨ a + 4 ≤ x) → t.mem.read x = s.mem.read x) ∧
    ((2 ^ 64 < a + 4 ∨ ∃ i < 4, busOk s.platform (a + i) = false) →
      t.status = { s.status with busErr := true } ∧
      ∀ k < 4, t.mem.read (a + k) = s.mem.read (a + k) ∨ t.mem.read (a + k) = v.extractLsb' (8 * k) 8) ∧
    (a + 4 ≤ 2 ^ 64 → (∀ i < 4, busOk s.platform (a + i) = true) → holdsWord t.mem a v ∧ t.status = s.status))

/-- 20_memory R100, R104, 10_state R59: a host write puts exactly its bytes into memory, changes no register, and is what the
host then reads while no command runs and no breach of the cache duties stands; the one other thing it may change is an
output word already written by a job whose read set it touches (20_memory R113 item 3). That bytes past 2^64 - 1 are written
nowhere and do not wrap is the model's choice (log entry 25), and so is that the bytes stand where the host writes an output
word of the running command (log entry 28). -/
def Obligations.HostMemoryWriteIsExact : Prop :=
  ∀ (s t : State) (addr : Nat) (bs : List Byte), Inv s → t = hostMemWrite addr bs s →
    happen (.memWrite addr bs) s = .next t ∧
    (t.mem.wf ∧ (∀ a, addr ≤ a → a < addr + bs.length → a < 2 ^ 64 → t.mem.read a = bs.getD (a - addr) 0) ∧
      ∀ a, (a < addr ∨ addr + bs.length ≤ a ∨ 2 ^ 64 ≤ a) →
        (∀ r k w, s.running = some r → k ∈ r.written → OutputWordAt r k w → w ≤ a → a < w + 4 →
          ∀ g ∈ readSet s.platform r.before r.op r.latched (if r.op = .batch then k else 0), ∀ x,
            ¬((addr ≤ x ∧ x < addr + bs.length) ∧ (g.1 ≤ x ∧ x < g.1 + g.2))) →
        t.mem.read a = s.mem.read a) ∧
    t = { s with mem := t.mem, running := t.running, drawn := t.drawn } ∧
    (s.running = none → t.running = none ∧ t.drawn = s.drawn ∧ ∀ a, hostByte t a = t.mem.read a)

/-- 20_memory R118, 93 I10: with COHERENT = 1 there are no cache duties and nothing is under a breach. With COHERENT = 0 a
breach over some bytes stands until the host synchronises them: a running command meets it, and so does every command
accepted meanwhile, and the outputs it reaches are any value (Disturbed, UnderBreach: RaceGivesAnyResultAndNoError,
ValueWriteGoesOnEitherWay, SlotWriteCountsTheJobEitherWay say what becomes of them); the output words already written that
it reaches are any value at once, and no other byte changes; the host reads any value where it stands; and what is left in memory there is any value.
The two events and the free values are the model's form of the rule (log entries 3 and 20). -/
def Obligations.CacheBreachGivesAnyValue : Prop :=
  (∀ (s : State) (addr n : Nat), s.platform.coherent = true →
    happen (.cacheBreach addr n) s = .next s ∧ happen (.cacheSync addr n) s = .next s ∧
    (Inv s → (∀ a, ¬Stale s a) ∧ ∀ r, s.running = some r → ∀ w, ¬UnderBreach r w)) ∧
  (∀ (s : State) (addr n : Nat), s.platform.coherent = false → Inv s →
    ∃ t, happen (.cacheBreach addr n) s = .next t ∧ (∀ a, Stale t a ↔ Stale s a ∨ (addr ≤ a ∧ a < addr + n)) ∧
      t = { s with mem := t.mem, running := t.running, drawn := t.drawn, stale := t.stale } ∧
      (s.running = none → t.running = none ∧ t.mem = s.mem) ∧
      ∀ r, s.running = some r → t.running = some { r with stale := r.stale ++ [(addr, n)] } ∧
        (∀ a, (∀ k ∈ r.written, ∀ w, OutputWordAt r k w → BreachReaches s.platform (addr, n) r k w → a < w ∨ w + 4 ≤ a) →
          t.mem.read a = s.mem.read a) ∧
        (∀ k ∈ r.written, ∀ w, OutputWordAt r k w → w + 4 ≤ 2 ^ 64 → BreachReaches s.platform (addr, n) r k w →
          ∃ m, s.drawn ≤ m ∧ holdsWord t.mem w ((Config.free m).setWidth 32))) ∧
  (∀ (s : State) (op : Op) (t : State), exec (instrOf op) s = .next t → s.running = none → ∀ r, t.running = some r →
    r.stale = s.stale ∧ t.stale = s.stale) ∧
  (∀ (s : State) (addr n i : Nat), i < n → Stale s (addr + i) →
    ∃ m bs, s.drawn ≤ m ∧ (hostMemRead addr n s).observed = s.observed ++ [.mem addr bs] ∧
      bs.getD i 0 = (Config.free m).setWidth 8) ∧
  ∀ (s : State) (addr n : Nat), s.platform.coherent = false → s.mem.wf →
    ∃ t, happen (.cacheSync addr n) s = .next t ∧ t = { s with mem := t.mem, drawn := t.drawn, stale := t.stale } ∧
      (∀ a, Stale t a ↔ Stale s a ∧ (a < addr ∨ addr + n ≤ a)) ∧
      (∀ a, (¬Stale s a ∨ a < addr ∨ addr + n ≤ a) → t.mem.read a = s.mem.read a) ∧
      ∀ a, Stale s a → addr ≤ a → a < addr + n → a < 2 ^ 64 →
        ∃ m, s.drawn ≤ m ∧ t.mem.read a = (Config.free m).setWidth 8

/-! ## Registers, status and interrupt -/

/-- 10_state R37: a write to STATUS clears the W1C bits it carries, ERRCODE with ERR, and nothing else; it never sets a
bit. -/
def Obligations.StatusWriteClearsWhatItCarries : Prop :=
  ∀ (s : State) (v : Word), s.resetIn = false →
    ∃ t, hostRegWrite 0x018 8 v s = .next t ∧ t = { s with status := t.status } ∧
      t.status.done = (if v.getLsbD 1 then false else s.status.done) ∧
      t.status.err = (if v.getLsbD 2 then false else s.status.err) ∧
      t.status.aborted = (if v.getLsbD 3 then false else s.status.aborted) ∧
      t.status.busErr = (if v.getLsbD 4 then false else s.status.busErr) ∧
      t.status.errCode = (if v.getLsbD 2 then none else s.status.errCode) ∧ t.status.lastOp = s.status.lastOp

/-- 10_state R36, 30_encoding R172: where each field of STATUS stands in the word the host reads, and the numbers ERRCODE and
LAST_OP hold. -/
def Obligations.StatusReadsItsFields : Prop :=
  ∀ s : State, s.resetIn = false →
    (readReg 0x018 s).getLsbD 0 = s.running.isSome ∧ (readReg 0x018 s).getLsbD 1 = s.status.done ∧
    (readReg 0x018 s).getLsbD 2 = s.status.err ∧ (readReg 0x018 s).getLsbD 3 = s.status.aborted ∧
    (readReg 0x018 s).getLsbD 4 = s.status.busErr ∧ (readReg 0x018 s).extractLsb' 5 3 = 0 ∧
    ((readReg 0x018 s).extractLsb' 8 8).toNat = errValue s.status.errCode ∧
    ((readReg 0x018 s).extractLsb' 16 8).toNat = opcodeValue s.status.lastOp ∧ (readReg 0x018 s).extractLsb' 24 40 = 0

/-- 10_state R40: a write to CFG stores M and P exactly as written, illegal M included, drops the reserved bits, and
changes nothing else; CFG then reads back those bits. -/
def Obligations.CfgStoresItsFieldsAsWritten : Prop :=
  ∀ (s : State) (v : Word), s.resetIn = false →
    ∃ t, hostRegWrite 0x028 8 v s = .next t ∧ t.regs.cfg.m.toNat = v.toNat % 2 ^ 21 ∧
      t.regs.cfg.p.toNat = v.toNat / 2 ^ 24 % 2 ^ 5 ∧ t = { s with regs := { s.regs with cfg := t.regs.cfg } } ∧
      (readReg 0x028 t).toNat = v.toNat % 2 ^ 21 + 2 ^ 24 * (v.toNat / 2 ^ 24 % 2 ^ 5)

/-- 70_reset_and_hazards R462, 10_state R47: an operand register may be written at any time; the register changes and reads
back, the running command and its latched operands do not. -/
def Obligations.OperandWriteLeavesTheRunningCommand : Prop :=
  ∀ (s : State) (offset : Nat) (v : Word), s.resetIn = false →
    offset ∈ [0x030, 0x038, 0x040, 0x048, 0x050, 0x058, 0x060, 0x068, 0x070, 0x078, 0x080, 0x088] →
    ∃ t, hostRegWrite offset 8 v s = .next t ∧ t = { s with regs := t.regs } ∧
      (readReg offset t).toNat = (if offset ∈ [0x048, 0x060, 0x080] then v.toNat % 2 ^ 32 else v.toNat) ∧
      ∀ other, other ≠ offset → readReg other t = readReg other s

/-- 10_state R32: reserved offsets read 0 and take no write, read-only registers take no write, CMD reads 0, and an access
of another width or offset is refused. That offsets of 4096 or more are refused too, and that the refusal holds while
RESET_IN is asserted, is the model's reading (log entry 17). -/
def Obligations.WindowAccessRules : Prop :=
  (∀ (s : State) (offset : Nat), 0x0A8 ≤ offset → offset < 4096 → offset % 8 = 0 →
    readReg offset s = 0 ∧ ∀ v, hostRegWrite offset 8 v s = .next s) ∧
  (∀ (s : State) (offset : Nat) (v : Word), offset ∈ [0x000, 0x008, 0x090, 0x098, 0x0A0] →
    hostRegWrite offset 8 v s = .next s) ∧
  (∀ s : State, readReg 0x020 s = 0) ∧
  (∀ (s : State) (offset width : Nat) (v : Word), width ≠ 8 ∨ offset % 8 ≠ 0 ∨ 4096 ≤ offset →
    hostRegWrite offset width v s = .refused (.registerAccess offset width) ∧
    hostRegRead offset width s = .refused (.registerAccess offset width))

/-- 10_state R31, R33 to R35, R40, R42 to R50: every register reads as the state it holds, the thirteen operand registers, the
results and JOBS_DONE among them (STATUS is StatusReadsItsFields, CMD and the reserved offsets WindowAccessRules); a write to
CTRL with SRST = 0 sets IRQ_EN to bit 0 and changes nothing else, and CTRL reads IRQ_EN alone. A defined host read of the
window answers that word, RESET_IN asserted or not, and changes nothing but the model's record of what the host saw (log
entry 21). -/
def Obligations.EveryRegisterReadsItsState : Prop :=
  (∀ (s : State) (offset : Nat), offset % 8 = 0 → offset < 4096 →
    hostRegRead offset 8 s = .next { s with observed := s.observed ++ [.reg offset (readReg offset s)] }) ∧
  ∀ s : State, s.resetIn = false →
    (readReg 0x000 s = 0x464C54524A450007 ∧ (s.platform.wellFormed = true →
      (readReg 0x008 s).toNat = s.platform.nlanes + 2 ^ 16 * s.platform.candCap + 2 ^ 32 * 0x1000) ∧
      (readReg 0x028 s).toNat = s.regs.cfg.m.toNat + 2 ^ 24 * s.regs.cfg.p.toNat) ∧
    (readReg 0x030 s = s.regs.key0 ∧ readReg 0x038 s = s.regs.key1 ∧ readReg 0x040 s = s.regs.srcAddr ∧
      (readReg 0x048 s).toNat = s.regs.srcLen.toNat ∧ readReg 0x050 s = s.regs.dstAddr ∧
      readReg 0x058 s = s.regs.watchAddr ∧ (readReg 0x060 s).toNat = s.regs.watchCount.toNat ∧
      readReg 0x068 s = s.regs.argH ∧ readReg 0x070 s = s.regs.argF ∧ readReg 0x078 s = s.regs.jobAddr ∧
      (readReg 0x080 s).toNat = s.regs.jobCount.toNat ∧ readReg 0x088 s = s.regs.resAddr) ∧
    (readReg 0x090 s = s.result0 ∧ readReg 0x098 s = s.result1 ∧ (readReg 0x0A0 s).toNat = s.jobsDone.toNat) ∧
    (readReg 0x010 s).toNat = (if s.irqEn then 1 else 0) ∧
    ∀ v : Word, v.getLsbD 1 = false → hostRegWrite 0x010 8 v s = .next { s with irqEn := v.getLsbD 0 }

/-- 20_memory R120, 60_exceptions R442, R430: the register window stands at REG_BASE on the host's bus, every other address
being memory's, and IRQ is the level of the line IRQ_LINE. An access that begins below REG_BASE and runs into the window is
refused, and the parameters are the model's fields (log entries 5 and 27). -/
def Obligations.WindowStandsAtRegBase : Prop :=
  (∀ (s : State) (addr width : Nat) (v : Word),
    (s.platform.regBase ≤ addr → addr < s.platform.regBase + 4096 → 0 < width →
      happen (.busWrite addr width v) s = hostRegWrite (addr - s.platform.regBase) width v s ∧
      happen (.busRead addr width) s = hostRegRead (addr - s.platform.regBase) width s) ∧
    (addr + width ≤ s.platform.regBase ∨ s.platform.regBase + 4096 ≤ addr →
      (∃ bs, bs.length = width ∧ (∀ i < width, bs.getD i 0 = BitVec.ofNat 8 (v.toNat / 2 ^ (8 * i))) ∧
        happen (.busWrite addr width v) s = .next (hostMemWrite addr bs s)) ∧
      happen (.busRead addr width) s = .next (hostMemRead addr width s)) ∧
    (addr < s.platform.regBase → s.platform.regBase < addr + width →
      happen (.busWrite addr width v) s = .refused (.windowEdge addr width) ∧
      happen (.busRead addr width) s = .refused (.windowEdge addr width))) ∧
  ∀ s : State, happen .irqSample s = .next { s with
    observed := s.observed ++ [.irq s.platform.irqLine (s.irqEn && (s.status.done || s.status.err))] }

/-- 10_state R54: IRQ = IRQ_EN and (DONE or ERR), of those bits alone; reset and soft reset clear the three, so it is 0
after either. -/
def Obligations.InterruptLevelFollowsDoneAndErr : Prop :=
  (∀ s : State, irq s = true ↔ s.irqEn = true ∧ (s.status.done = true ∨ s.status.err = true)) ∧
  (∀ s t : State, t = State.reset ∨ t = softReset s ∨ t = assertReset s →
    t.irqEn = false ∧ t.status.done = false ∧ t.status.err = false ∧ irq t = false)

/-! ## Reset -/

/-- 70_reset_and_hazards R450: the registers as the host reads them after reset (PARAMS holds the OPEN parameters). -/
def Obligations.ResetRegisterValues : Prop :=
  readReg 0x000 State.reset = 0x464C54524A450007 ∧ readReg 0x010 State.reset = 0 ∧ readReg 0x018 State.reset = 0 ∧
  readReg 0x020 State.reset = 0 ∧ readReg 0x028 State.reset = 0x00000000130BFA23 ∧
  (∀ offset ∈ [0x030, 0x038, 0x040, 0x048, 0x050, 0x058, 0x060, 0x068, 0x070, 0x078, 0x080, 0x088, 0x090, 0x098, 0x0A0],
    readReg offset State.reset = 0) ∧
  (readReg 0x008 State.reset).toNat
    = State.reset.platform.nlanes + 2 ^ 16 * State.reset.platform.candCap + 2 ^ 32 * 0x1000 ∧
  State.reset.running = none ∧ irq State.reset = false

/-- 70_reset_and_hazards R453, R452: a soft reset, idle or not: every register and the phase take their reset values, ID and
PARAMS stay, and memory changes at most in the output region of a command it abandons. -/
def Obligations.SoftResetRestoresTheResetState : Prop :=
  ∀ (s : State) (v : Word), s.resetIn = false → v.getLsbD 1 = true →
    ∃ t, hostRegWrite 0x010 8 v s = .next t ∧
      t = { State.reset with platform := s.platform, mem := t.mem, agenda := s.agenda, observed := s.observed,
                             drawn := t.drawn, stale := s.stale } ∧
      readReg 0x000 t = readReg 0x000 s ∧ readReg 0x008 t = readReg 0x008 s ∧
      (s.running = none → t.mem = s.mem) ∧
      (∀ r a, s.running = some r → (∀ k w, OutputWordAt r k w → a < w ∨ w + 4 ≤ a) → t.mem.read a = s.mem.read a)

/-- 70_reset_and_hazards R452: after a soft reset that abandons an undisturbed command whose output words can be written and
hold old or new, each of them again holds its old content or the value the command would have written (log entry 12). -/
def Obligations.AbandonedWordsAreOldOrNew : Prop :=
  ∀ (s : State) (r : Running), s.running = some r → s.mem.wf →
    (∀ j < jobsOf r.op r.latched, ¬Disturbed s.platform r j) →
    (∀ k w, OutputWordAt r k w → accessible s.platform w 4 ∧ ¬UnderBreach r w) →
    (∀ k w, OutputWordAt r k w →
      (∃ v, WritesWord s.platform r k w v ∧ holdsWord s.mem w v) ∨
      ∀ i < 4, s.mem.read (w + i) = r.before.read (w + i)) →
    ∀ k w, OutputWordAt r k w →
      (∃ v, WritesWord s.platform r k w v ∧ holdsWord (softReset s).mem w v) ∨
      ∀ i < 4, (softReset s).mem.read (w + i) = r.before.read (w + i)

/-- 70_reset_and_hazards R450, R451: asserting RESET_IN puts every register at its reset value and leaves memory; while it is
asserted the core takes no step that changes anything, register writes are ignored, and reads return the reset values;
releasing it leaves the reset state. That memory stays as it stands in the very step that asserts RESET_IN, while a command
runs too, so that no write of it is still to be performed, is the model's reading of "host memory: not changed by reset" (log
entry 13). -/
def Obligations.HardwareResetHoldsTheResetState : Prop :=
  (∀ s : State, assertReset s = { State.reset with platform := s.platform, mem := s.mem, resetIn := true,
                                                   agenda := s.agenda, observed := s.observed, drawn := s.drawn,
                                                   stale := s.stale }) ∧
  (∀ (s : State) (offset : Nat) (v : Word), s.resetIn = true → offset < 4096 → offset % 8 = 0 →
    hostRegWrite offset 8 v s = .next s ∧
    readReg offset s = readReg offset { State.reset with platform := s.platform }) ∧
  (∀ (s : State) (pick : Nat), Inv s → s.resetIn = true → coreStep pick s = s) ∧
  (∀ s : State, Inv s → s.resetIn = true →
    happen .resetRelease s = .next { State.reset with platform := s.platform, mem := s.mem, agenda := s.agenda,
                                                      observed := s.observed, drawn := s.drawn, stale := s.stale })

/-! ## Invariants of the machine -/

/-- The invariant (Safety.lean) holds after reset. The parameters and the empty memory it is reset with are the model's
(log entries 4 and 5). -/
def Obligations.InvariantHoldsAfterReset : Prop := Inv State.reset

/-- Every step keeps the invariant: memory's canonical form, the legal parameters, ERR with ERRCODE (10_state R36), the
quiet core under reset (70 R451), and the bookkeeping of a running command (10_state R47, R50, R52, R56, R57, 44_batch R350
to R354). -/
def Obligations.EveryStepKeepsTheInvariant : Prop :=
  ∀ s t : State, Inv s → step s = .next t → Inv t

/-- 10_state R33, R34, R453: no step changes the implementation parameters, so ID and PARAMS always read the same. -/
def Obligations.EveryStepKeepsTheParameters : Prop :=
  ∀ s t : State, step s = .next t →
    t.platform = s.platform ∧ readReg 0x000 t = 0x464C54524A450007 ∧ readReg 0x008 t = readReg 0x008 s
end

