-- ==== Sys2Proof/Laws/Memory.lean ====
section
/-! SUPPORT. Host memory: read after write, and every operation keeps the canonical form. -/

namespace Sys2Proof.Machine

/-! ## Byte order -/

theorem length_leBytes (n v : Nat) : (leBytes n v).length = n := by
  induction n generalizing v with
  | zero => rfl
  | succ n ih => simp [leBytes, ih]

theorem le_leBytes (n v : Nat) (h : v < 256 ^ n) : le (leBytes n v) = v := by
  induction n generalizing v with
  | zero => simp at h; simp [leBytes, le, h]
  | succ n ih =>
    have hv : v / 256 < 256 ^ n := by
      rw [Nat.div_lt_iff_lt_mul (by norm_num)]; rwa [pow_succ] at h
    simp only [leBytes, le, ih _ hv, BitVec.toNat_ofNat]
    omega

theorem le_lt (bs : List Byte) : le bs < 256 ^ bs.length := by
  induction bs with
  | nil => simp [le]
  | cons b bs ih =>
    have hb : b.toNat < 256 := b.isLt
    simp only [le, List.length_cons, pow_succ]
    omega

/-! ## Reading after writing -/

theorem Memory.read_nil (a : Nat) : Memory.read [] a = Memory.unlisted := rfl

/-- Below every listed address, memory reads as unlisted. -/
theorem Memory.read_of_lt_all (m : Memory) (a : Nat) (h : ∀ c ∈ m, a < c.1) : Memory.read m a = Memory.unlisted := by
  induction m with
  | nil => rfl
  | cons c rest ih =>
    obtain ⟨k, b⟩ := c
    have hk : a < k := h (k, b) (by simp)
    simp only [Memory.read, if_neg (by omega : k ≠ a)]
    exact ih fun c hc => h c (by simp [hc])

theorem Memory.wf_tail {c : Host.Cell} {m : Memory} (h : Memory.wf (c :: m)) : Memory.wf m :=
  ⟨(List.pairwise_cons.1 h.1).2, fun d hd => h.2 d (by simp [hd])⟩

/-- Every address of an insertion is the one inserted or was there before. -/
theorem Memory.mem_insert {m : Memory} {a : Nat} {b : Byte} {c : Host.Cell} (h : c ∈ Memory.insert m a b) :
    (c = (a, b) ∧ b ≠ Memory.unlisted) ∨ c ∈ m := by
  induction m with
  | nil =>
    simp only [Memory.insert] at h
    split at h <;> simp_all
  | cons d rest ih =>
    obtain ⟨k, e⟩ := d
    simp only [Memory.insert] at h
    split at h
    · split at h <;> simp_all
    · split at h
      · split at h
        · exact .inr (by simp [h])
        · rcases List.mem_cons.1 h with h | h
          · exact .inl ⟨h, by assumption⟩
          · exact .inr (by simp [h])
      · rcases List.mem_cons.1 h with h | h
        · exact .inr (by simp [h])
        · rcases ih h with h | h
          · exact .inl h
          · exact .inr (by simp [h])

/-- Inserting a byte keeps the canonical form. -/
theorem Memory.wf_insert {m : Memory} (h : m.wf) {a : Nat} (ha : a < Config.addrLimit) (b : Byte) :
    (m.insert a b).wf := by
  induction m with
  | nil =>
    simp only [Memory.insert]
    split <;> simp_all [Memory.wf]
  | cons d rest ih =>
    obtain ⟨k, e⟩ := d
    have hp := List.pairwise_cons.1 h.1
    have hk := h.2 (k, e) (by simp)
    have ht := ih (Memory.wf_tail h)
    simp only [Memory.insert]
    split
    · split
      · exact h
      · rename_i hak hb
        refine ⟨List.pairwise_cons.2 ⟨fun c hc => ?_, h.1⟩, fun c hc => ?_⟩
        · rcases List.mem_cons.1 hc with rfl | hc
          · exact hak
          · exact lt_trans hak (hp.1 c hc)
        · rcases List.mem_cons.1 hc with rfl | hc
          · exact ⟨ha, hb⟩
          · exact h.2 c hc
    · split
      · split
        · exact Memory.wf_tail h
        · rename_i hak hb
          subst hak
          refine ⟨List.pairwise_cons.2 ⟨fun c hc => hp.1 c hc, hp.2⟩, fun c hc => ?_⟩
          rcases List.mem_cons.1 hc with rfl | hc
          · exact ⟨ha, hb⟩
          · exact (Memory.wf_tail h).2 c hc
      · refine ⟨List.pairwise_cons.2 ⟨fun c hc => ?_, ht.1⟩, fun c hc => ?_⟩
        · rcases Memory.mem_insert hc with ⟨rfl, -⟩ | hc
          · show k < a
            omega
          · exact hp.1 c hc
        · rcases List.mem_cons.1 hc with rfl | hc
          · exact hk
          · exact ht.2 c hc

/-- What an inserted byte reads as, and that every other address reads as before. -/
theorem Memory.read_insert {m : Memory} (h : m.wf) (a : Nat) (b : Byte) (x : Nat) :
    (m.insert a b).read x = if x = a then b else m.read x := by
  induction m with
  | nil =>
    by_cases hb : b = Memory.unlisted <;> by_cases hx : a = x <;>
      simp [Memory.insert, Memory.read, hb, hx, eq_comm (a := x)]
  | cons d rest ih =>
    obtain ⟨k, e⟩ := d
    have hp := List.pairwise_cons.1 h.1
    have ih := ih (Memory.wf_tail h)
    have below : ∀ y, y ≤ k → Memory.read rest y = Memory.unlisted := fun y hy =>
      Memory.read_of_lt_all rest y fun c hc => lt_of_le_of_lt hy (hp.1 c hc)
    simp only [Memory.insert]
    split
    · rename_i hak
      split
      · rename_i hb
        by_cases hx : x = a
        · subst hx
          rw [if_pos rfl, hb]
          simp only [Memory.read, if_neg (by omega : k ≠ x)]
          exact below x (by omega)
        · simp [hx]
      · by_cases hx : x = a
        · simp [hx, Memory.read]
        · rw [if_neg hx]
          conv_lhs => rw [Memory.read, if_neg (Ne.symm hx)]
    · split
      · rename_i hak
        subst hak
        split
        · rename_i hb
          by_cases hx : x = a
          · rw [if_pos hx, hb, hx]; exact below a le_rfl
          · rw [if_neg hx]; simp [Memory.read, Ne.symm hx]
        · by_cases hx : x = a
          · simp [hx, Memory.read]
          · simp [hx, Memory.read, Ne.symm hx]
      · rename_i hak hne
        by_cases hkx : k = x
        · subst hkx
          simp [Memory.read, Ne.symm hne]
        · simp [Memory.read, hkx, ih]

theorem Memory.wf_writeByte {m : Memory} (h : m.wf) (a : Nat) (b : Byte) : (m.writeByte a b).wf := by
  unfold Memory.writeByte
  split
  · exact Memory.wf_insert h (by assumption) b
  · exact h

theorem Memory.read_writeByte {m : Memory} (h : m.wf) (a : Nat) (b : Byte) (x : Nat) :
    (m.writeByte a b).read x = if x = a ∧ a < Config.addrLimit then b else m.read x := by
  unfold Memory.writeByte
  split
  · rename_i ha; simp [Memory.read_insert h, ha]
  · rename_i ha; simp [ha]

/-- Writing bytes keeps the canonical form. -/
theorem Memory.wf_writeBytes {m : Memory} (h : m.wf) (a : Nat) (bs : List Byte) : (m.writeBytes a bs).wf := by
  induction bs generalizing m a with
  | nil => exact h
  | cons b bs ih => exact ih (Memory.wf_writeByte h a b) (a + 1)

/-- The byte at x after writing bs at a: byte x - a of bs where that exists, as before elsewhere. -/
theorem Memory.read_writeBytes {m : Memory} (h : m.wf) (a : Nat) (bs : List Byte) (x : Nat) :
    (m.writeBytes a bs).read x =
      if a ≤ x ∧ x < a + bs.length ∧ x < Config.addrLimit then bs.getD (x - a) 0 else m.read x := by
  induction bs generalizing m a with
  | nil => simp [Memory.writeBytes]; intros; omega
  | cons b bs ih =>
    rw [Memory.writeBytes, ih (Memory.wf_writeByte h a b), Memory.read_writeByte h]
    by_cases hx : x = a
    · subst hx
      simp
    · by_cases hax : a < x
      · obtain ⟨d, rfl⟩ : ∃ d, x = a + 1 + d := ⟨x - (a + 1), by omega⟩
        have e1 : a + 1 + d - (a + 1) = d := by omega
        have e2 : a + 1 + d - a = d + 1 := by omega
        simp only [e1, e2, List.length_cons, List.getD_cons_succ]
        rw [if_neg (by omega : ¬(a + 1 + d = a ∧ a < Config.addrLimit))]
        congr 1
        simp only [eq_iff_iff]
        omega
      · rw [if_neg (by omega), if_neg (by omega), if_neg (by omega)]

/-- Outside the bytes written, memory reads as before. -/
theorem Memory.read_writeBytes_outside {m : Memory} (h : m.wf) (a : Nat) (bs : List Byte) (x : Nat)
    (hx : x < a ∨ a + bs.length ≤ x) : (m.writeBytes a bs).read x = m.read x := by
  rw [Memory.read_writeBytes h, if_neg (by omega)]

/-- `MemRead` of an address range (20_memory R105): when it answers bytes, what they are. -/
theorem memRead_eq_some {p : Platform} {m : Memory} {a n : Nat} {bs : List Byte} (h : memRead p m a n = some bs) :
    bs = m.readBytes a n ∧ (n = 0 ∨ rangeOk p a n = true) := by
  unfold memRead at h
  split at h
  · rename_i hn; subst hn; simp at h; simp [h, Memory.readBytes]
  · split at h
    · rename_i hr; simp at h; exact ⟨h.symm, .inr hr⟩
    · simp at h

theorem length_readBytes (m : Memory) (a n : Nat) : (m.readBytes a n).length = n := by simp [Memory.readBytes]

/-- Memory after reset lists nothing. -/
theorem reset_mem_wf : State.reset.mem.wf := ⟨List.Pairwise.nil, fun c hc => absurd hc (by simp [State.reset])⟩

end Sys2Proof.Machine
end

