-- ==== Sys2Proof/Laws/State.lean ====
section
/-! SUPPORT. One lemma per field per update of State, all true by rfl, so that no proof unfolds a record update. -/

namespace Sys2Proof.Machine.State

variable (s : State)

@[simp] theorem setIrqEn_platform (x : Bool) : (s.setIrqEn x).platform = s.platform := rfl
@[simp] theorem setIrqEn_irqEn (x : Bool) : (s.setIrqEn x).irqEn = x := rfl
@[simp] theorem setIrqEn_status (x : Bool) : (s.setIrqEn x).status = s.status := rfl
@[simp] theorem setIrqEn_regs (x : Bool) : (s.setIrqEn x).regs = s.regs := rfl
@[simp] theorem setIrqEn_result0 (x : Bool) : (s.setIrqEn x).result0 = s.result0 := rfl
@[simp] theorem setIrqEn_result1 (x : Bool) : (s.setIrqEn x).result1 = s.result1 := rfl
@[simp] theorem setIrqEn_jobsDone (x : Bool) : (s.setIrqEn x).jobsDone = s.jobsDone := rfl
@[simp] theorem setIrqEn_running (x : Bool) : (s.setIrqEn x).running = s.running := rfl
@[simp] theorem setIrqEn_mem (x : Bool) : (s.setIrqEn x).mem = s.mem := rfl
@[simp] theorem setIrqEn_resetIn (x : Bool) : (s.setIrqEn x).resetIn = s.resetIn := rfl
@[simp] theorem setIrqEn_agenda (x : Bool) : (s.setIrqEn x).agenda = s.agenda := rfl
@[simp] theorem setIrqEn_observed (x : Bool) : (s.setIrqEn x).observed = s.observed := rfl
@[simp] theorem setIrqEn_drawn (x : Bool) : (s.setIrqEn x).drawn = s.drawn := rfl
@[simp] theorem setIrqEn_stale (x : Bool) : (s.setIrqEn x).stale = s.stale := rfl

@[simp] theorem setStatus_platform (x : Status) : (s.setStatus x).platform = s.platform := rfl
@[simp] theorem setStatus_irqEn (x : Status) : (s.setStatus x).irqEn = s.irqEn := rfl
@[simp] theorem setStatus_status (x : Status) : (s.setStatus x).status = x := rfl
@[simp] theorem setStatus_regs (x : Status) : (s.setStatus x).regs = s.regs := rfl
@[simp] theorem setStatus_result0 (x : Status) : (s.setStatus x).result0 = s.result0 := rfl
@[simp] theorem setStatus_result1 (x : Status) : (s.setStatus x).result1 = s.result1 := rfl
@[simp] theorem setStatus_jobsDone (x : Status) : (s.setStatus x).jobsDone = s.jobsDone := rfl
@[simp] theorem setStatus_running (x : Status) : (s.setStatus x).running = s.running := rfl
@[simp] theorem setStatus_mem (x : Status) : (s.setStatus x).mem = s.mem := rfl
@[simp] theorem setStatus_resetIn (x : Status) : (s.setStatus x).resetIn = s.resetIn := rfl
@[simp] theorem setStatus_agenda (x : Status) : (s.setStatus x).agenda = s.agenda := rfl
@[simp] theorem setStatus_observed (x : Status) : (s.setStatus x).observed = s.observed := rfl
@[simp] theorem setStatus_drawn (x : Status) : (s.setStatus x).drawn = s.drawn := rfl
@[simp] theorem setStatus_stale (x : Status) : (s.setStatus x).stale = s.stale := rfl

@[simp] theorem setRegs_platform (x : Operands) : (s.setRegs x).platform = s.platform := rfl
@[simp] theorem setRegs_irqEn (x : Operands) : (s.setRegs x).irqEn = s.irqEn := rfl
@[simp] theorem setRegs_status (x : Operands) : (s.setRegs x).status = s.status := rfl
@[simp] theorem setRegs_regs (x : Operands) : (s.setRegs x).regs = x := rfl
@[simp] theorem setRegs_result0 (x : Operands) : (s.setRegs x).result0 = s.result0 := rfl
@[simp] theorem setRegs_result1 (x : Operands) : (s.setRegs x).result1 = s.result1 := rfl
@[simp] theorem setRegs_jobsDone (x : Operands) : (s.setRegs x).jobsDone = s.jobsDone := rfl
@[simp] theorem setRegs_running (x : Operands) : (s.setRegs x).running = s.running := rfl
@[simp] theorem setRegs_mem (x : Operands) : (s.setRegs x).mem = s.mem := rfl
@[simp] theorem setRegs_resetIn (x : Operands) : (s.setRegs x).resetIn = s.resetIn := rfl
@[simp] theorem setRegs_agenda (x : Operands) : (s.setRegs x).agenda = s.agenda := rfl
@[simp] theorem setRegs_observed (x : Operands) : (s.setRegs x).observed = s.observed := rfl
@[simp] theorem setRegs_drawn (x : Operands) : (s.setRegs x).drawn = s.drawn := rfl
@[simp] theorem setRegs_stale (x : Operands) : (s.setRegs x).stale = s.stale := rfl

@[simp] theorem setResult0_platform (x : Word) : (s.setResult0 x).platform = s.platform := rfl
@[simp] theorem setResult0_irqEn (x : Word) : (s.setResult0 x).irqEn = s.irqEn := rfl
@[simp] theorem setResult0_status (x : Word) : (s.setResult0 x).status = s.status := rfl
@[simp] theorem setResult0_regs (x : Word) : (s.setResult0 x).regs = s.regs := rfl
@[simp] theorem setResult0_result0 (x : Word) : (s.setResult0 x).result0 = x := rfl
@[simp] theorem setResult0_result1 (x : Word) : (s.setResult0 x).result1 = s.result1 := rfl
@[simp] theorem setResult0_jobsDone (x : Word) : (s.setResult0 x).jobsDone = s.jobsDone := rfl
@[simp] theorem setResult0_running (x : Word) : (s.setResult0 x).running = s.running := rfl
@[simp] theorem setResult0_mem (x : Word) : (s.setResult0 x).mem = s.mem := rfl
@[simp] theorem setResult0_resetIn (x : Word) : (s.setResult0 x).resetIn = s.resetIn := rfl
@[simp] theorem setResult0_agenda (x : Word) : (s.setResult0 x).agenda = s.agenda := rfl
@[simp] theorem setResult0_observed (x : Word) : (s.setResult0 x).observed = s.observed := rfl
@[simp] theorem setResult0_drawn (x : Word) : (s.setResult0 x).drawn = s.drawn := rfl
@[simp] theorem setResult0_stale (x : Word) : (s.setResult0 x).stale = s.stale := rfl

@[simp] theorem setResult1_platform (x : Word) : (s.setResult1 x).platform = s.platform := rfl
@[simp] theorem setResult1_irqEn (x : Word) : (s.setResult1 x).irqEn = s.irqEn := rfl
@[simp] theorem setResult1_status (x : Word) : (s.setResult1 x).status = s.status := rfl
@[simp] theorem setResult1_regs (x : Word) : (s.setResult1 x).regs = s.regs := rfl
@[simp] theorem setResult1_result0 (x : Word) : (s.setResult1 x).result0 = s.result0 := rfl
@[simp] theorem setResult1_result1 (x : Word) : (s.setResult1 x).result1 = x := rfl
@[simp] theorem setResult1_jobsDone (x : Word) : (s.setResult1 x).jobsDone = s.jobsDone := rfl
@[simp] theorem setResult1_running (x : Word) : (s.setResult1 x).running = s.running := rfl
@[simp] theorem setResult1_mem (x : Word) : (s.setResult1 x).mem = s.mem := rfl
@[simp] theorem setResult1_resetIn (x : Word) : (s.setResult1 x).resetIn = s.resetIn := rfl
@[simp] theorem setResult1_agenda (x : Word) : (s.setResult1 x).agenda = s.agenda := rfl
@[simp] theorem setResult1_observed (x : Word) : (s.setResult1 x).observed = s.observed := rfl
@[simp] theorem setResult1_drawn (x : Word) : (s.setResult1 x).drawn = s.drawn := rfl
@[simp] theorem setResult1_stale (x : Word) : (s.setResult1 x).stale = s.stale := rfl

@[simp] theorem setJobsDone_platform (x : BitVec 32) : (s.setJobsDone x).platform = s.platform := rfl
@[simp] theorem setJobsDone_irqEn (x : BitVec 32) : (s.setJobsDone x).irqEn = s.irqEn := rfl
@[simp] theorem setJobsDone_status (x : BitVec 32) : (s.setJobsDone x).status = s.status := rfl
@[simp] theorem setJobsDone_regs (x : BitVec 32) : (s.setJobsDone x).regs = s.regs := rfl
@[simp] theorem setJobsDone_result0 (x : BitVec 32) : (s.setJobsDone x).result0 = s.result0 := rfl
@[simp] theorem setJobsDone_result1 (x : BitVec 32) : (s.setJobsDone x).result1 = s.result1 := rfl
@[simp] theorem setJobsDone_jobsDone (x : BitVec 32) : (s.setJobsDone x).jobsDone = x := rfl
@[simp] theorem setJobsDone_running (x : BitVec 32) : (s.setJobsDone x).running = s.running := rfl
@[simp] theorem setJobsDone_mem (x : BitVec 32) : (s.setJobsDone x).mem = s.mem := rfl
@[simp] theorem setJobsDone_resetIn (x : BitVec 32) : (s.setJobsDone x).resetIn = s.resetIn := rfl
@[simp] theorem setJobsDone_agenda (x : BitVec 32) : (s.setJobsDone x).agenda = s.agenda := rfl
@[simp] theorem setJobsDone_observed (x : BitVec 32) : (s.setJobsDone x).observed = s.observed := rfl
@[simp] theorem setJobsDone_drawn (x : BitVec 32) : (s.setJobsDone x).drawn = s.drawn := rfl
@[simp] theorem setJobsDone_stale (x : BitVec 32) : (s.setJobsDone x).stale = s.stale := rfl

@[simp] theorem setRunning_platform (x : Option Running) : (s.setRunning x).platform = s.platform := rfl
@[simp] theorem setRunning_irqEn (x : Option Running) : (s.setRunning x).irqEn = s.irqEn := rfl
@[simp] theorem setRunning_status (x : Option Running) : (s.setRunning x).status = s.status := rfl
@[simp] theorem setRunning_regs (x : Option Running) : (s.setRunning x).regs = s.regs := rfl
@[simp] theorem setRunning_result0 (x : Option Running) : (s.setRunning x).result0 = s.result0 := rfl
@[simp] theorem setRunning_result1 (x : Option Running) : (s.setRunning x).result1 = s.result1 := rfl
@[simp] theorem setRunning_jobsDone (x : Option Running) : (s.setRunning x).jobsDone = s.jobsDone := rfl
@[simp] theorem setRunning_running (x : Option Running) : (s.setRunning x).running = x := rfl
@[simp] theorem setRunning_mem (x : Option Running) : (s.setRunning x).mem = s.mem := rfl
@[simp] theorem setRunning_resetIn (x : Option Running) : (s.setRunning x).resetIn = s.resetIn := rfl
@[simp] theorem setRunning_agenda (x : Option Running) : (s.setRunning x).agenda = s.agenda := rfl
@[simp] theorem setRunning_observed (x : Option Running) : (s.setRunning x).observed = s.observed := rfl
@[simp] theorem setRunning_drawn (x : Option Running) : (s.setRunning x).drawn = s.drawn := rfl
@[simp] theorem setRunning_stale (x : Option Running) : (s.setRunning x).stale = s.stale := rfl

@[simp] theorem setMem_platform (x : Memory) : (s.setMem x).platform = s.platform := rfl
@[simp] theorem setMem_irqEn (x : Memory) : (s.setMem x).irqEn = s.irqEn := rfl
@[simp] theorem setMem_status (x : Memory) : (s.setMem x).status = s.status := rfl
@[simp] theorem setMem_regs (x : Memory) : (s.setMem x).regs = s.regs := rfl
@[simp] theorem setMem_result0 (x : Memory) : (s.setMem x).result0 = s.result0 := rfl
@[simp] theorem setMem_result1 (x : Memory) : (s.setMem x).result1 = s.result1 := rfl
@[simp] theorem setMem_jobsDone (x : Memory) : (s.setMem x).jobsDone = s.jobsDone := rfl
@[simp] theorem setMem_running (x : Memory) : (s.setMem x).running = s.running := rfl
@[simp] theorem setMem_mem (x : Memory) : (s.setMem x).mem = x := rfl
@[simp] theorem setMem_resetIn (x : Memory) : (s.setMem x).resetIn = s.resetIn := rfl
@[simp] theorem setMem_agenda (x : Memory) : (s.setMem x).agenda = s.agenda := rfl
@[simp] theorem setMem_observed (x : Memory) : (s.setMem x).observed = s.observed := rfl
@[simp] theorem setMem_drawn (x : Memory) : (s.setMem x).drawn = s.drawn := rfl
@[simp] theorem setMem_stale (x : Memory) : (s.setMem x).stale = s.stale := rfl

@[simp] theorem setResetIn_platform (x : Bool) : (s.setResetIn x).platform = s.platform := rfl
@[simp] theorem setResetIn_irqEn (x : Bool) : (s.setResetIn x).irqEn = s.irqEn := rfl
@[simp] theorem setResetIn_status (x : Bool) : (s.setResetIn x).status = s.status := rfl
@[simp] theorem setResetIn_regs (x : Bool) : (s.setResetIn x).regs = s.regs := rfl
@[simp] theorem setResetIn_result0 (x : Bool) : (s.setResetIn x).result0 = s.result0 := rfl
@[simp] theorem setResetIn_result1 (x : Bool) : (s.setResetIn x).result1 = s.result1 := rfl
@[simp] theorem setResetIn_jobsDone (x : Bool) : (s.setResetIn x).jobsDone = s.jobsDone := rfl
@[simp] theorem setResetIn_running (x : Bool) : (s.setResetIn x).running = s.running := rfl
@[simp] theorem setResetIn_mem (x : Bool) : (s.setResetIn x).mem = s.mem := rfl
@[simp] theorem setResetIn_resetIn (x : Bool) : (s.setResetIn x).resetIn = x := rfl
@[simp] theorem setResetIn_agenda (x : Bool) : (s.setResetIn x).agenda = s.agenda := rfl
@[simp] theorem setResetIn_observed (x : Bool) : (s.setResetIn x).observed = s.observed := rfl
@[simp] theorem setResetIn_drawn (x : Bool) : (s.setResetIn x).drawn = s.drawn := rfl
@[simp] theorem setResetIn_stale (x : Bool) : (s.setResetIn x).stale = s.stale := rfl

@[simp] theorem setAgenda_platform (x : List Event) : (s.setAgenda x).platform = s.platform := rfl
@[simp] theorem setAgenda_irqEn (x : List Event) : (s.setAgenda x).irqEn = s.irqEn := rfl
@[simp] theorem setAgenda_status (x : List Event) : (s.setAgenda x).status = s.status := rfl
@[simp] theorem setAgenda_regs (x : List Event) : (s.setAgenda x).regs = s.regs := rfl
@[simp] theorem setAgenda_result0 (x : List Event) : (s.setAgenda x).result0 = s.result0 := rfl
@[simp] theorem setAgenda_result1 (x : List Event) : (s.setAgenda x).result1 = s.result1 := rfl
@[simp] theorem setAgenda_jobsDone (x : List Event) : (s.setAgenda x).jobsDone = s.jobsDone := rfl
@[simp] theorem setAgenda_running (x : List Event) : (s.setAgenda x).running = s.running := rfl
@[simp] theorem setAgenda_mem (x : List Event) : (s.setAgenda x).mem = s.mem := rfl
@[simp] theorem setAgenda_resetIn (x : List Event) : (s.setAgenda x).resetIn = s.resetIn := rfl
@[simp] theorem setAgenda_agenda (x : List Event) : (s.setAgenda x).agenda = x := rfl
@[simp] theorem setAgenda_observed (x : List Event) : (s.setAgenda x).observed = s.observed := rfl
@[simp] theorem setAgenda_drawn (x : List Event) : (s.setAgenda x).drawn = s.drawn := rfl
@[simp] theorem setAgenda_stale (x : List Event) : (s.setAgenda x).stale = s.stale := rfl

@[simp] theorem setObserved_platform (x : List Observation) : (s.setObserved x).platform = s.platform := rfl
@[simp] theorem setObserved_irqEn (x : List Observation) : (s.setObserved x).irqEn = s.irqEn := rfl
@[simp] theorem setObserved_status (x : List Observation) : (s.setObserved x).status = s.status := rfl
@[simp] theorem setObserved_regs (x : List Observation) : (s.setObserved x).regs = s.regs := rfl
@[simp] theorem setObserved_result0 (x : List Observation) : (s.setObserved x).result0 = s.result0 := rfl
@[simp] theorem setObserved_result1 (x : List Observation) : (s.setObserved x).result1 = s.result1 := rfl
@[simp] theorem setObserved_jobsDone (x : List Observation) : (s.setObserved x).jobsDone = s.jobsDone := rfl
@[simp] theorem setObserved_running (x : List Observation) : (s.setObserved x).running = s.running := rfl
@[simp] theorem setObserved_mem (x : List Observation) : (s.setObserved x).mem = s.mem := rfl
@[simp] theorem setObserved_resetIn (x : List Observation) : (s.setObserved x).resetIn = s.resetIn := rfl
@[simp] theorem setObserved_agenda (x : List Observation) : (s.setObserved x).agenda = s.agenda := rfl
@[simp] theorem setObserved_observed (x : List Observation) : (s.setObserved x).observed = x := rfl
@[simp] theorem setObserved_drawn (x : List Observation) : (s.setObserved x).drawn = s.drawn := rfl
@[simp] theorem setObserved_stale (x : List Observation) : (s.setObserved x).stale = s.stale := rfl

@[simp] theorem setDrawn_platform (x : Nat) : (s.setDrawn x).platform = s.platform := rfl
@[simp] theorem setDrawn_irqEn (x : Nat) : (s.setDrawn x).irqEn = s.irqEn := rfl
@[simp] theorem setDrawn_status (x : Nat) : (s.setDrawn x).status = s.status := rfl
@[simp] theorem setDrawn_regs (x : Nat) : (s.setDrawn x).regs = s.regs := rfl
@[simp] theorem setDrawn_result0 (x : Nat) : (s.setDrawn x).result0 = s.result0 := rfl
@[simp] theorem setDrawn_result1 (x : Nat) : (s.setDrawn x).result1 = s.result1 := rfl
@[simp] theorem setDrawn_jobsDone (x : Nat) : (s.setDrawn x).jobsDone = s.jobsDone := rfl
@[simp] theorem setDrawn_running (x : Nat) : (s.setDrawn x).running = s.running := rfl
@[simp] theorem setDrawn_mem (x : Nat) : (s.setDrawn x).mem = s.mem := rfl
@[simp] theorem setDrawn_resetIn (x : Nat) : (s.setDrawn x).resetIn = s.resetIn := rfl
@[simp] theorem setDrawn_agenda (x : Nat) : (s.setDrawn x).agenda = s.agenda := rfl
@[simp] theorem setDrawn_observed (x : Nat) : (s.setDrawn x).observed = s.observed := rfl
@[simp] theorem setDrawn_drawn (x : Nat) : (s.setDrawn x).drawn = x := rfl
@[simp] theorem setDrawn_stale (x : Nat) : (s.setDrawn x).stale = s.stale := rfl

@[simp] theorem setStale_platform (x : List (Nat × Nat)) : (s.setStale x).platform = s.platform := rfl
@[simp] theorem setStale_irqEn (x : List (Nat × Nat)) : (s.setStale x).irqEn = s.irqEn := rfl
@[simp] theorem setStale_status (x : List (Nat × Nat)) : (s.setStale x).status = s.status := rfl
@[simp] theorem setStale_regs (x : List (Nat × Nat)) : (s.setStale x).regs = s.regs := rfl
@[simp] theorem setStale_result0 (x : List (Nat × Nat)) : (s.setStale x).result0 = s.result0 := rfl
@[simp] theorem setStale_result1 (x : List (Nat × Nat)) : (s.setStale x).result1 = s.result1 := rfl
@[simp] theorem setStale_jobsDone (x : List (Nat × Nat)) : (s.setStale x).jobsDone = s.jobsDone := rfl
@[simp] theorem setStale_running (x : List (Nat × Nat)) : (s.setStale x).running = s.running := rfl
@[simp] theorem setStale_mem (x : List (Nat × Nat)) : (s.setStale x).mem = s.mem := rfl
@[simp] theorem setStale_resetIn (x : List (Nat × Nat)) : (s.setStale x).resetIn = s.resetIn := rfl
@[simp] theorem setStale_agenda (x : List (Nat × Nat)) : (s.setStale x).agenda = s.agenda := rfl
@[simp] theorem setStale_observed (x : List (Nat × Nat)) : (s.setStale x).observed = s.observed := rfl
@[simp] theorem setStale_drawn (x : List (Nat × Nat)) : (s.setStale x).drawn = s.drawn := rfl
@[simp] theorem setStale_stale (x : List (Nat × Nat)) : (s.setStale x).stale = x := rfl

end Sys2Proof.Machine.State
end

