-- ==== Sys2Proof/Laws/Ops.lean ====
section
/-! SUPPORT. One lemma per shared operation: what it changes and what it leaves. -/

namespace Sys2Proof.Machine

/-! ## Memory outside a write, whatever its form -/

/-- Inserting at a leaves the reading of every other address, in any list. -/
theorem Memory.read_insert_of_ne (m : Memory) (a : Nat) (b : Byte) (x : Nat) (hx : x ≠ a) :
    (m.insert a b).read x = m.read x := by
  induction m with
  | nil =>
    simp only [Memory.insert]
    split <;> simp [Memory.read, Ne.symm hx]
  | cons c rest ih =>
    obtain ⟨k, e⟩ := c
    simp only [Memory.insert]
    split
    · split
      · rfl
      · conv_lhs => rw [Memory.read, if_neg (Ne.symm hx)]
    · split
      · rename_i hak
        subst hak
        split <;> simp [Memory.read, Ne.symm hx]
      · by_cases hk : k = x <;> simp [Memory.read, hk, ih]

theorem Memory.read_writeByte_of_ne (m : Memory) (a : Nat) (b : Byte) (x : Nat) (hx : x ≠ a) :
    (m.writeByte a b).read x = m.read x := by
  unfold Memory.writeByte
  split
  · exact Memory.read_insert_of_ne m a b x hx
  · rfl

theorem Memory.read_writeBytes_off (m : Memory) (a : Nat) (bs : List Byte) (x : Nat)
    (hx : x < a ∨ a + bs.length ≤ x) : (m.writeBytes a bs).read x = m.read x := by
  induction bs generalizing m a with
  | nil => rfl
  | cons b bs ih =>
    simp only [List.length_cons] at hx
    rw [Memory.writeBytes, ih _ _ (by omega), Memory.read_writeByte_of_ne _ _ _ _ (by omega)]

/-! ## The bus -/

theorem rangeOk_iff (p : Platform) (a n : Nat) : rangeOk p a n = true ↔ accessible p a n := by
  unfold rangeOk accessible Config.addrLimit
  rw [Bool.and_eq_true, decide_eq_true_eq]
  simp

theorem memRead_zero (p : Platform) (m : Memory) (a : Nat) : memRead p m a 0 = some [] := by simp [memRead]

/-- `MemRead` answers exactly when nothing is read or the range is accessible (20_memory R105). -/
theorem memRead_of_accessible {p : Platform} {m : Memory} {a n : Nat} (h : n = 0 ∨ accessible p a n) :
    memRead p m a n = some (m.readBytes a n) := by
  unfold memRead
  split
  · rename_i hn; subst hn; simp [Memory.readBytes]
  · rename_i hn
    rw [if_pos ((rangeOk_iff p a n).2 (h.resolve_left hn))]

theorem memRead_of_not_accessible {p : Platform} {m : Memory} {a n : Nat} (hn : n ≠ 0) (h : ¬accessible p a n) :
    memRead p m a n = none := by
  unfold memRead
  rw [if_neg hn, if_neg (by rwa [rangeOk_iff])]

/-- Two ranges meet when some address lies in both. -/
theorem meets_iff (a b : Nat × Nat) :
    meets a b = true ↔ ∃ x, (a.1 ≤ x ∧ x < a.1 + a.2) ∧ (b.1 ≤ x ∧ x < b.1 + b.2) := by
  simp only [meets, decide_eq_true_eq]
  constructor
  · rintro ⟨h1, h2, h3, h4⟩
    exact ⟨max a.1 b.1, by omega, by omega⟩
  · rintro ⟨x, h1, h2⟩
    omega

/-! ## Byte k of a word -/

theorem getD_leBytes_four (v : Word32) (k : Nat) (hk : k < 4) :
    (leBytes 4 v.toNat).getD k 0 = v.extractLsb' (8 * k) 8 := by
  have h : k = 0 ∨ k = 1 ∨ k = 2 ∨ k = 3 := by omega
  rcases h with rfl | rfl | rfl | rfl <;>
    · simp only [leBytes, List.getD_cons_zero, List.getD_cons_succ]
      apply BitVec.eq_of_toNat_eq
      simp [BitVec.extractLsb'_toNat, Nat.shiftRight_eq_div_pow, Nat.div_div_eq_div_mul]

/-! ## writeOutputWord -/

section WriteOutputWord

variable (a : Nat) (v : Word32) (s : State)

@[simp] theorem writeOutputWord_platform : (writeOutputWord a v s).platform = s.platform := by
  unfold writeOutputWord; split <;> rfl
@[simp] theorem writeOutputWord_irqEn : (writeOutputWord a v s).irqEn = s.irqEn := by
  unfold writeOutputWord; split <;> rfl
@[simp] theorem writeOutputWord_regs : (writeOutputWord a v s).regs = s.regs := by
  unfold writeOutputWord; split <;> rfl
@[simp] theorem writeOutputWord_result0 : (writeOutputWord a v s).result0 = s.result0 := by
  unfold writeOutputWord; split <;> rfl
@[simp] theorem writeOutputWord_result1 : (writeOutputWord a v s).result1 = s.result1 := by
  unfold writeOutputWord; split <;> rfl
@[simp] theorem writeOutputWord_jobsDone : (writeOutputWord a v s).jobsDone = s.jobsDone := by
  unfold writeOutputWord; split <;> rfl
@[simp] theorem writeOutputWord_running : (writeOutputWord a v s).running = s.running := by
  unfold writeOutputWord; split <;> rfl
@[simp] theorem writeOutputWord_resetIn : (writeOutputWord a v s).resetIn = s.resetIn := by
  unfold writeOutputWord; split <;> rfl
@[simp] theorem writeOutputWord_agenda : (writeOutputWord a v s).agenda = s.agenda := by
  unfold writeOutputWord; split <;> rfl
@[simp] theorem writeOutputWord_observed : (writeOutputWord a v s).observed = s.observed := by
  unfold writeOutputWord; split <;> rfl
@[simp] theorem writeOutputWord_done : (writeOutputWord a v s).status.done = s.status.done := by
  unfold writeOutputWord; split <;> rfl
@[simp] theorem writeOutputWord_err : (writeOutputWord a v s).status.err = s.status.err := by
  unfold writeOutputWord; split <;> rfl
@[simp] theorem writeOutputWord_aborted : (writeOutputWord a v s).status.aborted = s.status.aborted := by
  unfold writeOutputWord; split <;> rfl
@[simp] theorem writeOutputWord_errCode : (writeOutputWord a v s).status.errCode = s.status.errCode := by
  unfold writeOutputWord; split <;> rfl
@[simp] theorem writeOutputWord_lastOp : (writeOutputWord a v s).status.lastOp = s.status.lastOp := by
  unfold writeOutputWord; split <;> rfl

/-- The write that succeeds: memory alone changes. -/
theorem writeOutputWord_of_accessible (h : accessible s.platform a 4) :
    writeOutputWord a v s = s.setMem (s.mem.writeBytes a (leBytes 4 v.toNat)) := by
  unfold writeOutputWord
  rw [if_pos ((rangeOk_iff _ _ _).2 h)]

/-- Outside its four bytes memory reads as before. -/
theorem writeOutputWord_read_off (x : Nat) (hx : x < a ∨ a + 4 ≤ x) :
    (writeOutputWord a v s).mem.read x = s.mem.read x := by
  unfold writeOutputWord
  split
  · exact Memory.read_writeBytes_off _ _ _ _ (by simpa [length_leBytes] using hx)
  · simp only [draw, State.setStatus_mem, State.setDrawn_mem, State.setMem_mem]
    exact Memory.read_writeBytes_off _ _ _ _ (by simpa [partialBytes, length_leBytes] using hx)

/-- The canonical form is kept. -/
theorem writeOutputWord_wf (h : s.mem.wf) : (writeOutputWord a v s).mem.wf := by
  unfold writeOutputWord
  split
  · exact Memory.wf_writeBytes h _ _
  · exact Memory.wf_writeBytes h _ _

/-- The bytes of a write that succeeds. -/
theorem writeOutputWord_read_at (hw : s.mem.wf) (h : accessible s.platform a 4) (k : Nat) (hk : k < 4) :
    (writeOutputWord a v s).mem.read (a + k) = v.extractLsb' (8 * k) 8 := by
  have h64 : a + 4 ≤ 2 ^ 64 := h.1
  rw [writeOutputWord_of_accessible a v s h, State.setMem_mem, Memory.read_writeBytes hw,
    if_pos ⟨by omega, by rw [length_leBytes]; omega, by simp only [Config.addrLimit]; omega⟩, Nat.add_sub_cancel_left,
    getD_leBytes_four v k hk]

/-- A write that fails sets BUSERR and leaves each of its bytes old or new (20_memory R106, 60_exceptions R410). -/
theorem writeOutputWord_of_not_accessible (hw : s.mem.wf) (h : ¬accessible s.platform a 4) :
    (writeOutputWord a v s).status = { s.status with busErr := true } ∧
      ∀ k < 4, (writeOutputWord a v s).mem.read (a + k) = s.mem.read (a + k) ∨
        (writeOutputWord a v s).mem.read (a + k) = v.extractLsb' (8 * k) 8 := by
  unfold writeOutputWord
  rw [if_neg (by rwa [rangeOk_iff])]
  refine ⟨rfl, fun k hk => ?_⟩
  simp only [draw, State.setStatus_mem, State.setDrawn_mem, State.setMem_mem]
  rw [Memory.read_writeBytes hw]
  split
  · rename_i hin
    rw [Nat.add_sub_cancel_left]
    have hk' : k < (leBytes 4 v.toNat).length := by rw [length_leBytes]; exact hk
    simp only [partialBytes, List.getD_eq_getElem?_getD, List.getElem?_map, List.getElem?_range hk', Option.map_some,
      Option.getD_some]
    split
    · right
      have := getD_leBytes_four v k hk
      rw [List.getD_eq_getElem?_getD] at this
      exact this
    · exact .inl rfl
  · exact .inl rfl

end WriteOutputWord

/-! ## Free values, errors, completion -/

@[simp] theorem draw_eq (s : State) (n : Nat) : draw s n = { s with drawn := s.drawn + n } := rfl

theorem complete_eq (s : State) : complete s = { s with running := none, status := { s.status with done := true } } := rfl

theorem cmdError_eq (e : CmdError) (s : State) :
    cmdError e s = { s with status := { s.status with err := true, errCode := some e } } := rfl

theorem setRun_eq (r : Running) (s : State) : setRun r s = { s with running := some r } := rfl

/-! ## Issue and acceptance (30_encoding R150, R153) -/

/-- Everything issuing a command can do: one of three errors, or acceptance. -/
theorem issue_cases (op : Op) (s : State) :
    (busy s = true ∧ issue op s = cmdError .busy s) ∨
    (busy s = false ∧ usesCfg op = true ∧ cfgLegal s.regs = false ∧ issue op s = cmdError .badCfg s) ∨
    (busy s = false ∧ (usesCfg op = true → cfgLegal s.regs = true) ∧ alignedFor op s.regs = false ∧
      issue op s = cmdError .align s) ∨
    (busy s = false ∧ (usesCfg op = true → cfgLegal s.regs = true) ∧ alignedFor op s.regs = true ∧
      issue op s = accept op s) := by
  unfold issue
  cases hb : busy s <;> cases hu : usesCfg op <;> cases hc : cfgLegal s.regs <;> cases ha : alignedFor op s.regs <;> simp

theorem accept_eq (op : Op) (s : State) :
    accept op s =
      { s with
        running := some (freshRun op s)
        status := { s.status with done := false, aborted := false, lastOp := some op }
        jobsDone := if op = .batch then 0 else s.jobsDone } := by
  cases op <;> rfl

/-! ## Ascending lists -/

theorem mem_insertAsc (x y : Nat) (l : List Nat) : y ∈ insertAsc x l ↔ y = x ∨ y ∈ l := by
  induction l with
  | nil => simp [insertAsc]
  | cons z zs ih =>
    simp only [insertAsc]
    split
    · simp
    · simp only [List.mem_cons, ih]; tauto

theorem length_insertAsc (x : Nat) (l : List Nat) : (insertAsc x l).length = l.length + 1 := by
  induction l with
  | nil => rfl
  | cons z zs ih => simp only [insertAsc]; split <;> simp [ih]

/-- A new number put into a strictly ascending list leaves it strictly ascending. -/
theorem pairwise_insertAsc {x : Nat} {l : List Nat} (h : l.Pairwise (· < ·)) (hx : x ∉ l) :
    (insertAsc x l).Pairwise (· < ·) := by
  induction l with
  | nil => simp [insertAsc]
  | cons z zs ih =>
    have hz := List.pairwise_cons.1 h
    have hne : x ≠ z := fun e => hx (by simp [e])
    simp only [insertAsc]
    split
    · rename_i hle
      refine List.pairwise_cons.2 ⟨fun y hy => ?_, h⟩
      rcases List.mem_cons.1 hy with rfl | hy
      · omega
      · have := hz.1 y hy; omega
    · refine List.pairwise_cons.2 ⟨fun y hy => ?_, ih hz.2 fun hm => hx (by simp [hm])⟩
      rcases (mem_insertAsc x y zs).1 hy with rfl | hy
      · omega
      · exact hz.1 y hy

/-- A number put into a non-decreasing list leaves it non-decreasing. -/
theorem pairwise_le_insertAsc {x : Nat} {l : List Nat} (h : l.Pairwise (· ≤ ·)) :
    (insertAsc x l).Pairwise (· ≤ ·) := by
  induction l with
  | nil => simp [insertAsc]
  | cons z zs ih =>
    have hz := List.pairwise_cons.1 h
    simp only [insertAsc]
    split
    · rename_i hle
      refine List.pairwise_cons.2 ⟨fun y hy => ?_, h⟩
      rcases List.mem_cons.1 hy with rfl | hy
      · exact hle
      · exact le_trans hle (hz.1 y hy)
    · refine List.pairwise_cons.2 ⟨fun y hy => ?_, ih hz.2⟩
      rcases (mem_insertAsc x y zs).1 hy with rfl | hy
      · omega
      · exact hz.1 y hy

theorem pairwise_sortAscending (l : List Nat) : (sortAscending l).Pairwise (· ≤ ·) := by
  induction l with
  | nil => simp [sortAscending]
  | cons x xs ih => exact pairwise_le_insertAsc ih

theorem mem_sortAscending (y : Nat) (l : List Nat) : y ∈ sortAscending l ↔ y ∈ l := by
  induction l with
  | nil => simp [sortAscending]
  | cons x xs ih => simp [sortAscending, mem_insertAsc, ih]

end Sys2Proof.Machine
end

