-- ==== Sys2Proof/Laws/Words.lean ====
section
/-! SUPPORT. What writing output words can change, one word or many: memory inside the output region, BUSERR, and the
counter of free values (20_memory R106, R110). -/

namespace Sys2Proof.Machine

/-- From s to t only bytes at addresses in R, BUSERR and the counter of free values may have changed, and memory keeps its
canonical form. -/
def OnlyWords (R : Nat → Prop) (s t : State) : Prop :=
  t = { s with status := { s.status with busErr := t.status.busErr }, mem := t.mem, drawn := t.drawn } ∧
    (∀ a, ¬R a → t.mem.read a = s.mem.read a) ∧ (s.mem.wf → t.mem.wf)

namespace OnlyWords

variable {R : Nat → Prop} {s t u : State}

theorem refl (R : Nat → Prop) (s : State) : OnlyWords R s s := ⟨rfl, fun _ _ => rfl, id⟩

theorem trans (h : OnlyWords R s t) (k : OnlyWords R t u) : OnlyWords R s u := by
  refine ⟨?_, fun a ha => (k.2.1 a ha).trans (h.2.1 a ha), fun w => k.2.2 (h.2.2 w)⟩
  rw [k.1, h.1]

theorem foldl {α : Type} {l : List α} {f : State → α → State} (hf : ∀ u, ∀ x ∈ l, OnlyWords R u (f u x)) (s : State) :
    OnlyWords R s (l.foldl f s) := by
  induction l generalizing s with
  | nil => exact refl R s
  | cons x xs ih =>
    exact trans (hf s x List.mem_cons_self) (ih (fun u y hy => hf u y (List.mem_cons_of_mem x hy)) (f s x))

theorem platform (h : OnlyWords R s t) : t.platform = s.platform := by rw [h.1]
theorem irqEn (h : OnlyWords R s t) : t.irqEn = s.irqEn := by rw [h.1]
theorem regs (h : OnlyWords R s t) : t.regs = s.regs := by rw [h.1]
theorem result0 (h : OnlyWords R s t) : t.result0 = s.result0 := by rw [h.1]
theorem result1 (h : OnlyWords R s t) : t.result1 = s.result1 := by rw [h.1]
theorem jobsDone (h : OnlyWords R s t) : t.jobsDone = s.jobsDone := by rw [h.1]
theorem running (h : OnlyWords R s t) : t.running = s.running := by rw [h.1]
theorem resetIn (h : OnlyWords R s t) : t.resetIn = s.resetIn := by rw [h.1]
theorem agenda (h : OnlyWords R s t) : t.agenda = s.agenda := by rw [h.1]
theorem stale (h : OnlyWords R s t) : t.stale = s.stale := by rw [h.1]
theorem observed (h : OnlyWords R s t) : t.observed = s.observed := by rw [h.1]
theorem done (h : OnlyWords R s t) : t.status.done = s.status.done := by rw [h.1]
theorem err (h : OnlyWords R s t) : t.status.err = s.status.err := by rw [h.1]
theorem aborted (h : OnlyWords R s t) : t.status.aborted = s.status.aborted := by rw [h.1]
theorem errCode (h : OnlyWords R s t) : t.status.errCode = s.status.errCode := by rw [h.1]
theorem lastOp (h : OnlyWords R s t) : t.status.lastOp = s.status.lastOp := by rw [h.1]

end OnlyWords

variable {R : Nat → Prop}

/-- Counting free values as drawn changes nothing else. -/
theorem draw_onlyWords (s : State) (n : Nat) : OnlyWords R s (draw s n) := ⟨rfl, fun _ _ => rfl, id⟩

/-- One output word, written or failed. -/
theorem writeOutputWord_onlyWords (addr : Nat) (v : Word32) (s : State) (hR : ∀ a, addr ≤ a → a < addr + 4 → R a) :
    OnlyWords R s (writeOutputWord addr v s) := by
  refine ⟨?_, fun a ha => ?_, fun w => writeOutputWord_wf _ _ _ w⟩
  · unfold writeOutputWord; split <;> rfl
  · refine writeOutputWord_read_off _ _ _ a ?_
    by_contra hc
    exact ha (hR a (by omega) (by omega))

/-- One output word that becomes any value. -/
theorem anyWord_onlyWords (addr : Nat) (s : State) (hR : ∀ a, addr ≤ a → a < addr + 4 → R a) :
    OnlyWords R s (anyWord addr s) := by
  refine ⟨rfl, fun a ha => Memory.read_writeBytes_off _ _ _ _ ?_, fun w => Memory.wf_writeBytes w _ _⟩
  rw [length_leBytes]
  by_contra hc
  exact ha (hR a (by omega) (by omega))

/-- A job's write of an output word of its own. -/
theorem writeJobWord_of_kept {r : Running} {j addr : Nat} {s : State} (h : wordLost s.platform r j addr = false)
    (v : Word32) : writeJobWord r j addr v s = writeOutputWord addr v s := by
  simp [writeJobWord, h]

/-- A job's write of an output word, its own or any value. -/
theorem writeJobWord_onlyWords (r : Running) (j addr : Nat) (v : Word32) (s : State)
    (hR : ∀ a, addr ≤ a → a < addr + 4 → R a) : OnlyWords R s (writeJobWord r j addr v s) := by
  unfold writeJobWord
  split
  · exact (draw_onlyWords s 1).trans (writeOutputWord_onlyWords addr _ _ hR)
  · exact writeOutputWord_onlyWords addr v s hR

/-- Writing a DECODE value: one output word, or none of a tainted DECODE, and the bookkeeping. -/
theorem writeValue_cases (r : Running) (e : Evaluated) (i : Nat) (s : State)
    (hR : ∀ a, valueAddr r.latched i ≤ a → a < valueAddr r.latched i + 4 → R a) :
    ∃ t, OnlyWords R s t ∧ writeValue r e i s = setRun { r with written := insertAsc i r.written } t := by
  refine ⟨_, ?_, rfl⟩
  split
  · exact draw_onlyWords s 1
  · exact writeJobWord_onlyWords r 0 _ _ s hR

/-- A word that is not lost belongs to a job that is not tainted. -/
theorem untainted_of_kept {p : Platform} {r : Running} {j addr : Nat} (h : wordLost p r j addr = false) :
    tainted p r j = false := by
  simp only [wordLost, Bool.or_eq_false_iff] at h; exact h.1

/-- The DECODE value of an undisturbed command. -/
theorem writeValue_of_kept {r : Running} {s : State} {i : Nat} (h : wordLost s.platform r 0 (valueAddr r.latched i) = false)
    (e : Evaluated) :
    writeValue r e i s = setRun { r with written := insertAsc i r.written }
      (writeOutputWord (valueAddr r.latched i) (BitVec.ofNat 32 (e.fv.getD i 0)) s) := by
  simp [writeValue, h, untainted_of_kept h, writeJobWord]

/-- One output word of a command abandoned by a soft reset. -/
theorem abandonWord_onlyWords (r : Running) (s : State) (k : Nat)
    (hR : ∀ a, outputAddr r.op r.latched k ≤ a → a < outputAddr r.op r.latched k + 4 → R a) :
    OnlyWords R s (abandonWord r s k) := by
  simp only [abandonWord]
  split
  · exact anyWord_onlyWords _ s hR
  · split
    · exact OnlyWords.refl R s
    · split
      · split
        · exact (draw_onlyWords s 1).trans (writeOutputWord_onlyWords _ _ _ hR)
        · refine (draw_onlyWords s 1).trans ⟨rfl, fun a ha => ?_, fun w => Memory.wf_writeBytes w _ _⟩
          refine Memory.read_writeBytes_off _ _ _ _ ?_
          rw [length_readBytes]
          by_contra hc
          exact ha (hR a (by omega) (by omega))
      · exact draw_onlyWords s 1

/-- A word the abandoned command does not write stays as it stands. -/
theorem abandonWord_none {r : Running} {s : State} {k : Nat}
    (ht : wordLost s.platform r (outputJob r k) (outputAddr r.op r.latched k) = false)
    (hv : outputValue s.platform r k = none) : abandonWord r s k = s := by
  simp only [abandonWord, ht, hv, Bool.false_eq_true, if_false]

/-- A word the abandoned command writes: as it stands, its new value, or its old content, by two free bits. -/
theorem abandonWord_some {r : Running} {s : State} {k : Nat} {v : Word32}
    (ht : wordLost s.platform r (outputJob r k) (outputAddr r.op r.latched k) = false)
    (hv : outputValue s.platform r k = some v) :
    abandonWord r s k =
      if (freeAt s 0).getLsbD 0 then
        if (freeAt s 0).getLsbD 1 then writeOutputWord (outputAddr r.op r.latched k) v (draw s 1)
        else (draw s 1).setMem ((draw s 1).mem.writeBytes (outputAddr r.op r.latched k)
          (r.before.readBytes (outputAddr r.op r.latched k) 4))
      else draw s 1 := by
  simp only [abandonWord, ht, hv, Bool.false_eq_true, if_false]

/-- What losing output words already written can change. -/
theorem loseWords_onlyWords (lost : Nat → Bool) (r : Running) (s : State)
    (hR : ∀ k ∈ r.written, lost k = true →
      ∀ a, outputAddr r.op r.latched k ≤ a → a < outputAddr r.op r.latched k + 4 → R a) :
    OnlyWords R s (loseWords lost r s) :=
  OnlyWords.foldl (fun u k hk =>
    anyWord_onlyWords _ u fun a => hR k (List.mem_filter.1 hk).1 (List.mem_filter.1 hk).2 a) s

/-- What a host write that races the running command makes of the output words already written. -/
theorem raceWords_onlyWords (g : Nat × Nat) (r : Running) (s : State)
    (hR : ∀ k ∈ r.written, touches s.platform g r (outputJob r k) = true →
      ∀ a, outputAddr r.op r.latched k ≤ a → a < outputAddr r.op r.latched k + 4 → R a) :
    OnlyWords R s (raceWords g r s) := loseWords_onlyWords _ r s hR

/-- A byte range meets the read set of job j when it shares a byte with one of its ranges (20_memory R112, R113). -/
theorem touches_iff (p : Platform) (g : Nat × Nat) (r : Running) (j : Nat) :
    touches p g r j = true ↔ ∃ x ∈ readSet p r.before r.op r.latched j, ∃ a,
      (g.1 ≤ a ∧ a < g.1 + g.2) ∧ (x.1 ≤ a ∧ a < x.1 + x.2) := by
  simp only [touches, List.any_eq_true, meets_iff]

/-- A word that becomes any value is no access of the core: BUSERR stays. -/
@[simp] theorem anyWord_status (addr : Nat) (s : State) : (anyWord addr s).status = s.status := rfl

@[simp] theorem loseWords_status (lost : Nat → Bool) (r : Running) (s : State) : (loseWords lost r s).status = s.status := by
  unfold loseWords
  generalize r.written.filter _ = l
  induction l generalizing s with
  | nil => rfl
  | cons k ks ih => rw [List.foldl_cons, ih, anyWord_status]

@[simp] theorem raceWords_status (g : Nat × Nat) (r : Running) (s : State) : (raceWords g r s).status = s.status :=
  loseWords_status _ r s

/-- A host write while no command runs: memory alone changes. -/
theorem hostMemWrite_idle {s : State} (h : s.running = none) (addr : Nat) (bs : List Byte) :
    hostMemWrite addr bs s = { s with mem := s.mem.writeBytes addr bs } := by
  simp [hostMemWrite, raceOn, h, State.setMem]

/-- A host write while a command runs: the jobs it races are marked, their words become any value, and its own bytes are
written last. -/
theorem hostMemWrite_running {s : State} {r : Running} (h : s.running = some r) (addr : Nat) (bs : List Byte) :
    hostMemWrite addr bs s =
      { s with
        mem := (raceWords (addr, bs.length) r s).mem.writeBytes addr bs
        running := some (markRaced s.platform (addr, bs.length) r)
        drawn := (raceWords (addr, bs.length) r s).drawn } := by
  have hw := raceWords_onlyWords (R := fun _ => True) (addr, bs.length) r s (by simp)
  have hs := raceWords_status (addr, bs.length) r s
  simp only [hostMemWrite, raceOn, h, setRun_eq, State.setMem]
  rw [hw.1, hs]

/-- A breach of the cache duties while no command runs: it stands, and that is all. -/
theorem cacheBreach_idle {s : State} (h : s.running = none) (hc : s.platform.coherent = false) (addr n : Nat) :
    cacheBreach addr n s = { s with stale := s.stale ++ [(addr, n)] } := by
  simp [cacheBreach, breachRun, h, hc, State.setStale]

/-- A breach of the cache duties while a command runs: it stands over the command too, and the words it reaches that are
already written become any value. -/
theorem cacheBreach_running {s : State} {r : Running} (h : s.running = some r) (hc : s.platform.coherent = false)
    (addr n : Nat) :
    ∃ t, t = loseWords (fun k => touches s.platform (addr, n) r (outputJob r k)
          || meets (addr, n) (outputAddr r.op r.latched k, 4)) r s ∧
      cacheBreach addr n s =
        { s with
          mem := t.mem, drawn := t.drawn
          running := some { r with stale := r.stale ++ [(addr, n)] }
          stale := s.stale ++ [(addr, n)] } := by
  refine ⟨_, rfl, ?_⟩
  have hw := loseWords_onlyWords (R := fun _ => True) (fun k => touches s.platform (addr, n) r (outputJob r k)
    || meets (addr, n) (outputAddr r.op r.latched k, 4)) r s (by simp)
  have hs := loseWords_status (fun k => touches s.platform (addr, n) r (outputJob r k)
    || meets (addr, n) (outputAddr r.op r.latched k, 4)) r s
  simp only [cacheBreach, breachRun, h, hc, setRun_eq, State.setStale, Bool.false_eq_true, if_false]
  rw [hw.1, hs]

/-- With COHERENT = 1 there is nothing to breach (20_memory R118). -/
theorem cacheBreach_coherent {s : State} (h : s.platform.coherent = true) (addr n : Nat) : cacheBreach addr n s = s := by
  simp [cacheBreach, h]

/-- Synchronising the caches changes memory and the breaches that stand. -/
theorem cacheSync_eq {s : State} (h : s.platform.coherent = false) (addr n : Nat) :
    cacheSync addr n s =
      { s with
        mem := s.mem.writeBytes addr ((List.range n).map fun i =>
          if inRanges s.stale (addr + i) then (freeAt s i).setWidth 8 else s.mem.read (addr + i))
        drawn := s.drawn + n
        stale := s.stale.flatMap (cutRange (addr, n)) } := by
  simp [cacheSync, h, State.setStale, State.setMem, draw, State.setDrawn]

/-! ## The output region -/

theorem outputWords_decode (o : Operands) : outputWords .decode o = Config.filterCap := by
  simp [outputWords, outputRegion, Config.filterCap]

theorem outputWords_batch (o : Operands) : outputWords .batch o = o.jobCount.toNat := by
  simp [outputWords, outputRegion]

/-- The bytes of output word k lie in the output region. -/
theorem inRange_outputAddr {op : Op} {o : Operands} {k a : Nat} (hk : k < outputWords op o)
    (h1 : outputAddr op o k ≤ a) (h2 : a < outputAddr op o k + 4) : inRange (outputRegion op o) a = true := by
  simp only [outputWords] at hk
  simp only [outputAddr] at h1 h2
  simp only [inRange, decide_eq_true_eq]
  omega

/-- A DECODE's values lie in its output region. -/
theorem inRange_valueAddr {o : Operands} {k a : Nat} (hk : k < Config.filterCap)
    (h1 : valueAddr o k ≤ a) (h2 : a < valueAddr o k + 4) : inRange (outputRegion .decode o) a = true :=
  inRange_outputAddr (op := .decode) (k := k) (by rwa [outputWords_decode]) h1 h2

/-- A BATCH's result slots lie in its output region. -/
theorem inRange_slotAddr {o : Operands} {k a : Nat} (hk : k < o.jobCount.toNat)
    (h1 : slotAddr o k ≤ a) (h2 : a < slotAddr o k + 4) : inRange (outputRegion .batch o) a = true :=
  inRange_outputAddr (op := .batch) (k := k) (by rwa [outputWords_batch]) h1 h2

/-- What a soft reset makes of the output words of the command it abandons. -/
theorem abandon_onlyWords (r : Running) (s : State) :
    OnlyWords (fun a => inRange (outputRegion r.op r.latched) a = true) s
      ((List.range (outputWords r.op r.latched)).foldl (abandonWord r) s) :=
  OnlyWords.foldl (fun u k hk => abandonWord_onlyWords r u k fun _ h1 h2 =>
    inRange_outputAddr (List.mem_range.1 hk) h1 h2) s

/-! ## A command that nothing disturbs -/

/-- A running command that is still as `undisturbed` found it when it was accepted. -/
structure AsAccepted (op : Op) (s : State) (r : Running) : Prop where
  op : r.op = op
  latched : r.latched = s.regs
  before : r.before = s.mem
  raced : r.raced = []
  stale : r.stale = s.stale

/-- None of its jobs is tainted. -/
theorem tainted_of_undisturbed {op : Op} {s : State} {r : Running} (h : undisturbed op s) (k : AsAccepted op s r) {j : Nat}
    (hj : j < jobsOf op s.regs) : tainted s.platform r j = false := by
  simp only [tainted, k.op, k.latched, k.before, k.raced, h.1, h.2.1 j hj, List.contains_nil, Bool.false_or,
    List.any_eq_false, breached, k.stale, Bool.not_eq_true]
  exact fun g hg b hb => (h.2.2 b hb).2 j hj g hg

/-- None of its output words is lost. -/
theorem kept_of_undisturbed {op : Op} {s : State} {r : Running} (h : undisturbed op s) (k : AsAccepted op s r) {j i : Nat}
    (hj : j < jobsOf op s.regs) (hi : i < outputWords op s.regs) :
    wordLost s.platform r j (outputAddr op s.regs i) = false := by
  simp only [wordLost, tainted_of_undisturbed h k hj, Bool.false_or, breached, k.stale, List.any_eq_false, Bool.not_eq_true]
  intro b hb
  rw [← Bool.not_eq_true]
  intro hm
  have hr := (h.2.2 b hb).1
  rw [← Bool.not_eq_true] at hr
  obtain ⟨a, ha, h1, h2⟩ := (meets_iff _ _).1 hm
  refine hr ((meets_iff _ _).2 ⟨a, ha, ?_⟩)
  have hin := inRange_outputAddr hi h1 h2
  simpa only [inRange, decide_eq_true_eq] using hin

end Sys2Proof.Machine
end

