-- ==== Sys2Proof/Laws/Batch.lean ====
section
/-! SUPPORT. What a step of a running BATCH can be, and what it keeps: one inversion lemma for the moves, and the
bookkeeping of BatchInv move by move (44_batch R350 to R371). -/

namespace Sys2Proof.Machine

/-! ## The lanes -/

/-- The lane of a job. -/
theorem mem_inFlight {r : Running} {j : Nat} : j ∈ inFlight r ↔ ∃ l ∈ r.lanes, l.job = j := by
  simp [inFlight]

/-- A job that a lane can evaluate or finish is in flight. -/
theorem mem_evaluatedJobs {r : Running} {j : Nat} :
    j ∈ evaluatedJobs r ↔ ∃ l ∈ r.lanes, l.job = j ∧ j ∉ r.hung ∧ l.eval.isSome = true := by
  simp only [evaluatedJobs, movable, List.mem_map, List.mem_filter, Bool.not_eq_true', List.contains_eq_mem,
    decide_eq_false_iff_not]
  constructor
  · rintro ⟨l, ⟨⟨h1, h2⟩, h3⟩, rfl⟩; exact ⟨l, h1, rfl, h2, h3⟩
  · rintro ⟨l, h1, rfl, h2, h3⟩; exact ⟨l, ⟨⟨h1, h2⟩, h3⟩, rfl⟩

theorem mem_unevaluatedJobs {r : Running} {j : Nat} :
    j ∈ unevaluatedJobs r ↔ ∃ l ∈ r.lanes, l.job = j ∧ j ∉ r.hung ∧ l.eval = none := by
  simp only [unevaluatedJobs, movable, List.mem_map, List.mem_filter, Bool.not_eq_true', List.contains_eq_mem,
    decide_eq_false_iff_not, Option.isNone_iff_eq_none]
  constructor
  · rintro ⟨l, ⟨⟨h1, h2⟩, h3⟩, rfl⟩; exact ⟨l, h1, rfl, h2, h3⟩
  · rintro ⟨l, h1, rfl, h2, h3⟩; exact ⟨l, ⟨⟨h1, h2⟩, h3⟩, rfl⟩

theorem mem_undispatched {r : Running} {j : Nat} :
    j ∈ undispatched r ↔ j < jobCount r ∧ j ∉ r.written ∧ j ∉ inFlight r := by
  simp [undispatched]

theorem batchOver_iff {r : Running} :
    batchOver r = true ↔ r.lanes = [] ∧ (r.abortReq = true ∨ r.written.length = jobCount r) := by
  simp [batchOver]

/-- In a list of lanes that run distinct jobs, one lane holds each job. -/
theorem lane_unique {r : Running} (h : (inFlight r).Nodup) {l l' : Lane} (hl : l ∈ r.lanes) (hl' : l' ∈ r.lanes)
    (he : l.job = l'.job) : l = l' :=
  List.inj_on_of_nodup_map h hl hl' he

/-- The word of a lane whose job is evaluated. -/
theorem laneWord_eq {r : Running} (h : (inFlight r).Nodup) {l : Lane} (hl : l ∈ r.lanes) :
    laneWord r l.job = (l.eval.map Evaluated.word).getD 0 := by
  unfold laneWord
  cases hf : r.lanes.find? fun l' => l'.job == l.job with
  | none =>
    have := List.find?_eq_none.1 hf l hl
    simp at this
  | some l' =>
    have h1 := List.mem_of_find?_eq_some hf
    have h2 := List.find?_some hf
    rw [lane_unique h h1 hl (by simpa using h2)]

/-- Taking one job's lane away. -/
theorem length_filter_lanes {r : Running} (h : (inFlight r).Nodup) {j : Nat} (hj : j ∈ inFlight r) :
    (r.lanes.filter fun l => l.job != j).length + 1 = r.lanes.length := by
  obtain ⟨lanes, hl⟩ : ∃ lanes, lanes = r.lanes := ⟨_, rfl⟩
  simp only [inFlight, ← hl] at h hj ⊢
  clear hl
  induction lanes with
  | nil => simp at hj
  | cons l ls ih =>
    simp only [List.map_cons, List.nodup_cons] at h
    simp only [List.map_cons, List.mem_cons] at hj
    by_cases he : l.job = j
    · have : (ls.filter fun l => l.job != j) = ls := by
        rw [List.filter_eq_self]
        intro x hx
        have : x.job ≠ j := fun hc => h.1 (by rw [he, ← hc]; exact List.mem_map_of_mem hx)
        simpa using this
      simp [he, this]
    · have := ih h.2 (hj.resolve_left (fun hc => he hc.symm))
      simp [he, this]

theorem mem_inFlight_filter {r : Running} {j i : Nat} :
    i ∈ (r.lanes.filter fun l => l.job != j).map Lane.job ↔ i ∈ inFlight r ∧ i ≠ j := by
  simp only [inFlight, List.mem_map, List.mem_filter, bne_iff_ne]
  constructor
  · rintro ⟨l, ⟨h1, h2⟩, rfl⟩; exact ⟨⟨l, h1, rfl⟩, h2⟩
  · rintro ⟨⟨l, h1, rfl⟩, h2⟩; exact ⟨l, ⟨h1, h2⟩, rfl⟩

/-! ## The moves -/

/-- When a move is open to a batch. -/
def MoveOpen (p : Platform) (r : Running) : BatchMove → Prop
  | .dispatch j => r.abortReq = false ∧ r.lanes.length < p.nlanes ∧ j < jobCount r ∧ j ∉ r.written ∧ j ∉ inFlight r
  | .evaluate j => ∃ l ∈ r.lanes, l.job = j ∧ j ∉ r.hung ∧ l.eval = none
  | .finish j => ∃ l ∈ r.lanes, l.job = j ∧ j ∉ r.hung ∧ l.eval.isSome = true
  | .finishAndComplete j => (∃ l ∈ r.lanes, l.job = j ∧ j ∉ r.hung ∧ l.eval.isSome = true) ∧
      batchOver (afterFinish r j) = true
  | .drop j => r.abortReq = true ∧ ∃ l ∈ r.lanes, l.job = j ∧ j ∉ r.hung
  | .complete => batchOver r = true

theorem mem_batchMoves {p : Platform} {r : Running} {b : BatchMove} : b ∈ batchMoves p r ↔ MoveOpen p r b := by
  simp only [batchMoves, List.mem_append]
  cases b with
  | dispatch j =>
    cases ha : r.abortReq <;> by_cases hl : r.lanes.length < p.nlanes <;>
      simp [MoveOpen, ha, hl, mem_undispatched, batchOver]
  | evaluate j =>
    simp only [MoveOpen, List.mem_map, reduceCtorEq, and_false, exists_false, BatchMove.evaluate.injEq,
      exists_eq_right, mem_unevaluatedJobs, false_or]
    constructor
    · intro h
      split at h <;> split at h <;> split at h <;> simp_all
    · intro h; exact .inl (.inl (.inl (.inl h)))
  | finish j =>
    simp only [MoveOpen, List.mem_map, reduceCtorEq, and_false, exists_false, BatchMove.finish.injEq,
      exists_eq_right, mem_evaluatedJobs, or_false]
    constructor
    · intro h
      split at h <;> split at h <;> split at h <;> simp_all
    · intro h; exact .inl (.inl (.inl h))
  | finishAndComplete j =>
    simp only [MoveOpen, List.mem_map, reduceCtorEq, and_false, exists_false, BatchMove.finishAndComplete.injEq,
      exists_eq_right, List.mem_filter, mem_evaluatedJobs, false_or]
    constructor
    · intro h
      split at h <;> split at h <;> split at h <;> simp_all
    · intro h; exact .inl (.inl (.inr h))
  | drop j =>
    cases ha : r.abortReq <;> simp [MoveOpen, ha, movable, batchOver]
    constructor
    · rintro ⟨l, ⟨h1, h2⟩, rfl⟩; exact ⟨l, h1, rfl, h2⟩
    · rintro ⟨l, h1, rfl, h2⟩; exact ⟨l, ⟨h1, h2⟩, rfl⟩
  | complete =>
    simp only [MoveOpen, List.mem_map, reduceCtorEq, and_false, exists_false, false_or]
    constructor
    · intro h
      split at h <;> split at h <;> split at h <;> simp_all
    · intro h; exact .inr (by simp [h])

/-- A step of a batch makes one of the moves open to it, or there is none and nothing changes. -/
theorem batchStep_cases (pick : Nat) (r : Running) (s : State) :
    (batchMoves s.platform r = [] ∧ batchStep pick r s = s) ∨
      ∃ b, MoveOpen s.platform r b ∧ batchStep pick r s = batchMove b r s := by
  unfold batchStep
  cases hm : batchMoves s.platform r with
  | nil => exact .inl ⟨rfl, rfl⟩
  | cons b bs =>
    refine .inr ⟨_, ?_, rfl⟩
    rw [← mem_batchMoves, hm]
    have hlt : pick % (bs.length + 1) < (b :: bs).length := by
      simpa using Nat.mod_lt pick (Nat.succ_pos bs.length)
    rw [List.getD_eq_getElem?_getD, List.getElem?_eq_getElem hlt, Option.getD_some]
    exact List.getElem_mem hlt

/-- Every batch that memory answers has a move open (44_batch R383). -/
theorem batchMoves_ne_nil {s : State} {r : Running} (h : BatchInv s r) (hn : 1 ≤ s.platform.nlanes) (hh : r.hung = [])
    (hw : r.written.Nodup) :
    batchMoves s.platform r ≠ [] := by
  intro hnil
  have hno : ∀ b, ¬MoveOpen s.platform r b := fun b hb => by
    rw [← mem_batchMoves, hnil] at hb; exact absurd hb (by simp)
  cases hl : r.lanes with
  | cons l ls =>
    have hm : l ∈ r.lanes := by rw [hl]; exact List.mem_cons_self
    cases he : l.eval with
    | none => exact hno (.evaluate l.job) ⟨l, hm, rfl, by simp [hh], he⟩
    | some e => exact hno (.finish l.job) ⟨l, hm, rfl, by simp [hh], by simp [he]⟩
  | nil =>
    cases ha : r.abortReq with
    | true => exact hno .complete (batchOver_iff.2 ⟨hl, .inl ha⟩)
    | false =>
      by_cases hc : r.written.length = jobCount r
      · exact hno .complete (batchOver_iff.2 ⟨hl, .inr hc⟩)
      · obtain ⟨j, hj, hnj⟩ : ∃ j, j < jobCount r ∧ j ∉ r.written := by
          by_contra hcon
          push Not at hcon
          have h1 : (List.range (jobCount r)) ⊆ r.written := fun j hj => hcon j (List.mem_range.1 hj)
          have h2 := (List.nodup_range (n := jobCount r)).subperm h1 |>.length_le
          have h3 : r.written ⊆ List.range (jobCount r) := fun j hj => List.mem_range.2 (h.writtenBound j hj)
          have h4 := hw.subperm h3 |>.length_le
          rw [List.length_range] at h2 h4
          omega
        refine hno (.dispatch j) ⟨ha, by rw [hl, List.length_nil]; omega, hj, hnj, ?_⟩
        simp [inFlight, hl]

/-! ## The bookkeeping, move by move -/

/-- A running command's invariant looks at the platform, three fields of STATUS and JOBS_DONE only. -/
theorem RunInv.congr {s t : State} {r : Running} (h : RunInv s r) (h1 : t.platform = s.platform)
    (h2 : t.status.lastOp = s.status.lastOp) (h3 : t.status.done = s.status.done)
    (h4 : t.status.aborted = s.status.aborted) (h5 : r.op = .batch → t.jobsDone = s.jobsDone) : RunInv t r := by
  obtain ⟨a1,a2,a3,a4,a5,a6,a7,a8,a9,a10,a11,a12,a13,a14,a14',a15,a16⟩ := h
  refine ⟨a1, by rw [h2]; exact a2, by rw [h3]; exact a3, by rw [h4]; exact a4, a5, a6, a7, a8, a9, a10, a11,
    by rw [h1]; exact a12, a13, a14, by rw [h1]; exact a14', by rw [h1]; exact a15, fun hb => ?_⟩
  obtain ⟨b1,b2,b3,b4,b5,b6,b7,b8,b9⟩ := a16 hb
  exact ⟨b1, b2, b3, by rw [h1]; exact b4, by rw [h1]; exact b5, by rw [h5 hb]; exact b6, b7, b8, b9⟩

/-- The output words written are written once each. -/
theorem runInv_written_nodup {s : State} {r : Running} (h : RunInv s r) : r.written.Nodup :=
  h.writtenOnce.imp (fun h => Nat.ne_of_lt h)

/-- Writing a result slot: one output word, and the bookkeeping. -/
theorem finishJob_eq (r : Running) (j : Nat) (s : State) :
    finishJob r j s = { writeJobWord r j (slotAddr r.latched j) (laneWord r j) s with
      running := some (afterFinish r j), jobsDone := s.jobsDone + 1 } := by
  have h := (writeJobWord_onlyWords (R := fun _ => True) r j (slotAddr r.latched j) (laneWord r j) s (by simp)).jobsDone
  simp [finishJob, setRun, State.setRunning, State.setJobsDone, h]

/-- Every completion step ends the command. -/
theorem complete_running (s : State) : (complete s).running = none := rfl

theorem batchComplete_running (r : Running) (s : State) : (batchComplete r s).running = none := rfl

/-- Writing a job's slot keeps the bookkeeping. -/
theorem afterFinish_inv {s : State} {r : Running} {j : Nat} (h : RunInv s r) (hop : r.op = .batch)
    (hj : j ∈ inFlight r) : RunInv (finishJob r j s) (afterFinish r j) := by
  have hw := runInv_written_nodup h
  obtain ⟨a1,a2,a3,a4,a5,a6,a7,a8,a9,a10,a11,a12,a13,a14,a14',a15,a16⟩ := h
  obtain ⟨b1,b2,b3,b4,b5,b6,b7,b8,b9⟩ := a16 hop
  have hlen := length_filter_lanes b2 hj
  have hjw := (b3 j hj).2
  have hjl := (b3 j hj).1
  have ho := writeJobWord_onlyWords (R := fun _ => True) r j (slotAddr r.latched j) (laneWord r j) s (by simp)
  rw [finishJob_eq]
  refine ⟨a1, ho.lastOp.trans a2, ho.done.trans a3, ho.aborted.trans a4, a5, a6, a7,
    pairwise_insertAsc a8 hjw, ?_, a10, ?_, ?_, ?_, ?_, ?_, ?_, fun _ => ?_⟩
  · intro h; exact absurd hop h
  · intro h; simp [afterFinish, hop] at h
  · intro h; simp [afterFinish, hop] at h
  · intro h; simp [afterFinish, hop] at h
  · intro h; simp [afterFinish, hop] at h
  · intro h; simp [afterFinish, hop] at h
  · intro h; simp [afterFinish, hop] at h
  · have e1 : (afterFinish r j).lanes = r.lanes.filter fun l => l.job != j := rfl
    have e2 : (afterFinish r j).written = insertAsc j r.written := rfl
    have e3 : ∀ i, i ∈ inFlight (afterFinish r j) ↔ i ∈ inFlight r ∧ i ≠ j := fun i => mem_inFlight_filter
    have e4 : (insertAsc j r.written).length ≤ jobCount r := by
      have hnd : (insertAsc j r.written).Nodup := (pairwise_insertAsc a8 hjw).imp (fun h => Nat.ne_of_lt h)
      have := hnd.subperm (l₂ := List.range (jobCount r)) (fun x hx => by
        rw [List.mem_range]
        rcases (mem_insertAsc _ _ _).1 hx with rfl | hx
        · exact hjl
        · exact b1 x hx)
      simpa using this.length_le
    rw [length_insertAsc] at e4
    refine ⟨?_, ?_, ?_, ?_, ?_, ?_, ?_, ?_, ?_⟩
    · intro x hx
      rcases (mem_insertAsc _ _ _).1 hx with rfl | hx
      · exact hjl
      · exact b1 x hx
    · exact (List.Nodup.sublist ((List.filter_sublist).map _) b2)
    · intro i hi
      obtain ⟨h1, h2⟩ := (e3 i).1 hi
      refine ⟨(b3 i h1).1, fun hc => ?_⟩
      rcases (mem_insertAsc _ _ _).1 hc with h | h
      · exact h2 h
      · exact (b3 i h1).2 h
    · rw [e1]; simp only [ho.platform]; omega
    · intro l hl e he
      simp only [ho.platform]
      exact b5 l (List.mem_filter.1 hl).1 e he
    · rw [e2, length_insertAsc]
      simp only [BitVec.toNat_add, b6]
      have : jobCount r < 2 ^ 32 := r.latched.jobCount.isLt
      simp; omega
    · exact b7
    · rw [e1, e2, length_insertAsc]
      show _ ≤ r.cursor; omega
    · intro ha
      rw [e1, e2, length_insertAsc]
      show r.cursor = _
      have := b9 ha
      omega

/-- Every open move keeps the bookkeeping of a batch that goes on. -/
theorem batchMove_inv {s : State} {r : Running} {b : BatchMove} (h : RunInv s r) (hop : r.op = .batch)
    (hb : MoveOpen s.platform r b) (r' : Running) (hr' : (batchMove b r s).running = some r') :
    RunInv (batchMove b r s) r' := by
  have hw := runInv_written_nodup h
  have h0 := h
  obtain ⟨a1,a2,a3,a4,a5,a6,a7,a8,a9,a10,a11,a12,a13,a14,a14',a15,a16⟩ := h
  obtain ⟨b1,b2,b3,b4,b5,b6,b7,b8,b9⟩ := a16 hop
  cases b with
  | dispatch j =>
    obtain ⟨c1, c2, c3, c4, c5⟩ := hb
    simp only [batchMove, setRun_eq, Option.some.injEq] at hr' ⊢
    subst hr'
    refine ⟨a1, a2, a3, a4, a5, a6, a7, a8, fun h => absurd hop h, a10, a11, by simp [hop],
      by simp [hop], by simp [hop], by simp [hop], by simp [hop], fun _ => ?_⟩
    have e : ∀ (c : Running), c.lanes = r.lanes ++ [⟨j, none⟩] → inFlight c = inFlight r ++ [j] := by
      intro c hc; simp [inFlight, hc]
    have e1 := e { r with cursor := r.cursor + 1, lanes := r.lanes ++ [⟨j, none⟩] } rfl
    refine ⟨b1, ?_, ?_, ?_, ?_, b6, ?_, ?_, ?_⟩
    · rw [e1]
      rw [List.nodup_append]
      exact ⟨b2, by simp, by intro a ha b hb; simp at hb; subst hb; exact fun hc => c5 (hc ▸ ha)⟩
    · intro i hi
      rw [e1, List.mem_append, List.mem_singleton] at hi
      rcases hi with hi | rfl
      · exact b3 i hi
      · exact ⟨c3, c4⟩
    · simp; omega
    · intro l hl e he
      simp only [List.mem_append, List.mem_singleton] at hl
      rcases hl with hl | rfl
      · exact b5 l hl e he
      · simp at he
    · have := b9 c1
      have hs : (inFlight r ++ r.written).Nodup := by
        rw [List.nodup_append]; exact ⟨b2, hw, by intro a ha b hb hab; exact (b3 a ha).2 (hab ▸ hb)⟩
      have hsub : (j :: (inFlight r ++ r.written)).Nodup := by
        rw [List.nodup_cons]; exact ⟨by simp [c4, c5], hs⟩
      have := hsub.subperm (l₂ := List.range (jobCount r)) (fun x hx => by
        rw [List.mem_range]
        simp only [List.mem_cons, List.mem_append] at hx
        rcases hx with rfl | hx | hx
        · exact c3
        · exact (b3 x hx).1
        · exact b1 x hx)
      have := this.length_le
      simp [inFlight] at this
      show r.cursor + 1 ≤ jobCount r; omega
    · simp; omega
    · intro ha; simp; have := b9 ha; omega
  | evaluate j =>
    simp only [batchMove, setRun_eq, Option.some.injEq] at hr' ⊢
    subst hr'
    refine ⟨a1, a2, a3, a4, a5, a6, a7, a8, fun h => absurd hop h, a10, a11, by simp [hop],
      by simp [hop], by simp [hop], by simp [hop], by simp [hop], fun _ => ?_⟩
    have e1 : inFlight { r with lanes := r.lanes.map fun l =>
        if l.job = j then { l with eval := some (batchJob s.platform r.before r.latched j) } else l } = inFlight r := by
      simp only [inFlight, List.map_map]
      apply List.map_congr_left
      intro l _
      simp only [Function.comp]; split <;> rfl
    refine ⟨b1, by rw [e1]; exact b2, by rw [e1]; exact b3, by simpa using b4, ?_, b6, b7, by simpa using b8,
      by simpa using b9⟩
    intro l hl e he
    simp only [List.mem_map] at hl
    obtain ⟨l', hl', rfl⟩ := hl
    split at he <;> rename_i hj
    · simp only [Option.some.injEq] at he
      rw [if_pos hj, ← he, hj]
    · rw [if_neg hj]; exact b5 l' hl' e he
  | finish j =>
    simp only [batchMove] at hr' ⊢
    rw [finishJob_eq] at hr'; simp only [Option.some.injEq] at hr'
    subst hr'
    obtain ⟨l, hl, rfl, -⟩ := hb
    exact afterFinish_inv h0 hop (mem_inFlight.2 ⟨l, hl, rfl⟩)
  | finishAndComplete j => simp [batchMove, batchComplete_running] at hr'
  | drop j =>
    obtain ⟨c1, l, hl, rfl, -⟩ := hb
    simp only [batchMove, setRun_eq, Option.some.injEq] at hr' ⊢
    subst hr'
    refine ⟨a1, a2, a3, a4, a5, a6, a7, a8, fun h => absurd hop h, a10, a11, by simp [hop],
      by simp [hop], by simp [hop], by simp [hop], by simp [hop], fun _ => ?_⟩
    have hlen := length_filter_lanes b2 (mem_inFlight.2 ⟨l, hl, rfl⟩)
    refine ⟨b1, ?_, ?_, ?_, ?_, b6, b7, ?_, ?_⟩
    · exact (List.Nodup.sublist ((List.filter_sublist).map _) b2)
    · intro i hi
      exact b3 i (mem_inFlight_filter.1 hi).1
    · simp only; omega
    · intro l hl e he; exact b5 l (List.mem_filter.1 hl).1 e he
    · simp only; omega
    · intro ha; simp [c1] at ha
  | complete => simp [batchMove, batchComplete_running] at hr'

end Sys2Proof.Machine
end

