-- ==== Sys2Proof/Laws/GolombRice.lean ====
section
/-! SUPPORT. What one Golomb-Rice code reads and gives, and the form of the count prefix. -/

namespace Sys2Proof.Machine

theorem length_bitsOf (b : List Byte) : (bitsOf b).length = 8 * b.length := by
  induction b with
  | nil => rfl
  | cons x xs ih => simp only [bitsOf, List.length_cons, ih]; omega

theorem bitsOf_append (a b : List Byte) : bitsOf (a ++ b) = bitsOf a ++ bitsOf b := by
  induction a with
  | nil => rfl
  | cons x xs ih => simp [bitsOf, ih]

/-- Every outcome of the unary part (42_golomb_rice R264): on success q - q0 one-bits and a zero-bit were read and the bound
was never reached; on error the bits read are one-bits. -/
theorem unary_ok (f p q0 : Nat) (bs : List Bool) (q : Nat) (rest : List Bool) (h : unary f p q0 bs = .ok (q, rest)) :
    ∃ k, q = q0 + k ∧ bs = List.replicate k true ++ false :: rest ∧ (k = 0 ∨ q * 2 ^ p < f) := by
  induction bs generalizing q0 with
  | nil => simp [unary] at h
  | cons b bs ih =>
    cases b with
    | false =>
      simp only [unary, Except.ok.injEq, Prod.mk.injEq] at h
      exact ⟨0, by omega, by simp [h.2], .inl rfl⟩
    | true =>
      simp only [unary] at h
      split at h
      · simp at h
      · rename_i hb
        obtain ⟨k, hq, hbs, hk⟩ := ih (q0 + 1) h
        refine ⟨k + 1, by omega, by simp [hbs, List.replicate_succ], .inr ?_⟩
        rcases hk with rfl | hk
        · subst hq; exact not_le.1 hb
        · exact hk

theorem unary_of_replicate (f p q0 k : Nat) (rest : List Bool) (h : k = 0 ∨ (q0 + k) * 2 ^ p < f) :
    unary f p q0 (List.replicate k true ++ false :: rest) = .ok (q0 + k, rest) := by
  induction k generalizing q0 with
  | zero => simp [unary]
  | succ k ih =>
    have hlt : (q0 + (k + 1)) * 2 ^ p < f := by simpa using h
    have hmono : (q0 + 1) * 2 ^ p ≤ (q0 + (k + 1)) * 2 ^ p := Nat.mul_le_mul_right _ (by omega)
    simp only [List.replicate_succ, List.cons_append, unary]
    rw [if_neg (by omega), ih (q0 + 1) (.inr (by rwa [show q0 + 1 + k = q0 + (k + 1) by omega]))]
    simp only [Except.ok.injEq, Prod.mk.injEq, and_true]
    omega

/-- The remainder reads p bits, most significant first (42_golomb_rice R265). -/
theorem remainder_ok (p r0 : Nat) (bs : List Bool) (r : Nat) (rest : List Bool)
    (h : remainder p r0 bs = .ok (r, rest)) :
    ∃ low < 2 ^ p, r = r0 * 2 ^ p + low ∧ ∃ bits, bits.length = p ∧ bs = bits ++ rest := by
  induction p generalizing r0 bs with
  | zero =>
    simp only [remainder, Except.ok.injEq, Prod.mk.injEq] at h
    exact ⟨0, by simp, by simp [h.1], [], rfl, by simp [h.2]⟩
  | succ p ih =>
    cases bs with
    | nil => simp [remainder] at h
    | cons b bs =>
      obtain ⟨low, hlow, hr, bits, hbits, hbs⟩ := ih (2 * r0 + b.toNat) bs h
      refine ⟨b.toNat * 2 ^ p + low, ?_, ?_, b :: bits, by simp [hbits], by simp [hbs]⟩
      · have : b.toNat ≤ 1 := by cases b <;> simp
        have : b.toNat * 2 ^ p ≤ 2 ^ p := by nlinarith [Nat.two_pow_pos p]
        rw [pow_succ]; omega
      · rw [hr, pow_succ]; ring

/-- Reading back the p low bits of d, most significant first (30_encoding R163). -/
theorem remainder_of_bits (p r0 d : Nat) (rest : List Bool) :
    remainder p r0 (((List.range p).map fun i => d.testBit (p - 1 - i)) ++ rest) = .ok (r0 * 2 ^ p + d % 2 ^ p, rest) := by
  induction p generalizing r0 with
  | zero => simp [remainder, Nat.mod_one]
  | succ p ih =>
    have hsplit : ((List.range (p + 1)).map fun i => d.testBit (p + 1 - 1 - i))
        = d.testBit p :: (List.range p).map fun i => d.testBit (p - 1 - i) := by
      rw [List.range_succ_eq_map, List.map_cons, List.map_map]
      congr 1
      apply List.map_congr_left
      intro i _
      simp only [Function.comp]
      congr 1
      omega
    rw [hsplit, List.cons_append, remainder, ih]
    have hbit : d % 2 ^ (p + 1) = (d.testBit p).toNat * 2 ^ p + d % 2 ^ p := by
      rw [Nat.testBit_eq_decide_div_mod_eq, Nat.mod_pow_succ]
      have h2 : d / 2 ^ p % 2 = 0 ∨ d / 2 ^ p % 2 = 1 := by omega
      rcases h2 with h | h <;> simp [h]; omega
    rw [hbit, pow_succ]
    congr 2
    ring

/-- What one code gives (42_golomb_rice R266): the delta d, whose quotient's one-bits, zero-bit and p more bits were read. -/
theorem oneCode_ok (f p : Nat) (bs : List Bool) (d : Nat) (rest : List Bool) (h : oneCode f p bs = .ok (d, rest)) :
    bs.length = rest.length + (d / 2 ^ p + 1 + p) ∧ (d / 2 ^ p = 0 ∨ d / 2 ^ p * 2 ^ p < f) ∧
      ∃ used, bs = used ++ rest := by
  unfold oneCode at h
  split at h
  · simp at h
  · rename_i q bs' hu
    split at h
    · simp at h
    · rename_i r bs'' hr
      simp only [Except.ok.injEq, Prod.mk.injEq] at h
      obtain ⟨rfl, rfl⟩ := h
      obtain ⟨k, hq, hbs, hk⟩ := unary_ok f p 0 bs q bs' hu
      obtain ⟨low, hlow, hrl, bits, hbits, hbs'⟩ := remainder_ok p 0 bs' r bs'' hr
      have hr' : r = low := by simpa using hrl
      have hdiv : (q * 2 ^ p + r) / 2 ^ p = q := by
        rw [hr', Nat.add_comm, Nat.add_mul_div_right _ _ (Nat.two_pow_pos p), Nat.div_eq_of_lt hlow, Nat.zero_add]
      rw [hdiv]
      refine ⟨?_, ?_, List.replicate k true ++ false :: bits, by simp [hbs, hbs']⟩
      · rw [hbs, hbs']; simp [hbits]; omega
      · rcases hk with rfl | hk
        · exact .inl (by omega)
        · exact .inr hk

/-- Reading back the code of d (30_encoding R163), if d is small enough for the bound. -/
theorem oneCode_of_bits (f p d : Nat) (rest : List Bool) (h : d < f) :
    oneCode f p (List.replicate (d / 2 ^ p) true ++
      (false :: (List.range p).map fun i => d.testBit (p - 1 - i)) ++ rest) = .ok (d, rest) := by
  have hq : d / 2 ^ p * 2 ^ p ≤ d := Nat.div_mul_le_self d (2 ^ p)
  have hu := unary_of_replicate f p 0 (d / 2 ^ p) (((List.range p).map fun i => d.testBit (p - 1 - i)) ++ rest)
    (.inr (by rw [Nat.zero_add]; omega))
  unfold oneCode
  rw [List.append_assoc, List.cons_append, hu]
  simp only [Nat.zero_add]
  rw [remainder_of_bits]
  simp only [Nat.zero_mul, Nat.zero_add, Except.ok.injEq, Prod.mk.injEq, and_true]
  have := Nat.div_add_mod d (2 ^ p)
  rw [Nat.mul_comm] at this
  exact this

/-- What the codes give when they all decode (42_golomb_rice R271). -/
theorem decodeCodes_ok (f p n acc : Nat) (bs : List Bool) (h : (decodeCodes f p n acc bs).code = none) :
    (decodeCodes f p n acc bs).out.length = n ∧ (∀ v ∈ (decodeCodes f p n acc bs).out, acc ≤ v ∧ v < f) ∧
      (decodeCodes f p n acc bs).out.Pairwise (· ≤ ·) ∧ ∃ used, bs = used ++ (decodeCodes f p n acc bs).rest := by
  induction n generalizing acc bs with
  | zero => simp [decodeCodes]
  | succ n ih =>
    simp only [decodeCodes] at h ⊢
    cases hc : oneCode f p bs with
    | error e => simp [hc] at h
    | ok dr =>
      obtain ⟨d, rest⟩ := dr
      simp only [hc] at h ⊢
      by_cases hf : acc + d ≥ f
      · simp [hf] at h
      · rw [if_neg hf] at h ⊢
        obtain ⟨h1, h2, h3, used, h4⟩ := ih (acc + d) rest h
        obtain ⟨-, -, used', hu'⟩ := oneCode_ok f p bs d rest hc
        refine ⟨by simp [h1], ?_, ?_, used' ++ used, by rw [List.append_assoc, ← h4, hu']⟩
        · intro v hv
          rcases List.mem_cons.1 hv with rfl | hv
          · exact ⟨by omega, by omega⟩
          · have := h2 v hv; exact ⟨by omega, this.2⟩
        · exact List.pairwise_cons.2 ⟨fun v hv => (h2 v hv).1, h3⟩

/-- The decoder never appends more values than the count. -/
theorem length_decodeCodes_le (f p n acc : Nat) (bs : List Bool) : (decodeCodes f p n acc bs).out.length ≤ n := by
  induction n generalizing acc bs with
  | zero => simp [decodeCodes]
  | succ n ih =>
    simp only [decodeCodes]
    split
    · simp
    · split
      · simp
      · simpa using ih _ _

/-- A parsed count is within the capacity, and its prefix lies in the buffer. -/
theorem parsePrefix_ok {b : List Byte} {n plen : Nat} (h : parsePrefix b = .ok n plen) :
    n ≤ 4096 ∧ plen ≤ b.length ∧ 1 ≤ plen := by
  have hcap : ∀ k l, prefixCapacity k l = .ok n plen → n ≤ 4096 ∧ plen = l := by
    intro k l hk
    unfold prefixCapacity at hk
    split at hk
    · simp at hk
    · rename_i hle
      simp only [Prefix.ok.injEq] at hk
      simp only [Config.filterCap] at hle
      omega
  have hlong : ∀ rest w lo, prefixLong rest w lo = .ok n plen → n ≤ 4096 ∧ plen = 1 + w ∧ w ≤ rest.length := by
    intro rest w lo hk
    unfold prefixLong at hk
    split at hk
    · simp at hk
    · split at hk
      · simp at hk
      · rename_i hle _
        have := hcap _ _ hk
        omega
  cases b with
  | nil => simp [parsePrefix] at h
  | cons b0 rest =>
    simp only [parsePrefix] at h
    simp only [List.length_cons]
    split at h
    · have := hcap _ _ h; omega
    · split at h
      · have := hlong _ _ _ h; omega
      · split at h
        · have := hlong _ _ _ h; omega
        · have := hlong _ _ _ h; omega

/-- GRDecode gives at most FILTER_CAP values (42_golomb_rice R271, 10_state R55). -/
theorem length_grDecode_le (b : List Byte) (m p : Nat) : (grDecode b m p).out.length ≤ 4096 := by
  unfold grDecode
  split
  · simp
  · rename_i n plen h
    exact le_trans (length_decodeCodes_le _ _ _ _ _) (parsePrefix_ok h).1

end Sys2Proof.Machine
end

