-- ==== Sys2Proof/Laws/Core.lean ====
section
/-! SUPPORT. What one step of the core can be, what it keeps and what it leaves unchanged (30_encoding R154, 20_memory
R110). -/

namespace Sys2Proof.Machine

/-- The values still to be dealt with. -/
theorem mem_valuesLeft {p : Platform} {r : Running} {e : Evaluated} {i : Nat} :
    i ∈ valuesLeft p r e ↔ i < valuesDue p r e ∧ i ∉ r.written := by simp [valuesLeft]

/-- An undisturbed DECODE writes the values it decoded. -/
theorem valuesDue_of_untainted {p : Platform} {r : Running} (h : tainted p r 0 = false) (e : Evaluated) :
    valuesDue p r e = e.fv.length := by simp [valuesDue, h]

/-- A DECODE deals with FILTER_CAP values at most. -/
theorem valuesDue_le (p : Platform) (r : Running) {e : Evaluated} (h : e.fv.length ≤ Config.filterCap) :
    valuesDue p r e ≤ Config.filterCap := by
  unfold valuesDue; split
  · exact Nat.le_refl _
  · exact h

/-- A step of a DECODE decodes, writes one value, or completes. -/
theorem decodeStep_cases (pick : Nat) (r : Running) (s : State) :
    (r.eval = none ∧ decodeStep pick r s =
        setRun { r with eval := some (Machine.decodeEval s.platform r.before r.latched) } s) ∨
      (∃ e i, r.eval = some e ∧ i < valuesDue s.platform r e ∧ i ∉ r.written ∧ decodeStep pick r s = writeValue r e i s) ∨
      (∃ e, r.eval = some e ∧ valuesLeft s.platform r e = [] ∧ decodeStep pick r s = decodeComplete r e s) := by
  unfold decodeStep
  cases he : r.eval with
  | none => exact .inl ⟨rfl, rfl⟩
  | some e =>
    cases hv : valuesLeft s.platform r e with
    | nil => exact .inr (.inr ⟨e, rfl, hv, by simp [hv]⟩)
    | cons i is =>
      have hlt : pick % (is.length + 1) < (i :: is).length := by
        simpa using Nat.mod_lt pick (Nat.succ_pos is.length)
      have hm : (i :: is).getD (pick % (is.length + 1)) i ∈ valuesLeft s.platform r e := by
        rw [hv, List.getD_eq_getElem?_getD, List.getElem?_eq_getElem hlt, Option.getD_some]
        exact List.getElem_mem hlt
      obtain ⟨h1, h2⟩ := mem_valuesLeft.1 hm
      exact .inr (.inl ⟨e, _, rfl, h1, h2, by simp [hv]⟩)

/-- A DECODE writes at most FILTER_CAP values. -/
theorem length_decodeEval_le (p : Platform) (m : Memory) (o : Operands) : (decodeEval p m o).fv.length ≤ Config.filterCap := by
  unfold decodeEval; split
  · simp
  · exact length_grDecode_le _ _ _

/-- A HASH's step ends it. -/
theorem hashComplete_running (r : Running) (s : State) : (hashComplete r s).running = none := by
  unfold hashComplete; split
  · rfl
  · split <;> rfl

/-- A DECODE's completion step ends it. -/
theorem decodeComplete_running (r : Running) (e : Evaluated) (s : State) : (decodeComplete r e s).running = none := by
  unfold decodeComplete; split <;> rfl

/-- A MATCH's completion step ends it. -/
theorem matchComplete_running (r : Running) (e : Evaluated) (s : State) : (matchComplete r e s).running = none := by
  unfold matchComplete; split <;> rfl

/-- Every step of a running command keeps its bookkeeping. -/
theorem runStep_inv {s : State} {r : Running} (pick : Nat) (hr : s.running = some r) (h : RunInv s r) (r' : Running)
    (hr' : (runStep pick r s).running = some r') : RunInv (runStep pick r s) r' := by
  have h0 := h
  obtain ⟨a1,a2,a3,a4,a5,a6,a7,a8,a9,a10,a11,a12,a13,a14,a14',a15,a16⟩ := h
  cases hop : r.op with
  | hash => simp [runStep, hop, hashComplete_running] at hr'
  | map => simp [runStep, hop, mapComplete, complete_running] at hr'
  | decode =>
    simp only [runStep, hop] at hr' ⊢
    obtain ⟨he, hd⟩ | ⟨e, i, he, h1, h2, hd⟩ | ⟨e, he, -, hd⟩ := decodeStep_cases pick r s
    · rw [hd, setRun_eq] at hr' ⊢
      simp only [Option.some.injEq] at hr'
      subst hr'
      refine ⟨a1, a2, a3, a4, a5, a6, a7, a8, a9, by simp [hop], by simp [hop], ?_, by simp, a14, ?_,
        by simp [hop], by simp [hop]⟩
      · intro _ e he; simpa using he.symm
      · intro _ _ e _ i hi; rw [a13 hop he] at hi; simp at hi
    · obtain ⟨t, ht, hw⟩ := writeValue_cases (R := fun _ => True) r e i s (by simp)
      rw [hd, hw, setRun_eq] at hr' ⊢
      simp only [Option.some.injEq] at hr'
      subst hr'
      have hle : e.fv.length ≤ Config.filterCap := by rw [a12 hop e he]; exact length_decodeEval_le _ _ _
      refine ⟨a1, ht.lastOp.trans a2, ht.done.trans a3, ht.aborted.trans a4, a5, a6, a7, pairwise_insertAsc a8 h2, a9,
        by simp [hop], by simp [hop], ?_, by simp [he], ?_, ?_, by simp [hop], by simp [hop]⟩
      · intro _ e' he'; simp only [ht.platform]; exact a12 hop e' he'
      · intro _ k hk
        rcases (mem_insertAsc _ _ _).1 hk with rfl | hk
        · exact Nat.lt_of_lt_of_le h1 (valuesDue_le _ _ hle)
        · exact a14 hop k hk
      · intro _ hn e' he' k hk
        simp only [he, Option.some.injEq] at he'; subst he'
        have hn' : tainted s.platform r 0 = false := by rw [ht.platform] at hn; exact hn
        rcases (mem_insertAsc _ _ _).1 hk with rfl | hk
        · rwa [valuesDue_of_untainted hn'] at h1
        · exact a14' hop hn' e he k hk
    · rw [hd, decodeComplete_running] at hr'; simp at hr'
  | matchFilter =>
    simp only [runStep, hop] at hr' ⊢
    unfold matchStep at hr' ⊢
    cases he : r.eval with
    | none =>
      simp only [he, setRun_eq, Option.some.injEq] at hr' ⊢
      subst hr'
      refine ⟨a1, a2, a3, a4, a5, a6, a7, a8, a9, by simp [hop], by simpa [hop] using a11,
        by simp [hop], by simp, by simp [hop], by simp [hop], ?_, by simp [hop]⟩
      intro _ e he; simpa using he.symm
    | some e => simp [he, matchComplete_running] at hr'
  | batch =>
    simp only [runStep, hop] at hr' ⊢
    obtain ⟨-, hd⟩ | ⟨b, hb, hd⟩ := batchStep_cases pick r s
    · rw [hd] at hr' ⊢; rw [hr] at hr'; simp only [Option.some.injEq] at hr'; subst hr'; exact h0
    · rw [hd] at hr' ⊢; exact batchMove_inv h0 hop hb r' hr'

/-! ## What a core step leaves unchanged -/

/-- From s to t, the machine outside a running command's reach is unchanged -/
structure CoreFrame (r : Running) (s t : State) : Prop where
  platform : t.platform = s.platform
  irqEn : t.irqEn = s.irqEn
  regs : t.regs = s.regs
  resetIn : t.resetIn = s.resetIn
  agenda : t.agenda = s.agenda
  observed : t.observed = s.observed
  lastOp : t.status.lastOp = s.status.lastOp
  results : t.running.isSome = true → t.result0 = s.result0 ∧ t.result1 = s.result1
  mem : ∀ a, inRange (outputRegion r.op r.latched) a = false → t.mem.read a = s.mem.read a
  wf : s.mem.wf → t.mem.wf
  batch : r.op ≠ .batch → t.jobsDone = s.jobsDone ∧ t.status.aborted = s.status.aborted
  err : r.op ≠ .hash → t.status.err = s.status.err ∧ t.status.errCode = s.status.errCode
  errBoth : s.status.err = s.status.errCode.isSome → t.status.err = t.status.errCode.isSome
  words : r.op = .hash ∨ r.op = .map ∨ r.op = .matchFilter → t.mem = s.mem ∧ t.status.busErr = s.status.busErr
  result1 : r.op = .hash ∨ r.op = .map ∨ r.op = .batch → t.result1 = s.result1
  result0 : r.op = .batch → t.result0 = s.result0
  stale : t.stale = s.stale

theorem CoreFrame.rfl' (r : Running) (s : State) : CoreFrame r s s := by
  constructor <;> simp

/-- Output words written inside the output region. -/
theorem onlyWords_frame {r : Running} {s t : State}
    (h : OnlyWords (fun a => inRange (outputRegion r.op r.latched) a = true) s t) (hop : r.op = .decode ∨ r.op = .batch) :
    CoreFrame r s t := by
  constructor
  · exact h.platform
  · exact h.irqEn
  · exact h.regs
  · exact h.resetIn
  · exact h.agenda
  · exact h.observed
  · exact h.lastOp
  · exact fun _ => ⟨h.result0, h.result1⟩
  · intro a ha; exact h.2.1 a (by simp [ha])
  · exact h.2.2
  · exact fun _ => ⟨h.jobsDone, h.aborted⟩
  · exact fun _ => ⟨h.err, h.errCode⟩
  · rw [h.err, h.errCode]; exact id
  · rcases hop with h | h <;> simp [h]
  · intro _; exact h.result1
  · intro _; exact h.result0
  · exact h.stale

/-- Writing a result slot. -/
theorem finishJob_frame {r : Running} {s : State} {j : Nat} (hop : r.op = .batch) (hj : j < jobCount r) :
    CoreFrame r s (finishJob r j s) := by
  have ho := writeJobWord_onlyWords (R := fun a => inRange (outputRegion r.op r.latched) a = true)
    r j (slotAddr r.latched j) (laneWord r j) s (fun a h1 h2 => by rw [hop]; exact inRange_slotAddr hj h1 h2)
  have h := onlyWords_frame ho (.inr hop)
  rw [finishJob_eq]
  obtain ⟨x1,x2,x3,x4,x5,x6,x7,x8,x9,x10,x11,x12,x13,x14,x15,x16,x17⟩ := h
  constructor <;> first | assumption | exact fun _ => ⟨ho.result0, ho.result1⟩ | simp [hop]

/-- A BATCH's completion step. -/
theorem batchComplete_frame {r : Running} {s : State} (hop : r.op = .batch) : CoreFrame r s (batchComplete r s) := by
  simp only [batchComplete, complete_eq]
  constructor <;> simp [hop]

/-- One change after another, the command still running in between. -/
theorem CoreFrame.trans {r r' : Running} {s t u : State} (h : CoreFrame r s t) (k : CoreFrame r' t u) (h1 : r'.op = r.op)
    (h2 : r'.latched = r.latched) (hm : t.running.isSome = true): CoreFrame r s u := by
  obtain ⟨x1,x2,x3,x4,x5,x6,x7,x8,x9,x10,x11,x12,x13,x14,x15,x16,x17⟩ := h
  obtain ⟨y1,y2,y3,y4,y5,y6,y7,y8,y9,y10,y11,y12,y13,y14,y15,y16,y17⟩ := k
  simp only [h1, h2] at *
  constructor
  · exact y1.trans x1
  · exact y2.trans x2
  · exact y3.trans x3
  · exact y4.trans x4
  · exact y5.trans x5
  · exact y6.trans x6
  · exact y7.trans x7
  · intro hu; exact ⟨(y8 hu).1.trans (x8 hm).1, (y8 hu).2.trans (x8 hm).2⟩
  · intro a ha; exact (y9 a ha).trans (x9 a ha)
  · exact fun w => y10 (x10 w)
  · intro ho; exact ⟨(y11 ho).1.trans (x11 ho).1, (y11 ho).2.trans (x11 ho).2⟩
  · intro ho; exact ⟨(y12 ho).1.trans (x12 ho).1, (y12 ho).2.trans (x12 ho).2⟩
  · exact fun w => y13 (x13 w)
  · intro ho; exact ⟨(y14 ho).1.trans (x14 ho).1, (y14 ho).2.trans (x14 ho).2⟩
  · intro ho; exact (y15 ho).trans (x15 ho)
  · intro ho; exact (y16 ho).trans (x16 ho)
  · exact y17.trans x17

/-- Bookkeeping alone. -/
theorem setRun_frame (r r' : Running) (s : State) : CoreFrame r s (setRun r' s) := by
  rw [setRun_eq]; constructor <;> simp

/-- What every step of a running command leaves unchanged. -/
theorem runStep_frame {s : State} {r : Running} (pick : Nat) (h : RunInv s r)
    (hfit : ∀ e, r.op = .decode → r.eval = some e → e.fv.length ≤ Config.filterCap) :
    CoreFrame r s (runStep pick r s) := by
  have h0 := h
  cases hop : r.op with
  | hash =>
    simp only [runStep, hop]
    unfold hashComplete; split
    · simp only [complete_eq, cmdError_eq]; constructor <;> simp [hop]
    · split
      · simp only [complete_eq, draw_eq, State.setResult0]; constructor <;> simp [hop]
      · simp only [complete_eq, State.setResult0]; constructor <;> simp [hop]
  | map =>
    simp only [runStep, hop, mapComplete, complete_eq, State.setResult0]; constructor <;> simp [hop]
  | decode =>
    simp only [runStep, hop]
    obtain ⟨he, hd⟩ | ⟨e, i, he, h1, h2, hd⟩ | ⟨e, he, -, hd⟩ := decodeStep_cases pick r s
    · rw [hd]; exact setRun_frame _ _ _
    · obtain ⟨t, ht, hw⟩ := writeValue_cases (R := fun a => inRange (outputRegion r.op r.latched) a = true) r e i s
        (fun a k1 k2 => by
          rw [hop]; exact inRange_valueAddr (Nat.lt_of_lt_of_le h1 (valuesDue_le _ _ (hfit e hop he))) k1 k2)
      have h := onlyWords_frame ht (.inl hop)
      rw [hd, hw, setRun_eq]
      obtain ⟨x1,x2,x3,x4,x5,x6,x7,x8,x9,x10,x11,x12,x13,x14,x15,x16,x17⟩ := h
      constructor <;> first | assumption | exact fun _ => ⟨ht.result0, ht.result1⟩
    · rw [hd]
      unfold decodeComplete
      split
      · simp only [complete_eq, draw_eq, State.setResult0, State.setResult1]; constructor <;> simp [hop]
      · simp only [complete_eq, State.setResult0, State.setResult1]; constructor <;> simp [hop]
  | matchFilter =>
    simp only [runStep, hop]
    unfold matchStep
    cases he : r.eval with
    | none => exact setRun_frame _ _ _
    | some e => 
      simp only [matchComplete]
      split
      · simp only [complete_eq, draw_eq, State.setResult0, State.setResult1]; constructor <;> simp [hop]
      · simp only [complete_eq, State.setResult0, State.setResult1]; constructor <;> simp [hop]
  | batch =>
    simp only [runStep, hop]
    obtain ⟨-, hd⟩ | ⟨b, hb, hd⟩ := batchStep_cases pick r s
    · rw [hd]; exact CoreFrame.rfl' r s
    · rw [hd]
      obtain ⟨b1,b2,b3,b4,b5,b6,b7,b8,b9⟩ := h0.batch hop
      cases b with
      | dispatch j => exact setRun_frame _ _ _
      | evaluate j => exact setRun_frame _ _ _
      | drop j => exact setRun_frame _ _ _
      | complete => exact batchComplete_frame hop
      | finish j =>
        obtain ⟨l, hl, rfl, -⟩ := hb
        exact finishJob_frame hop (b3 _ (mem_inFlight.2 ⟨l, hl, rfl⟩)).1
      | finishAndComplete j =>
        obtain ⟨⟨l, hl, rfl, -⟩, -⟩ := hb
        have hj := (mem_inFlight.2 ⟨l, hl, rfl⟩)
        refine (finishJob_frame hop (b3 _ hj).1).trans (batchComplete_frame (r := afterFinish r l.job) hop)
          rfl rfl ?_
        rw [finishJob_eq]; rfl

/-- What every core step leaves unchanged. -/
theorem coreStep_frame {s : State} {r : Running} (pick : Nat) (hr : s.running = some r) (h : RunInv s r) :
    CoreFrame r s (coreStep pick s) := by
  simp only [coreStep, hr]
  split
  · refine runStep_frame pick h ?_
    intro e hop he
    rw [h.decodeEval hop e he]; exact length_decodeEval_le _ _ _
  · exact CoreFrame.rfl' r s

/-- An idle core does nothing. -/
theorem coreStep_none {s : State} (pick : Nat) (h : s.running = none) : coreStep pick s = s := by
  simp [coreStep, h]

/-- Every core step keeps the bookkeeping of the running command. -/
theorem coreStep_run_inv {s : State} {r : Running} (pick : Nat) (hr : s.running = some r) (h : RunInv s r) (r' : Running)
    (hr' : (coreStep pick s).running = some r') : RunInv (coreStep pick s) r' := by
  simp only [coreStep, hr] at hr' ⊢
  split at hr'
  · rename_i hc; rw [if_pos hc]; exact runStep_inv pick hr h r' hr'
  · rename_i hc; rw [if_neg hc]; rw [hr] at hr'; cases hr'; exact h

/-- What acceptance and the host settle of a running command, no core step changes. -/
def SameCommand (r r' : Running) : Prop :=
  r'.op = r.op ∧ r'.latched = r.latched ∧ r'.before = r.before ∧ r'.abortReq = r.abortReq ∧ r'.raced = r.raced ∧
    r'.hung = r.hung ∧ r'.stale = r.stale

/-- A core step leaves the running command the same, or ends it. -/
theorem coreStep_sameCommand {s : State} {r : Running} (pick : Nat) (hr : s.running = some r) (r' : Running)
    (hr' : (coreStep pick s).running = some r') : SameCommand r r' := by
  have same : SameCommand r r := ⟨rfl, rfl, rfl, rfl, rfl, rfl, rfl⟩
  simp only [coreStep, hr] at hr'
  split at hr'
  swap
  · rw [hr] at hr'; cases hr'; exact same
  cases hop : r.op with
  | hash => simp [runStep, hop, hashComplete_running] at hr'
  | map => simp [runStep, hop, mapComplete, complete_running] at hr'
  | decode =>
    simp only [runStep, hop] at hr'
    obtain ⟨-, hd⟩ | ⟨e, i, -, -, -, hd⟩ | ⟨e, -, -, hd⟩ := decodeStep_cases pick r s
    · rw [hd, setRun_eq] at hr'; cases hr'; exact same
    · rw [hd, writeValue, setRun_eq] at hr'; cases hr'; exact same
    · rw [hd, decodeComplete_running] at hr'; cases hr'
  | matchFilter =>
    simp only [runStep, hop, matchStep] at hr'
    split at hr'
    · rw [setRun_eq] at hr'; cases hr'; exact ⟨hop.symm, rfl, rfl, rfl, rfl, rfl, rfl⟩
    · rw [matchComplete_running] at hr'; cases hr'
  | batch =>
    simp only [runStep, hop] at hr'
    obtain ⟨-, hd⟩ | ⟨b, -, hd⟩ := batchStep_cases pick r s
    · rw [hd, hr] at hr'; cases hr'; exact same
    · rw [hd] at hr'
      cases b with
      | dispatch j => rw [batchMove, setRun_eq] at hr'; cases hr'; exact same
      | evaluate j => rw [batchMove, setRun_eq] at hr'; cases hr'; exact same
      | drop j => rw [batchMove, setRun_eq] at hr'; cases hr'; exact same
      | finish j => rw [batchMove, finishJob_eq] at hr'; cases hr'; exact same
      | complete => simp [batchMove, batchComplete, complete_running] at hr'
      | finishAndComplete j => simp [batchMove, batchComplete, complete_running] at hr'

/-- In the reset state no command runs. -/
theorem reset_running {s : State} (h : resetCore s = s) : s.running = none := by rw [← h]; rfl

end Sys2Proof.Machine
end

