-- ==== Sys2Proof/Laws/Decode.lean ====
section
/-! SUPPORT. Decoding as arithmetic on the command word (30_encoding R140 to R142). -/

namespace Sys2Proof

/-- RSVD is 0 exactly when nothing stands above the low byte. -/
theorem reservedZero_iff (w : Word) : (fieldsOf w).reservedZero = true ↔ w.toNat / 256 = 0 := by
  unfold fieldsOf CommandFields.reservedZero
  simp only [beq_iff_eq]
  rw [← BitVec.toNat_inj]
  simp [BitVec.extractLsb'_toNat, Nat.shiftRight_eq_div_pow]
  have := w.isLt
  omega

/-- OPCODE is the low byte. -/
theorem opcode_toNat (w : Word) : (fieldsOf w).opcode.toNat = w.toNat % 256 := by
  simp [fieldsOf, BitVec.extractLsb'_toNat]

/-- The opcode map, both ways. -/
theorem ofOpcode_eq_some (b : BitVec 8) (i : Instr) : ofOpcode b = some i ↔ b.toNat = i.opcode.toNat := by
  unfold ofOpcode
  split <;> cases i <;> simp_all [Instr.opcode]

theorem ofOpcode_eq_none (b : BitVec 8) : ofOpcode b = none ↔ 7 ≤ b.toNat := by
  unfold ofOpcode
  split <;> simp_all
  omega

/-- Everything decoding can give. -/
theorem decode_cases (w : Word) :
    (w.toNat / 256 ≠ 0 ∧ decode w = .error .reservedNotZero) ∨
      (w.toNat / 256 = 0 ∧ 7 ≤ w.toNat % 256 ∧ decode w = .error .undefinedOpcode) ∨
      (w.toNat / 256 = 0 ∧ ∃ i : Instr, w.toNat % 256 = i.opcode.toNat ∧ decode w = .ok i) := by
  unfold decode
  by_cases h : w.toNat / 256 = 0
  · rw [if_pos ((reservedZero_iff w).2 h)]
    cases ho : ofOpcode (fieldsOf w).opcode with
    | none =>
      rw [ofOpcode_eq_none, opcode_toNat] at ho
      exact .inr (.inl ⟨h, ho, rfl⟩)
    | some i =>
      rw [ofOpcode_eq_some, opcode_toNat] at ho
      exact .inr (.inr ⟨h, i, ho, rfl⟩)
  · rw [if_neg (fun k => h ((reservedZero_iff w).1 k))]
    exact .inl ⟨h, rfl⟩

end Sys2Proof
end

