-- ==== Sys2Proof/Laws/Fields.lean ====
section
/-! SUPPORT. The words that are put together from fields, as numbers: STATUS, CFG, PARAMS and the result word (10_state R34,
R36, R40, 30_encoding R171). -/

namespace Sys2Proof.Machine

/-- Two fields side by side. -/
theorem toNat_fields {n m : Nat} (x : BitVec n) (y : BitVec m) :
    (x ++ y).toNat = x.toNat * 2 ^ m + y.toNat := by
  rw [BitVec.toNat_append, ← Nat.shiftLeft_add_eq_or_of_lt y.isLt, Nat.shiftLeft_eq]

/-- The window is 4096 bytes (10_state R31). -/
@[simp] theorem windowSize_eq : Config.windowSize = 4096 := rfl

/-- STATUS (10_state R36). -/
theorem statusWord_toNat (s : State) : (statusWord s).toNat =
    (busy s).toNat + 2 * s.status.done.toNat + 4 * s.status.err.toNat + 8 * s.status.aborted.toNat +
      16 * s.status.busErr.toNat + 256 * (errCodeByte s.status.errCode).toNat +
      65536 * (lastOpByte s.status.lastOp).toNat := by
  unfold statusWord
  simp only [toNat_fields]
  simp
  omega

/-- CFG (10_state R40). -/
theorem cfgWord_toNat (c : Cfg) : (cfgWord c).toNat = c.m.toNat + 2 ^ 24 * c.p.toNat := by
  unfold cfgWord
  simp only [toNat_fields]
  simp; omega

/-- PARAMS (10_state R34). -/
theorem paramsWord_toNat (p : Platform) :
    (paramsWord p).toNat = p.nlanes % 2^16 + 2^16 * (p.candCap % 2^16) + 2 ^ 32 * 4096 := by
  unfold paramsWord
  simp only [toNat_fields]
  simp [Config.filterCap]; omega

/-- A result word (30_encoding R171). -/
theorem resultWord_toNat (c : ResultCode) (n : Option Nat) (b : Bool) :
    (resultWord c n b).toNat = (codeNumber c).toNat + 256 * b.toNat + 65536 * min (n.getD 0) 65535 := by
  unfold resultWord
  simp only [toNat_fields]
  simp; omega

end Sys2Proof.Machine
end

