-- ==== Sys2Proof/Laws/PerInstr.lean ====
section
/-! SUPPORT. Statements about every instruction, one lemma per constructor. -/

namespace Sys2Proof.Laws

/-- Every command is well formed, its word is one the checks pass, and decoding its word gives it back (30_encoding R140 to
R142). -/
def EncodeDecode.Statement (i : Instr) : Prop :=
  i.wellFormed = true ∧ (fieldsOf (encode i)).wellFormed = true ∧ decode (encode i) = .ok i

theorem EncodeDecode.nop : EncodeDecode.Statement .nop := ⟨rfl, rfl, rfl⟩
theorem EncodeDecode.hash : EncodeDecode.Statement .hash := ⟨rfl, rfl, rfl⟩
theorem EncodeDecode.map : EncodeDecode.Statement .map := ⟨rfl, rfl, rfl⟩
theorem EncodeDecode.decode : EncodeDecode.Statement .decode := ⟨rfl, rfl, rfl⟩
theorem EncodeDecode.matchFilter : EncodeDecode.Statement .matchFilter := ⟨rfl, rfl, rfl⟩
theorem EncodeDecode.batch : EncodeDecode.Statement .batch := ⟨rfl, rfl, rfl⟩
theorem EncodeDecode.abort : EncodeDecode.Statement .abort := ⟨rfl, rfl, rfl⟩

end Sys2Proof.Laws
end

