-- ==== Sys2Proof/Tests/Slice0.lean ====
section
/-! SUPPORT. Tests: the checks refuse ill-formed terms, words written out from 30_encoding decode, the vectors of
95_test_vectors, and for every obligation with hypotheses a state or operands that meet all of them. -/

namespace Sys2Proof.Tests

open Sys2Proof Sys2Proof.Machine Sys2Proof.Claims

/-! ## Small states (95_test_vectors, the common memory image) -/

/-- BUS_OK below 0x10000, NLANES 2, CAND_CAP 4, the register window at 0x80000000, IRQ on line 5. -/
def platform : Platform :=
  { nlanes := 2, candCap := 4, bus := [{ base := 0, size := 0x10000, idempotent := true }], coherent := true,
    regBase := 0x80000000, irqLine := 5 }

/-- Bytes placed at addresses. -/
def image (l : List (Nat × List Byte)) : Memory := l.foldl (fun m x => m.writeBytes x.1 x.2) []

/-- "abc", F1 and Wabc of the common image. -/
def mem1 : Memory :=
  image [(0x1000, [0x61, 0x62, 0x63]), (0x2000, [0x01, 0x46, 0x2B, 0x60]), (0x3000, [0x00, 0x10]), (0x3008, [0x03])]

/-- The reset state with this platform and memory. -/
def base (m : Memory) : State := { State.reset with platform := platform, mem := m }

/-- Kt, the key bytes 00 to 0F. -/
def keyed : Operands := { Operands.reset with key0 := 0x0706050403020100, key1 := 0x0F0E0D0C0B0A0908 }

/-- Some registers set. -/
def withRegs (o : Operands) (m : Memory) : State := { base m with regs := o }

/-- Just after the acceptance of op. -/
def running (op : Op) (o : Operands) (m : Memory) : State := acceptance op (withRegs o m)

/-- The bytes at an address of a state after a step. -/
def bytesAt (s : State) (a n : Nat) : List Byte := s.mem.readBytes a n

/-- One step, where it gives a next state. -/
def after (s : State) : State :=
  match step s with
  | .next t => t
  | .fault _ => s
  | .refused _ => s

/-- The host writes a register as the next event. -/
def wr (offset : Nat) (v : Word) (s : State) : State := after { s with agenda := [.regWrite offset 8 v] }

/-! ## The checks refuse ill-formed terms (WellFormed) -/

theorem test_smoke_reserved_set : (CommandFields.mk 0x01 0x1).wellFormed = false := by decide
theorem test_smoke_opcode_undefined : (CommandFields.mk 0x07 0x0).wellFormed = false := by decide
theorem test_smoke_command_legal : (CommandFields.mk 0x06 0x0).wellFormed = true := by decide
theorem test_smoke_no_lanes : { platform with nlanes := 0 }.wellFormed = false := by decide
theorem test_smoke_too_many_lanes : { platform with nlanes := 65536 }.wellFormed = false := by decide
theorem test_smoke_no_candidates : { platform with candCap := 0 }.wellFormed = false := by decide
theorem test_smoke_too_many_candidates : { platform with candCap := 65536 }.wellFormed = false := by decide
theorem test_smoke_platform_legal : platform.wellFormed = true := by decide

/-! ## Words written out from 30_encoding R140, R141: RSVD 63:8 zero, OPCODE 7:0 -/

theorem test_decode_nop : decode (0#56 ++ 0b00000000#8) = .ok .nop := by decide
theorem test_decode_hash : decode (0#56 ++ 0b00000001#8) = .ok .hash := by decide
theorem test_decode_map : decode (0#56 ++ 0b00000010#8) = .ok .map := by decide
theorem test_decode_decode : decode (0#56 ++ 0b00000011#8) = .ok .decode := by decide
theorem test_decode_match : decode (0#56 ++ 0b00000100#8) = .ok .matchFilter := by decide
theorem test_decode_batch : decode (0#56 ++ 0b00000101#8) = .ok .batch := by decide
theorem test_decode_abort : decode (0#56 ++ 0b00000110#8) = .ok .abort := by decide
theorem test_decode_undefined : decode (0#56 ++ 0b11111111#8) = .error .undefinedOpcode := by decide
theorem test_decode_reserved : decode (1#56 ++ 0b00000001#8) = .error .reservedNotZero := by decide
theorem test_decode_top_bit : decode (0x8000000000000001) = .error .reservedNotZero := by decide
theorem test_table_word : decodeTableWord 64 5 = some .batch := by decide

/-! ## Issue (T30) -/

/-- T30.2: an illegal word runs nothing. -/
theorem test_illegal : statusWord (wr 0x020 0x0101 (base [])) = 0x0104 := by decide
/-- T30.5: a MAP during a HASH. -/
theorem test_busy : statusWord (wr 0x020 0x02 (running .hash keyed [])) = 0x00010205 := by decide
/-- T30.7: BAD_CFG outranks ALIGN. -/
theorem test_badcfg_first : statusWord (wr 0x020 0x03
    (withRegs { keyed with cfg := { m := 0, p := 19 }, dstAddr := 0x6002 } [])) = 0x0304 := by decide
/-- T30.8: DST_ADDR = 0x6002. -/
theorem test_align : statusWord (wr 0x020 0x03 (withRegs { keyed with dstAddr := 0x6002 } [])) = 0x0504 := by decide
/-- T30.4: NOP changes nothing anywhere. -/
theorem test_nop : wr 0x020 0x00 (base mem1) = base mem1 := by decide
/-- T44.11: NOP while BUSY(BATCH). -/
theorem test_nop_in_batch : wr 0x020 0x00 (running .batch keyed mem1) = running .batch keyed mem1 := by decide

/-! ## HASH (T40) and MAP (T41) -/

/-- T40.1: the 15-byte message at 0x1100. -/
theorem test_hash : (coreStep 0 (running .hash { keyed with srcAddr := 0x1100, srcLen := 15 }
    (image [(0x1101, [1, 2, 3, 4, 5, 6, 7, 8, 9, 10, 11, 12, 13, 14])]))).result0 = 0xA129CA6149BE45E5 := by decide +kernel
/-- T40.17: a message that crosses 0x10000. -/
theorem test_hash_bus_read : statusWord (coreStep 0 (running .hash { keyed with srcAddr := 0xFFF0, srcLen := 0x20 } []))
    = 0x00010406 := by decide +kernel
/-- T41.4: the largest value, which a truncated product or h mod F gets wrong. -/
theorem test_map_high_half : (coreStep 0 (running .map { keyed with argH := 0xFFFFFFFFFFFFFFFF, argF := 784931 } [])).result0
    = 784930 := by decide
/-- T41.5: h >> 32; and the status of a completed MAP. -/
theorem test_map_shift : (coreStep 0 (running .map { keyed with argH := 0x123456789ABCDEF0, argF := 0x100000000 } [])).result0
    = 0x12345678 := by decide

/-! ## DECODE (T42) -/

/-- T42.22: F3, three values, the last code with q = 2. -/
theorem test_decode_f3 : (grDecode [0x03, 0x40, 0x1C, 0x32, 0x1E, 0x4A, 0xDC, 0x78, 0xAC] 784931 19).out
    = [262595, 401421, 1916472] := by decide +kernel
/-- T42.27: value 2 of F3 falls past BUS_OK: BUSERR, and the command goes on. -/
theorem test_decode_buserr : (writeValue (freshRun .decode (withRegs { keyed with dstAddr := 0xFFF8 } []))
    { word := 0, n := some 3, fv := [262595, 401421, 1916472], cv := [], bitCursor := 0 } 2 (base [])).status.busErr
    = true := by decide +kernel
/-- T42.5, T42.13, T42.14: CAPACITY_EXCEEDED with NSAT 4097, OVERLONG_QUOTIENT, VALUE_RANGE. -/
theorem test_decode_capacity : (decodeEval platform (image [(0x7000, [0xFD, 0x01, 0x10])])
    { keyed with srcAddr := 0x7000, srcLen := 3 }).word = 0x10010011 := by decide +kernel
theorem test_decode_overlong : (decodeEval platform (image [(0x7000, [0x01, 0xC0])])
    { keyed with srcAddr := 0x7000, srcLen := 2 }).word = 0x00010013 := by decide +kernel
theorem test_decode_value_range : (decodeEval platform (image [(0x7000, [0x01, 0xBF, 0xFF, 0xF8])])
    { keyed with srcAddr := 0x7000, srcLen := 4 }).word = 0x00010020 := by decide +kernel

/-! ## MATCH (T43) -/

/-- T43.1, scenario B: F1 against Wabc. -/
theorem test_match : (runJob platform mem1 keyed
    { k0 := keyed.key0, k1 := keyed.key1, fa := 0x2000, lb := 4, wa := 0x3000, w := 1 }).word = 0x00010001 := by decide +kernel
/-- T43.4: the decode error wins over the match. -/
theorem test_match_decode_error : (runJob platform mem1 keyed
    { k0 := keyed.key0, k1 := keyed.key1, fa := 0x2000, lb := 5, wa := 0x3000, w := 1 }).word = 0x00010012 := by decide +kernel

/-! ## BATCH and ABORT (T44, P3) -/

/-- The descriptor {Kt, 0x2000, 4, wa, w} (P3 job 0). -/
def descriptor (wa : List Byte) (w rsvd : Byte) : List Byte :=
  [0x00, 0x01, 0x02, 0x03, 0x04, 0x05, 0x06, 0x07, 0x08, 0x09, 0x0A, 0x0B, 0x0C, 0x0D, 0x0E, 0x0F] ++
    [0x00, 0x20, 0, 0, 0, 0, 0, 0] ++ [0x04, 0, 0, 0, 0, 0, 0, 0] ++ wa ++ [0, 0, 0, 0, 0, 0] ++ [w, 0, 0, 0, 0, 0, 0, 0] ++
    [rsvd, 0, 0, 0, 0, 0, 0, 0, 0, 0, 0, 0, 0, 0, 0, 0]

/-- mem1 with one descriptor at 0x4000. -/
def jobMem (wa : List Byte) (w rsvd : Byte) : Memory := mem1.writeBytes 0x4000 (descriptor wa w rsvd)

/-- The registers of a one-job batch. -/
def jobRegs : Operands := { keyed with jobAddr := 0x4000, jobCount := 1, resAddr := 0x5000 }

/-- P3 job 0 and job 2 (RSVD2 = 1), T44.4 (a misaligned WATCH_ADDR). -/
theorem test_batch_job : (batchJob platform (jobMem [0x00, 0x30] 1 0) jobRegs 0).word = 0x00010001 := by decide +kernel
theorem test_batch_reserved : (batchJob platform (jobMem [0x00, 0x30] 1 1) jobRegs 0).word = 0x00000030 := by decide +kernel
/-- T44.10: ABORT while IDLE. -/
theorem test_abort_idle : wr 0x020 0x06 (base mem1) = base mem1 := by decide
/-- R370: ABORT of a running batch. -/
theorem test_abort_batch : ((wr 0x020 0x06 (running .batch jobRegs mem1)).running.map Running.abortReq) = some true := by decide

/-- R210, R105, R383: a HASH of no bytes reads nothing, so that memory cannot hold it up; one of a byte it can. -/
theorem test_empty_hash_runs : hangJob 0 (running .hash keyed []) = running .hash keyed [] := by decide
/-- R113 item 3: the slot of a job whose filter the host then writes is any value; the host's own byte is as written. -/
theorem test_race_after_write : (hostMemWrite 0x2000 [0xFF]
    { running .batch jobRegs (jobMem [0x00, 0x30] 1 0) with
      running := some { freshRun .batch (withRegs jobRegs (jobMem [0x00, 0x30] 1 0)) with written := [0] } }).drawn = 1 := by
  decide +kernel

/-! ## Status, interrupt, reset (T60, T70) -/

/-- T60.5, T60.6: clearing ERR clears ERRCODE; a write without bits 1 to 4 changes nothing. -/
theorem test_w1c : statusWord (wr 0x018 0x4 (wr 0x020 0x03
    (withRegs { keyed with cfg := { m := 0, p := 19 } } []))) = 0 := by decide
theorem test_w1c_ignored : statusWord (wr 0x018 0xFFFFFFFFFFFFFF00 (wr 0x020 0x03
    (withRegs { keyed with cfg := { m := 0, p := 19 } } []))) = 0x0304 := by decide
/-- T60.7: IRQ through ERR. -/
theorem test_irq_err : irq (wr 0x020 0x07 (wr 0x010 0x1 (base []))) = true := by decide
/-- T30.11: bits 23:21 of CFG are reserved. -/
theorem test_cfg_reserved : readReg 0x028 (wr 0x028 0x13200000 (base [])) = 0x13000000 := by decide
/-- T70.2: the soft reset does not keep IRQ_EN. -/
theorem test_soft_reset : readReg 0x010 (wr 0x010 0x3 (base [])) = 0 := by decide

/-! ## Witnesses: for each obligation, states and operands that meet its hypotheses together -/

/-- StepRunsDecodedCommand: a command word next on the agenda, and an idle machine with an empty one; commands that run and
have an access answered or not are in witness_running and witness_stop. -/
theorem witness_step : ∃ s : State, s.agenda = [Event.regWrite 0x020 8 6] ∧ s.resetIn = false ∧ decode 6 = .ok .abort ∧
    (base []).running = none ∧ (base []).agenda = [] :=
  ⟨{ base [] with agenda := [.regWrite 0x020 8 6] }, rfl, rfl, rfl, rfl, rfl⟩

/-- IllegalWordRaisesIllegalOnly: illegal words and a legal one, at the edges. -/
theorem witness_illegal : (base []).resetIn = false ∧
    ((7 : Word).toNat / 256 ≠ 0 ∨ 7 ≤ (7 : Word).toNat % 256) ∧
    ((0x100 : Word).toNat / 256 ≠ 0 ∨ 7 ≤ (0x100 : Word).toNat % 256) ∧
    ¬((6 : Word).toNat / 256 ≠ 0 ∨ 7 ≤ (6 : Word).toNat % 256) :=
  ⟨rfl, by decide, by decide, by decide⟩

/-- CmdWriteFollowsTheIssueProcedure and every statement over `resetIn = false` alone. -/
theorem witness_not_in_reset : (base []).resetIn = false := rfl

/-- CommandWhileBusyIsRejectedAndLost. -/
theorem witness_busy : ∃ r, (running .hash keyed []).running = some r := ⟨_, rfl⟩

/-- IllegalModulusRejectsItsUsersOnly: M at both edges of the legal range, and just outside. -/
theorem witness_modulus : (base []).running = none ∧ legalM (withRegs { keyed with cfg := { m := 1, p := 0 } } []) ∧
    legalM (withRegs { keyed with cfg := { m := 0x100000, p := 0 } } []) ∧
    ¬legalM (withRegs { keyed with cfg := { m := 0, p := 0 } } []) ∧
    ¬legalM (withRegs { keyed with cfg := { m := 0x100001, p := 0 } } []) := by
  unfold legalM; decide

/-- NopChangesNothing: OPCODE 0 with RSVD = 1. -/
theorem witness_nop : (0x100 : Word).toNat % 256 = 0 ∧ (0x100 : Word) ≠ 0 := by decide

/-- AbortRequestsTheEndOfABatchOnly: a batch, another command, an idle core. -/
theorem witness_abort : (∃ r, (running .batch keyed []).running = some r ∧ r.op = .batch) ∧
    (∀ r, (running .hash keyed []).running = some r → r.op ≠ .batch) ∧ exec .abort (base []) = .next (base []) :=
  ⟨⟨_, rfl, rfl⟩, fun r h => by cases h; decide, rfl⟩

/-- CommandIssueFrame: a command that is accepted, and one that finds the core busy. -/
theorem witness_issue_frame : exec .hash (base []) = .next (acceptance .hash (base [])) ∧
    exec .map (running .hash keyed []) = .next (withError .busy (running .hash keyed [])) ∧
    (running .hash keyed []).running.isSome = true := ⟨rfl, rfl, rfl⟩

/-- HashCommandResult: a message that is read, and the empty one. -/
theorem witness_hash : (withRegs { keyed with srcAddr := 0xFFF1, srcLen := 15 } []).running = none ∧
    accessible platform 0xFFF1 15 ∧ undisturbed .hash (withRegs { keyed with srcAddr := 0xFFF1, srcLen := 15 } []) ∧
    undisturbed .hash (withRegs { keyed with srcLen := 0 } []) := by
  refine ⟨rfl, ⟨by decide, by decide⟩, ⟨by decide, by decide⟩, ⟨by decide, by decide⟩⟩

/-- HashReadErrorIsBusRead: one byte past BUS_OK (T40.17), and past 2^64 (T40.18). -/
theorem witness_hash_error : ¬accessible platform 0xFFF1 16 ∧ ¬accessible platform 0xFFFFFFFFFFFFFFFF 2 ∧
    (withRegs { keyed with srcAddr := 0xFFF1, srcLen := 16 } []).running = none :=
  ⟨fun h => absurd (h.2 15 (by decide)) (by decide), fun h => absurd h.1 (by decide), rfl⟩

/-- MapCommandResult, EmptyBatchCompletesAtOnce. -/
theorem witness_empty_batch : (base []).running = none ∧ legalM (base []) ∧ (base []).regs.jobAddr.toNat % 8 = 0 ∧
    (base []).regs.resAddr.toNat % 4 = 0 ∧ (base []).regs.jobCount = 0 := by
  unfold legalM; decide

/-- RangeMapStaysInRange: F = 1 with the largest h, two ordered h, a filter with N = 0. -/
theorem witness_range_map : (2 ^ 64 - 1 < 2 ^ 64 ∧ 1 ≤ 1) ∧ (0 ≤ 2 ^ 64 - 1) ∧ (grDecode [0x00] 784931 19).n = some 0 := by
  decide

/-- CandidatesFitTheirStorage: the largest N and M, and an F below 65536. -/
theorem witness_candidates : (4096 ≤ 4096 ∧ 2 ^ 20 ≤ 2 ^ 20) ∧ (1 ≤ 4096 ∧ 65535 ≤ 2 ^ 20 ∧ 1 * 65535 < 65536) := by decide

/-- SuccessfulDecodeProperties, CutFilterIsTruncated: F1, cut by one byte or wholly. -/
theorem witness_decode : parsePrefix [0x01, 0x46, 0x2B, 0x60] = .ok 1 1 ∧
    (grDecode [0x01, 0x46, 0x2B, 0x60] 784931 19).code = none ∧ 1 ≤ 1 ∧ 4 ≤ [0x01, 0x46, 0x2B, (0x60 : Byte)].length := by
  decide +kernel

/-- CanonicalFilterDecodesToItsValues: T42.19 (P = 2, values 7 and 7), and the empty sequence. -/
theorem witness_canonical : ([7, 7].length ≤ 4096 ∧ [7, 7].Pairwise (· ≤ ·) ∧ (∀ v ∈ [7, 7], v < [7, 7].length * 10) ∧
    bitsOf [0xB0] = streamBits 2 [7, 7] ++ [false] ∧ [false].length < 8) ∧
    (bitsOf [] = streamBits 2 [] ++ [] ∧ ([] : List Bool).length < 8) := by
  decide

/-- WholeUnreadByteIsCountMismatch: F1 (4 bits left), F1 with a further byte (12 bits left), N = 0 alone and with a byte. -/
theorem witness_unread : (decodeCodes 784931 19 1 0 (bitsOf [0x46, 0x2B, 0x60])).code = none ∧
    (decodeCodes 784931 19 1 0 (bitsOf [0x46, 0x2B, 0x60])).rest.length < 8 ∧
    (decodeCodes 784931 19 1 0 (bitsOf [0x46, 0x2B, 0x60, 0x00])).code = none ∧
    8 ≤ (decodeCodes 784931 19 1 0 (bitsOf [0x46, 0x2B, 0x60, 0x00])).rest.length ∧
    parsePrefix [0x00] = .ok 0 1 ∧ parsePrefix [0x00, 0x00] = .ok 0 1 := by
  decide +kernel

/-- PrefixAcceptsExactlyTheCanonicalForm: T42.7 and T42.8 (too short), T42.6, T42.9 and T42.10 (not canonical), T42.5 and the
least counts of the two longer prefixes (over the capacity). -/
theorem witness_prefix : [(0x00 : Byte)].length < 2 ∧ [0x00, (0x00 : Byte)].length < 4 ∧
    Claims.fieldAt [0x05, 0x00] 0 2 < 0xFD ∧ Claims.fieldAt [0x05, 0x00, 0x00, 0x00] 0 4 < 0x10000 ∧
    Claims.fieldAt [0x01, 0x00, 0x00, 0x00, 0x00, 0x00, 0x00, 0x00] 0 8 < 0x100000000 ∧
    (0xFD ≤ Claims.fieldAt [0x01, 0x10] 0 2 ∧ 4096 < Claims.fieldAt [0x01, 0x10] 0 2) ∧
    0x10000 ≤ Claims.fieldAt [0x00, 0x00, 0x01, 0x00] 0 4 ∧
    0x100000000 ≤ Claims.fieldAt [0x00, 0x00, 0x00, 0x00, 0x01, 0x00, 0x00, 0x00] 0 8 := by decide

/-- FailedDecodeReportsItsFirstError: a rejected prefix; T42.11 (no bit behind the prefix) and T42.16 (cut in a remainder);
T42.13 (overlong); T42.14 (value range); T42.17 (a whole byte left). -/
theorem witness_failed : parsePrefix [] = .bad .truncated none ∧
    (parsePrefix [0xFD, 0x00, 0x10] = .ok 4096 3 ∧ bitsOf [] = streamBits 19 [] ++ List.replicate 0 true) ∧
    (bitsOf [0x46, 0x2B] = streamBits 19 [] ++ (List.replicate 0 true ++ false :: (bitsOf [0x46, 0x2B]).drop 1) ∧
      ((bitsOf [0x46, 0x2B]).drop 1).length < 19) ∧
    (bitsOf [0xC0] = streamBits 19 [] ++ (List.replicate 2 true ++ (bitsOf [0xC0]).drop 2) ∧ 1 * 784931 ≤ 2 * 2 ^ 19) ∧
    (bitsOf [0xBF, 0xFF, 0xF8] = streamBits 19 [] ++ (codeBits 19 1048575 ++ (bitsOf [0xF8]).drop 5) ∧
      1048575 / 2 ^ 19 * 2 ^ 19 < 1 * 784931 ∧ 1 * 784931 ≤ [].getLastD 0 + 1048575) ∧
    (bitsOf [0x46, 0x2B, 0x60, 0x00] = streamBits 19 [287414] ++ (bitsOf [0x60, 0x00]).drop 4 ∧
      8 ≤ ((bitsOf [0x60, 0x00]).drop 4).length) := by decide +kernel
/-- T42.21: the second of two codes cut, the first value given. -/
theorem test_failed_keeps_values : grDecode [0x02, 0x00, 0x06, 0x43, 0x0C] 784931 19 =
    { code := some .truncated, n := some 2, out := [100], w16 := false, pos := 40 } := by decide +kernel

/-- OneCodeReadsBoundedBits: a code that decodes, and OVERLONG_QUOTIENT at F = 1. -/
theorem witness_one_code : oneCode 20 2 [true, false, true, true] = .ok (7, []) ∧
    oneCode 1 0 [true, true] = .error (.overlongQuotient, [true]) := by decide

/-- A DECODE of T42.19's filter at the last writable word, and its three steps and completion. -/
def decodeState : State :=
  withRegs { keyed with cfg := { m := 10, p := 2 }, srcAddr := 0x7000, srcLen := 2, dstAddr := 0xFFF8 }
    (image [(0x7000, [0x02, 0xB0])])

theorem witness_decode_values : (decodeEval platform decodeState.mem decodeState.regs).fv = [7, 7] := by decide +kernel

/-- DecodeCommandResult. -/
theorem witness_decode_command : decodeState.running = none ∧ decodeState.mem.wf ∧ legalM decodeState ∧
    decodeState.regs.dstAddr.toNat % 4 = 0 ∧ undisturbed .decode decodeState ∧
    (∀ i < (decodeEval decodeState.platform decodeState.mem decodeState.regs).fv.length,
      accessible decodeState.platform (decodeState.regs.dstAddr.toNat + 4 * i) 4) ∧
    (decodeEval decodeState.platform decodeState.mem decodeState.regs).fv.length + 2 ≤ [0, 0, 0, 0].length := by
  have e : (decodeEval decodeState.platform decodeState.mem decodeState.regs).fv = [7, 7] := witness_decode_values
  refine ⟨rfl, ?_, by unfold legalM; decide, by decide, ⟨by decide +kernel, by decide +kernel⟩, ?_, by rw [e]; decide⟩
  · exact Memory.wf_writeBytes reset_mem_wf _ _
  · rw [e]; unfold accessible; decide +kernel

/-- ValueWriteGoesOnEitherWay, SlotWriteCountsTheJobEitherWay, MemoryAccessesFollowTheBus: the last word of the bus map, the
first past it, and one past 2^64; the last value of a DECODE. -/
theorem witness_word : accessible platform 0xFFFC 4 ∧ ¬accessible platform 0xFFFD 4 ∧
    ¬accessible platform 0xFFFFFFFFFFFFFFFD 4 ∧ (base []).mem.wf ∧ [262595, 401421, 1916472][2]? = some 1916472 :=
  ⟨⟨by decide, by decide⟩, fun h => absurd (h.2 3 (by decide)) (by decide), fun h => absurd h.1 (by decide),
    reset_mem_wf, rfl⟩

/-- ValueWriteGoesOnEitherWay, SlotWriteCountsTheJobEitherWay: a job that is disturbed, and one that is not. -/
theorem witness_disturbed : Disturbed platform { freshRun .decode (base []) with raced := [0] } 0 ∧
    ¬Disturbed platform (freshRun .decode (base [])) 0 ∧ ¬Disturbed platform (freshRun .batch (base [])) 0 := by
  unfold Disturbed; decide +kernel

/-- SlotWriteCountsTheJobEitherWay: two lanes, one of them evaluated. -/
def laneRun (e : Evaluated) : Running :=
  { freshRun .batch (base []) with lanes := [{ job := 1, eval := some e }, { job := 0, eval := none }] }
theorem witness_lane (e : Evaluated) : ((laneRun e).lanes.map Lane.job).Nodup ∧
    (⟨1, some e⟩ : Lane) ∈ (laneRun e).lanes := ⟨by simp [laneRun], by simp [laneRun]⟩
theorem witness_memory : (busOk platform 0xFFFF = true ∧ busOk platform 0x10000 = false) ∧
    (0xFFFF + 1 ≤ 2 ^ 64 ∧ ∀ i < 1, busOk platform (0xFFFF + i) = true) ∧
    (2 ^ 64 < 0xFFFFFFFFFFFFFFFF + 2) ∧ (∃ i < 2, busOk platform (0xFFFF + i) = false) := by decide

/-- DecodeReportsItsDecoding: an unreadable filter, an empty one, a readable one. -/
theorem witness_reports : (∃ o : Operands, o.srcLen ≠ 0 ∧ ¬accessible platform o.srcAddr.toNat o.srcLen.toNat) ∧
    (∃ o : Operands, o.srcLen = 0) ∧ (∃ o : Operands, o.srcLen ≠ 0 ∧ accessible platform o.srcAddr.toNat o.srcLen.toNat) :=
  ⟨⟨{ keyed with srcAddr := 0xFFFE, srcLen := 4 }, by decide, fun h => absurd (h.2 2 (by decide)) (by decide)⟩,
    ⟨keyed, rfl⟩, ⟨{ keyed with srcAddr := 0xFFFC, srcLen := 4 }, by decide, ⟨by decide, by decide⟩⟩⟩

/-- MergeFindsExactlyTheCommonValues. -/
theorem witness_merge : [1, 5, 5].Pairwise (· ≤ ·) ∧ [2, 5].Pairwise (· ≤ ·) ∧ merge [1, 5, 5] [2, 5] = true ∧
    merge [1, 5] [2, 6] = false := by decide

/-- JobMatchesExactlyOnACommonValue: N = 0. -/
theorem witness_job_empty : (grDecode [0x00] 784931 19).code = none ∧ (grDecode [0x00] 784931 19).n = some 0 := by decide

/-- JobMatchesExactlyOnACommonValue: F1 with "abc" (T41.11: its value is 287414), and with no item. -/
theorem witness_job : (grDecode [0x01, 0x46, 0x2B, 0x60] 784931 19).code = none ∧
    (grDecode [0x01, 0x46, 0x2B, 0x60] 784931 19).n = some 1 ∧ 1 ≤ 1 ∧
    287414 ∈ (grDecode [0x01, 0x46, 0x2B, 0x60] 784931 19).out ∧
    287414 = rangeMap (sipHash24 keyed.key0 keyed.key1 [0x61, 0x62, 0x63]).toNat (1 * 784931) ∧
    ¬(∃ v ∈ (grDecode [0x01, 0x46, 0x2B, 0x60] 784931 19).out, ∃ item ∈ ([] : List (List Byte)),
      v = rangeMap (sipHash24 keyed.key0 keyed.key1 item).toNat (1 * 784931)) := by
  refine ⟨by decide +kernel, by decide +kernel, by decide, by decide +kernel, by decide +kernel, ?_⟩
  simp

/-- MatchCommandResult: T43.1. -/
def matchState : State :=
  withRegs { keyed with srcAddr := 0x2000, srcLen := 4, watchAddr := 0x3000, watchCount := 1 } mem1
theorem witness_match : matchState.running = none ∧ legalM matchState ∧ matchState.regs.watchAddr.toNat % 8 = 0 ∧
    undisturbed .matchFilter matchState :=
  ⟨rfl, by unfold legalM; decide, by decide, ⟨by decide +kernel, by decide +kernel⟩⟩

/-- JobReportsItsFirstError, clause by clause: the descriptor unreadable, not legal, legal; and of a job: too many items, the
watch table unreadable, an entry's reserved field set, an item unreadable, a decode error, and a job that is matched. -/
theorem witness_error_descriptor : memRead platform mem1 (0xFFF8 + 64 * 0) 64 = none := by decide +kernel
theorem witness_error_reserved :
    memRead platform (jobMem [0x00, 0x30] 1 1) (0x4000 + 64 * 0) 64 = some (descriptor [0x00, 0x30] 1 1) ∧
    ¬jobLegal (descriptor [0x00, 0x30] 1 1) ∧ ¬jobLegal (descriptor [0x04, 0x30] 1 0) ∧
    jobLegal (descriptor [0x00, 0x30] 1 0) := by unfold jobLegal; decide +kernel
theorem witness_error_overflow : platform.candCap < (jobOf (descriptor [0x00, 0x30] 5 0)).w ∧
    (jobOf (descriptor [0x00, 0x30] 4 0)).w ≤ platform.candCap := by decide +kernel
theorem witness_error_table : memRead platform mem1 (jobOf (descriptor [0xF8, 0xFF] 4 0)).wa (16 * 4) = none := by
  decide +kernel

/-- The bytes of the watch table {0x1000, 3, rsvd} with the item's address given. -/
def entry (addr : List Byte) (rsvd : Byte) : List Byte := addr ++ [0, 0, 0, 0, 0] ++ [0x03, 0, 0, 0] ++ [rsvd, 0, 0, 0]
def entryMem (addr : List Byte) (rsvd : Byte) : Memory := (jobMem [0x00, 0x30] 1 0).writeBytes 0x3000 (entry addr rsvd)

theorem witness_error_entry :
    memRead platform (entryMem [0x00, 0x10, 0] 1) 0x3000 (16 * 1) = some (entry [0x00, 0x10, 0] 1) ∧
    (∃ i < 1, fieldAt (entry [0x00, 0x10, 0] 1) (16 * i + 12) 4 ≠ 0) := by decide +kernel
theorem witness_error_item :
    memRead platform (entryMem [0x00, 0x00, 2] 0) 0x3000 (16 * 1) = some (entry [0x00, 0x00, 2] 0) ∧
    (∀ i < 1, fieldAt (entry [0x00, 0x00, 2] 0) (16 * i + 12) 4 = 0) ∧
    (∃ i < 1, memRead platform (entryMem [0x00, 0x00, 2] 0) (fieldAt (entry [0x00, 0x00, 2] 0) (16 * i) 8)
      (fieldAt (entry [0x00, 0x00, 2] 0) (16 * i + 8) 4) = none) := by decide +kernel
theorem witness_error_none :
    memRead platform (entryMem [0x00, 0x10, 0] 0) 0x2000 4 = some [0x01, 0x46, 0x2B, 0x60] ∧
    memRead platform (entryMem [0x00, 0x10, 0] 0) (fieldAt (entry [0x00, 0x10, 0] 0) 0 8)
      (fieldAt (entry [0x00, 0x10, 0] 0) 8 4) = some [0x61, 0x62, 0x63] ∧
    [[0x61, 0x62, (0x63 : Byte)]].length = 1 ∧
    (grDecode [0x01, 0x46, 0x2B, 0x60] 784931 19).code = none ∧
    (grDecode [0x01, 0x46, 0x2B, 0x60, 0x00] 784931 19).code = some .countMismatch := by decide +kernel

/-- A one-job batch whose result slot is the last word of the bus map. -/
def batchState : State := withRegs { jobRegs with resAddr := 0xFFFC } (jobMem [0x00, 0x30] 1 0)

/-- BatchGivesTheSameSlotsInEverySchedule, AbortedBatchLeavesOldOrOwnResults. -/
theorem witness_batch : batchState.running = none ∧ batchState.mem.wf ∧ batchState.platform.wellFormed = true ∧
    legalM batchState ∧ batchState.regs.jobAddr.toNat % 8 = 0 ∧ batchState.regs.resAddr.toNat % 4 = 0 ∧
    undisturbed .batch batchState ∧
    (∀ j < batchState.regs.jobCount.toNat, accessible batchState.platform (batchState.regs.resAddr.toNat + 4 * j) 4) ∧
    (coreSteps [0, 0] (acceptance .batch batchState)).running.isSome = true ∧
    3 * batchState.regs.jobCount.toNat + 1 ≤ [0, 0, 0, 0].length := by
  refine ⟨rfl, by decide +kernel, by decide, by unfold legalM; decide, by decide, by decide,
    ⟨by decide +kernel, by decide +kernel⟩, by unfold accessible; decide +kernel, by decide +kernel, by decide⟩

/-- JobDependsOnItsReadSetOnly: a byte outside the read set (the result slot) and NLANES differ. -/
theorem witness_read_set : { platform with nlanes := 7 }.candCap = platform.candCap ∧
    (∀ g ∈ readSet platform batchState.mem .batch batchState.regs 0, inRange g 0x5000 = false) := by decide +kernel

/-- Every accepted command that reads no memory meets the invariant. -/
theorem running_inv (op : Op) (o : Operands) (m : Memory) (hm : m.wf) (hc : usesCfg op = true → cfgLegal o = true)
    (ha : alignedFor op o = true) : Inv (running op o m) := by
  refine ⟨hm, rfl, rfl, fun h => absurd h (by simp [running, acceptance, withRegs, base, State.reset]), fun r hr => ?_,
    fun _ => ⟨rfl, fun r hr => by cases hr; rfl⟩⟩
  have hr' : freshRun op (withRegs o m) = r := by simpa [running, acceptance, freshRun] using hr
  subst hr'
  refine ⟨hm, rfl, rfl, rfl, hc, ha, by simp [freshRun], by simp [freshRun], by simp [freshRun], by simp [freshRun],
    by simp [freshRun], by simp [freshRun], by simp [freshRun], by simp [freshRun], by simp [freshRun], by simp [freshRun],
    fun hb => ?_⟩
  have hb' : op = .batch := hb
  subst hb'
  constructor <;> simp [freshRun, inFlight, running, acceptance]

/-- CoreStepFrame, EveryRunningCommandCompletes: a command of each kind runs. -/
theorem witness_running : Inv (running .hash keyed []) ∧ Inv (running .map keyed []) ∧ Inv (running .decode keyed []) ∧
    Inv (running .matchFilter keyed []) ∧ Inv (running .batch jobRegs []) ∧
    (∀ op, ∃ r, (running op jobRegs []).running = some r ∧ r.op = op ∧ r.hung = [] ∧
      3 * jobCount r + 4099 ≤ (List.replicate 4102 0).length) := by
  have hw : Memory.wf [] := reset_mem_wf
  refine ⟨running_inv _ _ _ hw (by decide) rfl, running_inv _ _ _ hw (by decide) rfl, running_inv _ _ _ hw (by decide)
    (by decide), running_inv _ _ _ hw (by decide) (by decide), running_inv _ _ _ hw (by decide) (by decide), fun op => ?_⟩
  exact ⟨_, rfl, rfl, rfl, by rw [List.length_replicate]; exact Nat.le_refl _⟩

/-- MachineStopsOnlyWhenMemoryNeverAnswers: a HASH whose read is never answered, with nothing more to come. -/
def hungState : State := hangJob 0 (running .hash { keyed with srcLen := 1 } [])
theorem witness_stop : Inv hungState ∧ step hungState = .fault .memoryNeverAnswers := by
  have h := running_inv .hash { keyed with srcLen := 1 } [] reset_mem_wf (by decide) rfl
  refine ⟨⟨h.memWf, h.platformLegal, h.errCode, fun hq => absurd hq (by decide), fun r hr => ?_,
    fun _ => ⟨rfl, fun r hr => by cases hr; rfl⟩⟩, rfl⟩
  have hx := h.running _ rfl
  cases hr
  obtain ⟨a1, a2, a3, a4, a5, a6, a7, a8, a9, a10, a11, a12, a13, a14, a14', a15, a16⟩ := hx
  exact ⟨a1, a2, a3, a4, a5, a6, a7, a8, a9, a10, a11, a12, a13, a14, a14', a15, fun hb => absurd hb (by decide)⟩

/-- A command that runs and whose input the host has written. -/
def racedRun (op : Op) (o : Operands) (m : Memory) (e : Option Evaluated) : State :=
  { running op o m with running := some { freshRun op (withRegs o m) with raced := [0], eval := e } }

/-- MachineStopsOnlyWhenMemoryNeverAnswers: a MATCH with more items than CAND_CAP, and one with no filter and no items. -/
theorem witness_no_access : platform.candCap < (5 : BitVec 32).toNat ∧
    (∃ r, (running .matchFilter keyed []).running = some r ∧ r.op = .matchFilter ∧ r.latched.srcLen = 0 ∧
      r.latched.watchCount = 0) := ⟨by decide, _, rfl, rfl, rfl, rfl⟩

/-- RaceGivesAnyResultAndNoError: the host writes a MATCH's filter; a disturbed HASH, MATCH and DECODE at their last step. -/
theorem witness_race : (∃ r, (hostMemWrite 0x2000 [0xFF] (running .matchFilter matchState.regs mem1)).running = some r ∧
      r.raced = [0]) ∧
    (∃ r, (racedRun .hash { keyed with srcLen := 1 } [] none).running = some r ∧ r.op = .hash ∧ r.hung = [] ∧
      Disturbed platform r 0 ∧ accessible platform r.latched.srcAddr.toNat r.latched.srcLen.toNat) ∧
    (∃ r e, (racedRun .matchFilter keyed [] (some (earlyResult .busError))).running = some r ∧ r.op = .matchFilter ∧
      r.hung = [] ∧ Disturbed platform r 0 ∧ r.eval = some e) ∧
    (∃ r : Running, r.op = .decode ∧ r.hung = [] ∧ Disturbed platform r 0 ∧ r.eval = some (earlyResult .truncated) ∧
      ∀ i < 4096, i ∈ r.written) := by
  obtain ⟨l, hl⟩ : ∃ l : List Nat, ∀ i < 4096, i ∈ l := ⟨List.range 4096, fun _ => List.mem_range.2⟩
  refine ⟨⟨_, rfl, by decide +kernel⟩, ⟨_, rfl, rfl, rfl, .inl (by decide), ⟨by decide, by decide⟩⟩,
    ⟨_, _, rfl, rfl, rfl, .inl (by decide), rfl⟩,
    ⟨{ freshRun .decode (base []) with
      raced := [0], eval := some (earlyResult .truncated), written := l }, rfl, rfl,
      .inl List.mem_cons_self, rfl, hl⟩⟩

/-- The batch just accepted, and with its slot written. -/
def slotRun (written : List Nat) : Running := { freshRun .batch batchState with written := written }

/-- RaceGivesAnyResultAndNoError, HostMemoryWriteIsExact: a host write to the filter of a job whose slot is written, and one
to a byte no job reads. -/
theorem witness_race_word : OutputWordAt (slotRun [0]) 0 0xFFFC ∧ 0 ∈ (slotRun [0]).written ∧
    touches platform (0x2000, 1) (slotRun [0]) 0 = true ∧ touches platform (0x5000, 1) (slotRun [0]) 0 = false :=
  ⟨.inr ⟨rfl, by decide, rfl⟩, by decide, by decide +kernel, by decide +kernel⟩

/-- The same running batch meets the invariant: its one job dispatched, evaluated and written. -/
theorem witness_race_inv : Inv { acceptance .batch batchState with
    running := some { slotRun [0] with cursor := 1 }, jobsDone := 1 } := by
  have h := running_inv .batch { jobRegs with resAddr := 0xFFFC } (jobMem [0x00, 0x30] 1 0) (by decide +kernel)
    (by decide) (by decide)
  refine ⟨h.memWf, rfl, rfl, fun hq => absurd hq (by decide), fun r hr => ?_, fun _ => ⟨rfl, fun r hr => by cases hr; rfl⟩⟩
  have hx := h.running _ rfl
  have hr' : { slotRun [0] with cursor := 1 } = r := by simpa using hr
  subst hr'
  obtain ⟨a1, a2, a3, a4, a5, a6, a7, a8, a9, a10, a11, a12, a13, a14, a14', a15, a16⟩ := hx
  refine ⟨a1, rfl, rfl, rfl, a5, a6, a7, by decide, fun hb => absurd rfl hb, a10, fun hb => ?_, fun hb => ?_, fun hb => ?_,
    fun hb => ?_, fun hb => ?_, fun hb => ?_, fun _ => ?_⟩
  iterate 6 simp [slotRun, freshRun] at hb
  constructor <;> simp [slotRun, freshRun, inFlight, jobCount, batchState, withRegs, base, jobRegs, keyed]

/-- HostReadsOldOrNewOutputWord, AbandonedWordsAreOldOrNew: the batch just accepted, its slot old; and its slot written. -/
theorem witness_output_word : ∃ v, (∀ j < jobsOf (slotRun []).op (slotRun []).latched, ¬Disturbed platform (slotRun []) j) ∧
    WritesWord platform (slotRun []) 0 0xFFFC v ∧ (∀ k w, OutputWordAt (slotRun []) k w → accessible platform w 4) ∧
    (∀ i < 4, batchState.mem.read (0xFFFC + i) = (slotRun []).before.read (0xFFFC + i)) ∧
    holdsWord (batchState.mem.writeBytes 0xFFFC [0x01, 0x00, 0x01, 0x00]) 0xFFFC v := by
  refine ⟨0x00010001, ?_, ⟨.inr ⟨rfl, by decide, rfl⟩, .inr ⟨rfl, by decide +kernel⟩⟩, ?_, fun _ _ => rfl, ?_⟩
  · unfold Disturbed; decide +kernel
  · rintro k w (⟨h, -⟩ | ⟨-, hk, rfl⟩)
    · exact absurd h (by decide)
    · have h0 : k = 0 := by have : k < 1 := hk; omega
      subst h0; exact ⟨by decide, by decide⟩
  · unfold holdsWord; decide +kernel

/-- HostMemoryWriteIsExact: an idle core, bytes at the top of memory. -/
theorem witness_host_write : Inv (base []) ∧ (base []).running = none ∧
    (hostMemWrite 0xFFFFFFFFFFFFFFFF [0x11, 0x22] (base [])).mem = [(0xFFFFFFFFFFFFFFFF, 0x11)] := by
  exact ⟨⟨reset_mem_wf, rfl, rfl, fun h => absurd h (by decide), fun r h => absurd h (by simp [base, State.reset]),
    fun _ => ⟨rfl, fun r h => absurd h (by simp [base, State.reset])⟩⟩, rfl, by decide⟩

/-- The small state of a platform with COHERENT = 0. -/
def cached (m : Memory) : State := { base m with platform := { platform with coherent := false } }

/-- CacheBreachGivesAnyValue: a breach before a DECODE over its filter, and one over an output word it has not written yet
and one over a word it has written; bytes at the edges of what is synchronised. -/
theorem witness_breach : (cached []).platform.coherent = false ∧ platform.coherent = true ∧ (cached []).mem.wf ∧
    (let s := cacheBreach 0x7001 1 { cached [] with regs := decodeState.regs };
      let r := freshRun .decode s;
      tainted s.platform r 0 = true ∧ breached r (0xFFF8, 4) = false) ∧
    (let s := cacheBreach 0xFFF9 1 { cached [] with running := some { freshRun .decode decodeState with written := [0, 1] } };
      s.drawn = 1 ∧ s.running.isSome = true ∧
        wordLost s.platform { freshRun .decode decodeState with stale := s.stale } 0 0xFFF8 = true ∧
        wordLost s.platform { freshRun .decode decodeState with stale := s.stale } 0 0xFFFC = false) ∧
    (let s := cacheSync 0x7002 4 (cacheBreach 0x7001 8 (cached []));
      s.stale = [(0x7001, 1), (0x7006, 3)] ∧ inRanges s.stale 0x7001 = true ∧ inRanges s.stale 0x7002 = false ∧
        inRanges s.stale 0x7006 = true) := by
  refine ⟨rfl, rfl, reset_mem_wf, ?_⟩
  decide +kernel

/-- R118: what a BATCH writes to a slot under a breach is a free value. -/
theorem test_breach_slot :
    let r := { freshRun .batch { base [] with regs := { keyed with resAddr := 0x5000, jobCount := 1 } } with
      stale := [(0x5003, 1)], lanes := [{ job := 0, eval := some (earlyResult .busError) }] }
    (finishJob r 0 (base [])).mem = (writeOutputWord 0x5000 ((Config.free 0).setWidth 32) (base [])).mem := rfl

/-- OperandWriteLeavesTheRunningCommand: the first and the last operand register after CFG, while a HASH runs. -/
theorem witness_operand : (running .hash keyed []).resetIn = false ∧ 0x030 ∈ [0x030, 0x088] ∧ 0x088 ∈ [0x030, 0x088] := by
  decide

/-- WindowAccessRules: reserved offsets at both ends, and accesses of undefined form. -/
theorem witness_window : (0x0A8 ≤ 0x0A8 ∧ 0x0A8 < 4096 ∧ 0x0A8 % 8 = 0) ∧ (0xFF8 < 4096 ∧ 0xFF8 % 8 = 0) ∧
    (4 ≠ 8 ∨ 0x020 % 8 ≠ 0 ∨ 4096 ≤ 0x020) ∧ (8 ≠ 8 ∨ 0x024 % 8 ≠ 0 ∨ 4096 ≤ 0x024) ∧ (8 ≠ 8 ∨ 4096 % 8 ≠ 0 ∨ 4096 ≤ 4096) := by
  decide

/-- WindowStandsAtRegBase: the first and the last byte of the window, the bytes beside it, and an access across its edge. -/
theorem witness_bus : (platform.regBase ≤ 0x80000000 ∧ 0x80000000 < platform.regBase + 4096) ∧
    0x80000FFF < platform.regBase + 4096 ∧ 0x7FFFFFF8 + 8 ≤ platform.regBase ∧ platform.regBase + 4096 ≤ 0x80001000 ∧
    (0x7FFFFFFC < platform.regBase ∧ platform.regBase < 0x7FFFFFFC + 8) := by decide
/-- R120: a store to REG_BASE + 0x020 writes CMD. -/
theorem test_bus_cmd : happen (.busWrite 0x80000020 8 0x07) (base []) = .next (withError .illegal (base [])) := rfl

/-- EveryRegisterReadsItsState: CTRL written with SRST = 0, a legal platform, the first and the last offset. -/
theorem witness_ctrl : (base []).resetIn = false ∧ (0xFFFFFFFFFFFFFFFD : Word).getLsbD 1 = false ∧
    (base []).platform.wellFormed = true ∧ (0 % 8 = 0 ∧ 0 < 4096) ∧ (0xFF8 % 8 = 0 ∧ 0xFF8 < 4096) := by decide

/-- SoftResetRestoresTheResetState: idle, and with a batch to abandon. -/
theorem witness_soft_reset : ((3 : Word).getLsbD 1 = true) ∧ (base []).running = none ∧
    (∀ k w, OutputWordAt (slotRun []) k w → 0x5000 < w ∨ w + 4 ≤ 0x5000) := by
  refine ⟨by decide, rfl, ?_⟩
  rintro k w (⟨h, -⟩ | ⟨-, -, rfl⟩)
  · exact absurd h (by decide)
  · have h0 : (slotRun []).latched.resAddr.toNat = 0xFFFC := rfl
    omega

/-- HardwareResetHoldsTheResetState: RESET_IN asserted. -/
theorem witness_hard_reset : Inv (assertReset (base mem1)) ∧ (assertReset (base mem1)).resetIn = true :=
  ⟨⟨by decide +kernel, by decide, rfl, fun _ => rfl, fun r hr => absurd hr (by simp [assertReset, resetCore, State.reset]),
    fun _ => ⟨rfl, fun r hr => absurd hr (by simp [assertReset, resetCore, State.reset])⟩⟩, rfl⟩

/-- EveryStepKeepsTheInvariant, EveryStepKeepsTheParameters: a step that gives a next state from a state with the
invariant. -/
theorem witness_step_next : Inv (running .hash keyed []) ∧ ∃ t, step (running .hash keyed []) = .next t :=
  ⟨running_inv .hash keyed [] reset_mem_wf (by decide) rfl, ⟨_, rfl⟩⟩

end Sys2Proof.Tests
end

/-! The statements on the state: what every step keeps, what a core step and a CMD write leave unchanged, and the registers of
the window (10_state). First the lemmas about the model's operations, then one theorem for each obligation. -/

namespace Sys2Proof.Machine

open Sys2Proof.Claims

/-! ## What a CMD write can do -/

/-- What the sequencer can make of a command in state s (30_encoding R150, 44_batch R370, R380). -/
inductive CmdEffect (i : Instr) (s : State) : State → Prop
  /-- NOP, and an ABORT where no batch runs. -/
  | nothing : CmdEffect i s s
  | error (e : CmdError) : CmdEffect i s (cmdError e s)
  /-- An idle core accepts a command that passes the checks. -/
  | accepted (op : Op) (instr : i = instrOf op) (idle : s.running = none)
      (cfgOk : usesCfg op = true → cfgLegal s.regs = true) (aligned : alignedFor op s.regs = true) :
      CmdEffect i s (accept op s)
  | abortRequested (r : Running) (running : s.running = some r) (batch : r.op = .batch) :
      CmdEffect i s (setRun { r with abortReq := true } s)

theorem issue_effect (op : Op) (s : State) : CmdEffect (instrOf op) s (issue op s) := by
  obtain ⟨-, he⟩ | ⟨-, -, -, he⟩ | ⟨-, -, -, he⟩ | ⟨hb, hc, ha, he⟩ := issue_cases op s <;> rw [he]
  · exact .error _
  · exact .error _
  · exact .error _
  · exact .accepted op rfl (by simpa [busy] using hb) hc ha

theorem exec_effect {i : Instr} {s t : State} (h : exec i s = .next t) : CmdEffect i s t := by
  cases i with
  | nop => cases h; exact .nothing
  | hash => cases h; exact issue_effect .hash s
  | map => cases h; exact issue_effect .map s
  | decode => cases h; exact issue_effect .decode s
  | matchFilter => cases h; exact issue_effect .matchFilter s
  | batch => cases h; exact issue_effect .batch s
  | abort =>
    cases h
    split
    · exact .nothing
    · split
      · exact .abortRequested _ ‹_› ‹_›
      · exact .nothing

theorem accept_eq_acceptance (op : Op) (s : State) : accept op s = acceptance op s := accept_eq op s

theorem cfgLegal_iff (s : State) : cfgLegal s.regs = true ↔ legalM s := by
  rw [cfgLegal, decide_eq_true_eq]; rfl

/-- An idle core with an illegal M rejects each command that uses CFG, before it looks at alignment (10_state R41,
30_encoding R151). -/
theorem issue_of_illegal_modulus {op : Op} {s : State} (hr : s.running = none) (hu : usesCfg op = true) (hm : ¬legalM s) :
    issue op s = withError .badCfg s := by
  have hc : cfgLegal s.regs = false := by rwa [← cfgLegal_iff, Bool.not_eq_true] at hm
  obtain ⟨hb, -⟩ | ⟨-, -, -, he⟩ | ⟨-, hok, -⟩ | ⟨-, hok, -⟩ := issue_cases op s
  · simp [busy, hr] at hb
  · exact he
  · exact absurd (hok hu) (by simp [hc])
  · exact absurd (hok hu) (by simp [hc])

/-- An idle core accepts a command that uses neither CFG nor an aligned address. -/
theorem issue_of_unchecked {op : Op} {s : State} (hr : s.running = none) (hu : usesCfg op = false)
    (ha : alignedFor op s.regs = true) : issue op s = acceptance op s := by
  simp [issue, busy, hr, hu, ha, accept_eq_acceptance]

theorem exec_abort_idle {s : State} (hr : s.running = none) : exec .abort s = .next s := by
  simp [exec, execAbort, hr]

/-- A hash mapped to a range of at most 2^32 fits 32 bits (41_range_mapper R231). -/
theorem rangeMap_lt {h f : Nat} (hh : h < 2 ^ 64) (hf : f ≤ 2 ^ 32) : rangeMap h f < 2 ^ 32 := by
  refine Nat.div_lt_of_lt_mul ?_
  calc h * f ≤ h * 2 ^ 32 := Nat.mul_le_mul_left h hf
    _ < 2 ^ 64 * 2 ^ 32 := Nat.mul_lt_mul_of_pos_right hh (by norm_num)

/-! ## What an access of the host, the polling loop and an empty agenda can do -/

theorem step_of_agenda_nil {s : State} (h : s.agenda = []) : step s = runAlone s := by simp [step, h]

theorem step_of_agenda_cons {s : State} {e : Event} {es : List Event} (h : s.agenda = e :: es) :
    step s = happen e { s with agenda := es } := by simp [step, h, State.setAgenda]

theorem hostWait_idle {s : State} (h : s.running = none) : hostWait s = .next s := by simp [hostWait, busy, h]

theorem runAlone_idle {s : State} (h : s.running = none) : runAlone s = .next s := by simp [runAlone, busy, h]

theorem hostWait_running {s : State} {r : Running} (h : s.running = some r) :
    hostWait s = if coreCanMove s then .next (coreStepFree (s.setAgenda (.wait :: s.agenda)))
      else .fault .memoryNeverAnswers := by
  simp [hostWait, busy, h]

theorem runAlone_running {s : State} {r : Running} (h : s.running = some r) :
    runAlone s = if coreCanMove s then .next (coreStepFree s) else .fault .memoryNeverAnswers := by
  simp [runAlone, busy, h]

theorem hostWait_next {s t : State} (h : hostWait s = .next t) :
    t = s ∨ t = coreStepFree (s.setAgenda (.wait :: s.agenda)) := by
  unfold hostWait at h
  split at h
  · split at h
    · cases h; exact .inr rfl
    · cases h
  · cases h; exact .inl rfl

theorem runAlone_next {s t : State} (h : runAlone s = .next t) : t = s ∨ t = coreStepFree s := by
  unfold runAlone at h
  split at h
  · split at h
    · cases h; exact .inr rfl
    · cases h
  · cases h; exact .inl rfl

theorem hostRegWrite_next {offset width : Nat} {v : Word} {s t : State} (h : hostRegWrite offset width v s = .next t) :
    t = s ∨ s.resetIn = false ∧ writeReg (regAt offset) v s = .next t := by
  unfold hostRegWrite at h
  split at h
  · split at h
    · cases h; exact .inl rfl
    · exact .inr ⟨by simpa using ‹¬s.resetIn = true›, h⟩
  · cases h

theorem hostRegRead_next {offset width : Nat} {s t : State} (h : hostRegRead offset width s = .next t) :
    t = observe (.reg offset (readReg offset s)) s := by
  unfold hostRegRead at h
  split at h
  · cases h; rfl
  · cases h

theorem hostBusWrite_next {addr width : Nat} {v : Word} {s t : State} (h : hostBusWrite addr width v s = .next t) :
    hostRegWrite (addr - s.platform.regBase) width v s = .next t ∨ t = hostMemWrite addr (leBytes width v.toNat) s := by
  unfold hostBusWrite at h
  split at h
  · split at h
    · cases h
    · exact .inl h
  · cases h; exact .inr rfl

theorem hostBusRead_next {addr width : Nat} {s t : State} (h : hostBusRead addr width s = .next t) :
    hostRegRead (addr - s.platform.regBase) width s = .next t ∨ t = hostMemRead addr width s := by
  unfold hostBusRead at h
  split at h
  · split at h
    · cases h
    · exact .inl h
  · cases h; exact .inr rfl

/-- A soft reset is the core's reset after the running command's output words are settled (70_reset_and_hazards R452). -/
theorem softReset_eq_resetCore (s : State) : ∃ u, OnlyWords (fun _ => True) s u ∧ softReset s = resetCore u := by
  unfold softReset
  cases s.running with
  | none => exact ⟨s, OnlyWords.refl _ s, rfl⟩
  | some r => exact ⟨_, OnlyWords.foldl (fun u k _ => abandonWord_onlyWords r u k (by simp)) s, rfl⟩

/-! ## States with the invariant -/

/-- The state at reset, field by field: what belongs to the outside world and host memory is free
(70_reset_and_hazards R450). -/
theorem resetCore_eq_self_iff (s : State) :
    resetCore s = s ↔ s.irqEn = false ∧ s.status = Status.reset ∧ s.regs = Operands.reset ∧ s.result0 = 0 ∧
      s.result1 = 0 ∧ s.jobsDone = 0 ∧ s.running = none := by
  cases s
  simp only [resetCore, State.reset, State.mk.injEq, and_true, true_and, eq_comm (b := false), eq_comm (b := none),
    eq_comm (a := Status.reset), eq_comm (a := Operands.reset), eq_comm (a := (0 : Word)), eq_comm (a := (0 : BitVec 32))]

/-- While a command runs RESET_IN is not asserted (70_reset_and_hazards R451). -/
theorem Inv.resetIn_of_running {s : State} {r : Running} (h : Inv s) (hr : s.running = some r) : s.resetIn = false := by
  rw [Bool.eq_false_iff]
  intro hq
  rw [reset_running (h.quiet hq)] at hr
  cases hr

/-- The core's reset gives a state with the invariant, RESET_IN asserted or not (70_reset_and_hazards R450). -/
theorem resetCore_inv {s : State} (hm : s.mem.wf) (hp : s.platform.wellFormed = true)
    (hc : s.platform.coherent = true → s.stale = []) : Inv (resetCore s) where
  memWf := hm
  platformLegal := hp
  errCode := rfl
  quiet _ := rfl
  running _ hr := nomatch hr
  coherent hco := ⟨hc hco, fun _ hr => nomatch hr⟩

/-- What stands outside the core, memory and the cache breaches among it, may change without the core. -/
theorem Inv.outside {s : State} (h : Inv s) {m : Memory} (hm : m.wf) (es : List Event) (os : List Observation) (d : Nat)
    {gs : List (Nat × Nat)} (hg : s.platform.coherent = true → gs = []) :
    Inv { s with mem := m, agenda := es, observed := os, drawn := d, stale := gs } where
  memWf := hm
  platformLegal := h.platformLegal
  errCode := h.errCode
  quiet hq := (resetCore_eq_self_iff _).2 ((resetCore_eq_self_iff s).1 (h.quiet hq))
  running r hr := (h.running r hr).congr rfl rfl rfl rfl fun _ => rfl
  coherent hc := ⟨hg hc, (h.coherent hc).2⟩

/-- The host's registers may change while RESET_IN is not asserted, as long as ERR goes with ERRCODE, LAST_OP stays and
DONE and ABORTED are not set. -/
theorem Inv.registers {s : State} (h : Inv s) (hq : s.resetIn = false) (ie : Bool) (st : Status) (o : Operands)
    (he : st.err = st.errCode.isSome) (hl : st.lastOp = s.status.lastOp)
    (hd : s.status.done = false → st.done = false) (ha : s.status.aborted = false → st.aborted = false) :
    Inv { s with irqEn := ie, status := st, regs := o } where
  memWf := h.memWf
  platformLegal := h.platformLegal
  errCode := he
  quiet hq' := absurd hq' (by simp [hq])
  running r hr := by
    have hi := h.running r hr
    exact hi.congr rfl hl ((hd hi.notDone).trans hi.notDone.symm) ((ha hi.notAborted).trans hi.notAborted.symm) fun _ => rfl
  coherent := h.coherent

/-- The running command's bookkeeping may change to another that is sound. -/
theorem Inv.rerun {s : State} {r r' : Running} (h : Inv s) (hr : s.running = some r) (hi : RunInv s r')
    (hs : s.platform.coherent = true → r'.stale = []) : Inv (setRun r' s) where
  memWf := h.memWf
  platformLegal := h.platformLegal
  errCode := h.errCode
  quiet hq := absurd hq (by simp [setRun, h.resetIn_of_running hr])
  running u hu := by
    cases hu
    exact hi.congr rfl rfl rfl rfl fun _ => rfl
  coherent hc := ⟨(h.coherent hc).1, fun u hu => by cases hu; exact hs hc⟩

/-- What the outside world and an ABORT mark in a running command: races, accesses not answered, cache breaches, and the
abort request of a batch. -/
theorem RunInv.mark {s : State} {r : Running} (h : RunInv s r) {raced hung : List Nat} {stale : List (Nat × Nat)}
    {abortReq : Bool} (hraced : ∀ j ∈ raced, j < jobsOf r.op r.latched)
    (htaint : tainted s.platform { r with raced := raced, stale := stale } 0 = false → tainted s.platform r 0 = false)
    (habort : abortReq = r.abortReq ∨ r.op = .batch ∧ abortReq = true) :
    RunInv s { r with raced := raced, hung := hung, stale := stale, abortReq := abortReq } where
  beforeWf := h.beforeWf
  lastOp := h.lastOp
  notDone := h.notDone
  notAborted := h.notAborted
  cfgOk := h.cfgOk
  aligned := h.aligned
  racedBound := hraced
  writtenOnce := h.writtenOnce
  batchOnly hop := by
    obtain ⟨hl, hc, ha⟩ := h.batchOnly hop
    exact ⟨hl, hc, (habort.resolve_right fun hb => hop hb.1).trans ha⟩
  noBuffers := h.noBuffers
  noWords := h.noWords
  decodeEval := h.decodeEval
  decodeFirst := h.decodeFirst
  decodeBound := h.decodeBound
  decodeOwn hop ht := h.decodeOwn hop (htaint ht)
  matchEval := h.matchEval
  batch hop := by
    have hb := h.batch hop
    refine { hb with cursorExact := fun ha => hb.cursorExact ?_ }
    rcases habort with he | ⟨-, he⟩
    · exact he.symm.trans ha
    · exact absurd ha (by simp [he])

/-- A job that is tainted stays so when the command is raced or breached once more. -/
theorem untainted_of_more {p : Platform} {r : Running} {raced : List Nat} {stale : List (Nat × Nat)} {j : Nat}
    (hr : j ∈ r.raced → j ∈ raced) (hs : r.stale ⊆ stale)
    (h : tainted p { r with raced := raced, stale := stale } j = false) : tainted p r j = false := by
  simp only [tainted, breached, Bool.or_eq_false_iff, List.contains_eq_mem, decide_eq_false_iff_not, List.any_eq_false,
    List.any_eq_true, not_exists, not_and] at h ⊢
  obtain ⟨⟨⟨hraced, hover⟩, hdev⟩, hst⟩ := h
  exact ⟨⟨⟨fun hj => hraced (hr hj), hover⟩, hdev⟩, fun g hg b hb => hst g hg b (hs hb)⟩

/-- The jobs raced after a host write: those that were, and those whose read set it touches (20_memory R113). -/
theorem mem_markRaced {p : Platform} {g : Nat × Nat} {r : Running} {j : Nat} :
    j ∈ (markRaced p g r).raced ↔ j < jobsOf r.op r.latched ∧ (j ∈ r.raced ∨ touches p g r j = true) := by
  simp [markRaced]

/-! ## Every event keeps the invariant -/

/-- A command just accepted has sound bookkeeping (30_encoding R153): nothing is evaluated, written or in flight. -/
theorem freshRun_inv {op : Op} {s : State} (hm : s.mem.wf) (hc : usesCfg op = true → cfgLegal s.regs = true)
    (ha : alignedFor op s.regs = true) : RunInv (accept op s) (freshRun op s) where
  beforeWf := hm
  lastOp := by rw [accept_eq]; rfl
  notDone := by rw [accept_eq]
  notAborted := by rw [accept_eq]
  cfgOk := hc
  aligned := ha
  racedBound _ hj := nomatch hj
  writtenOnce := .nil
  batchOnly _ := ⟨rfl, rfl, rfl⟩
  noBuffers _ := rfl
  noWords _ := rfl
  decodeEval _ _ he := nomatch he
  decodeFirst _ _ := rfl
  decodeBound _ _ hi := nomatch hi
  decodeOwn _ _ _ he := nomatch he
  matchEval _ _ he := nomatch he
  batch hb := by
    replace hb : op = .batch := hb
    subst hb
    exact {
      writtenBound := fun _ hj => nomatch hj
      lanesDistinct := .nil
      lanesBound := fun _ hj => nomatch hj
      lanesRoom := Nat.zero_le _
      laneEval := fun _ hl => nomatch hl
      jobsDone := rfl
      cursorBound := Nat.zero_le _
      cursorCount := Nat.le_refl _
      cursorExact := fun _ => rfl }

theorem accept_inv {op : Op} {s : State} (h : Inv s) (hq : s.resetIn = false)
    (hc : usesCfg op = true → cfgLegal s.regs = true) (ha : alignedFor op s.regs = true) : Inv (accept op s) := by
  have hfresh := freshRun_inv h.memWf hc ha
  rw [accept_eq] at hfresh ⊢
  refine ⟨h.memWf, h.platformLegal, h.errCode, fun hq' => absurd hq' (by simp [hq]), ?_, fun hco => ⟨(h.coherent hco).1, ?_⟩⟩
  · rintro _ ⟨⟩
    exact hfresh
  · rintro _ ⟨⟩
    exact (h.coherent hco).1

theorem cmdError_inv {s : State} (h : Inv s) (hq : s.resetIn = false) (e : CmdError) : Inv (cmdError e s) :=
  h.registers hq s.irqEn _ s.regs rfl rfl id id

theorem exec_inv {i : Instr} {s t : State} (h : Inv s) (hq : s.resetIn = false) (ht : exec i s = .next t) : Inv t := by
  cases exec_effect ht with
  | nothing => exact h
  | error e => exact cmdError_inv h hq e
  | accepted op _ _ hc ha => exact accept_inv h hq hc ha
  | abortRequested r hr hop =>
    have hi := h.running r hr
    exact h.rerun hr (hi.mark hi.racedBound id (.inr ⟨hop, rfl⟩)) fun hc => (h.coherent hc).2 r hr

theorem softReset_inv {s : State} (h : Inv s) : Inv (softReset s) := by
  obtain ⟨u, ho, hu⟩ := softReset_eq_resetCore s
  rw [hu]
  refine resetCore_inv (ho.2.2 h.memWf) (ho.platform ▸ h.platformLegal) fun hc => ?_
  exact ho.stale.trans (h.coherent (ho.platform ▸ hc)).1

theorem ackStatus_inv {s : State} (h : Inv s) (hq : s.resetIn = false) (v : Word) : Inv (ackStatus v s) := by
  refine h.registers hq s.irqEn _ s.regs ?_ rfl (fun hd => by simp [hd]) (fun ha => by simp [ha])
  cases hv : v.getLsbD 2 <;> simp [h.errCode]

theorem writeReg_inv {r : Reg} {v : Word} {s t : State} (h : Inv s) (hq : s.resetIn = false)
    (ht : writeReg r v s = .next t) : Inv t := by
  cases r with
  | cmd =>
    simp only [writeReg, writeCmd] at ht
    split at ht
    · exact exec_inv h hq ht
    · cases ht; exact cmdError_inv h hq _
  | ctrl =>
    cases ht
    split
    · exact softReset_inv h
    · exact h.registers hq _ s.status s.regs h.errCode rfl id id
  | status => cases ht; exact ackStatus_inv h hq v
  | id | params | result0 | result1 | jobsDone | reserved => cases ht; exact h
  | cfg | key0 | key1 | srcAddr | srcLen | dstAddr | watchAddr | watchCount | argH | argF | jobAddr | jobCount | resAddr =>
    cases ht; exact h.registers hq s.irqEn s.status _ h.errCode rfl id id

theorem hostRegWrite_inv {offset width : Nat} {v : Word} {s t : State} (h : Inv s)
    (ht : hostRegWrite offset width v s = .next t) : Inv t := by
  obtain rfl | ⟨hq, hw⟩ := hostRegWrite_next ht
  · exact h
  · exact writeReg_inv h hq hw

theorem observe_inv {s : State} (h : Inv s) (o : Observation) : Inv (observe o s) :=
  h.outside h.memWf s.agenda _ s.drawn fun hc => (h.coherent hc).1

theorem draw_inv {s : State} (h : Inv s) (n : Nat) : Inv (draw s n) :=
  h.outside h.memWf s.agenda s.observed _ fun hc => (h.coherent hc).1

theorem setAgenda_inv {s : State} (h : Inv s) (es : List Event) : Inv (s.setAgenda es) :=
  h.outside h.memWf es s.observed s.drawn fun hc => (h.coherent hc).1

theorem hostRegRead_inv {offset width : Nat} {s t : State} (h : Inv s)
    (ht : hostRegRead offset width s = .next t) : Inv t :=
  hostRegRead_next ht ▸ observe_inv h _

theorem coreStep_inv {s : State} (h : Inv s) (pick : Nat) : Inv (coreStep pick s) := by
  cases hr : s.running with
  | none => rw [coreStep_none pick hr]; exact h
  | some r =>
    have hi := h.running r hr
    have hf := coreStep_frame pick hr hi
    refine ⟨hf.wf h.memWf, hf.platform ▸ h.platformLegal, hf.errBoth h.errCode, fun hq => ?_,
      coreStep_run_inv pick hr hi, fun hc => ?_⟩
    · rw [hf.resetIn, h.resetIn_of_running hr] at hq
      cases hq
    · rw [hf.platform] at hc
      refine ⟨hf.stale.trans (h.coherent hc).1, fun r' hr' => ?_⟩
      obtain ⟨-, -, -, -, -, -, hstale⟩ := coreStep_sameCommand pick hr r' hr'
      exact hstale.trans ((h.coherent hc).2 r hr)

theorem coreStepFree_inv {s : State} (h : Inv s) : Inv (coreStepFree s) := coreStep_inv (draw_inv h 1) _

theorem runAlone_inv {s t : State} (h : Inv s) (ht : runAlone s = .next t) : Inv t := by
  obtain rfl | rfl := runAlone_next ht
  · exact h
  · exact coreStepFree_inv h

theorem hostWait_inv {s t : State} (h : Inv s) (ht : hostWait s = .next t) : Inv t := by
  obtain rfl | rfl := hostWait_next ht
  · exact h
  · exact coreStepFree_inv (setAgenda_inv h _)

/-- A host write to memory: the jobs it races are marked (20_memory R113). -/
theorem hostMemWrite_inv {s : State} (h : Inv s) (addr : Nat) (bs : List Byte) : Inv (hostMemWrite addr bs s) := by
  have hstale := fun hc => (h.coherent hc).1
  cases hr : s.running with
  | none => rw [hostMemWrite_idle hr]; exact h.outside (Memory.wf_writeBytes h.memWf _ _) _ _ _ hstale
  | some r =>
    have hi := h.running r hr
    have hw := raceWords_onlyWords (R := fun _ => True) (addr, bs.length) r s (by simp)
    have hmark : RunInv s (markRaced s.platform (addr, bs.length) r) :=
      hi.mark (fun j hj => (mem_markRaced.1 hj).1)
        (untainted_of_more (fun hj => mem_markRaced.2 ⟨hi.racedBound 0 hj, .inl hj⟩) (List.Subset.refl _)) (.inl rfl)
    rw [hostMemWrite_running hr]
    exact (h.rerun hr hmark fun hc => (h.coherent hc).2 r hr).outside
      (Memory.wf_writeBytes (hw.2.2 h.memWf) _ _) s.agenda s.observed _ hstale

theorem hostMemRead_inv {s : State} (h : Inv s) (addr n : Nat) : Inv (hostMemRead addr n s) :=
  draw_inv (observe_inv h _) _

theorem hostBusWrite_inv {addr width : Nat} {v : Word} {s t : State} (h : Inv s)
    (ht : hostBusWrite addr width v s = .next t) : Inv t := by
  obtain hw | rfl := hostBusWrite_next ht
  · exact hostRegWrite_inv h hw
  · exact hostMemWrite_inv h _ _

theorem hostBusRead_inv {addr width : Nat} {s t : State} (h : Inv s)
    (ht : hostBusRead addr width s = .next t) : Inv t := by
  obtain hw | rfl := hostBusRead_next ht
  · exact hostRegRead_inv h hw
  · exact hostMemRead_inv h _ _

theorem hangJob_inv {s : State} (h : Inv s) (j : Nat) : Inv (hangJob j s) := by
  unfold hangJob
  split
  · exact h
  · rename_i r hr
    have hi := h.running r hr
    split
    · exact h.rerun hr (hi.mark hi.racedBound id (.inl rfl)) fun hc => (h.coherent hc).2 r hr
    · exact h

/-- A breach of the cache duties: the running command meets it (20_memory R118). -/
theorem cacheBreach_inv {s : State} (h : Inv s) (addr n : Nat) : Inv (cacheBreach addr n s) := by
  cases hco : s.platform.coherent with
  | true => rw [cacheBreach_coherent hco]; exact h
  | false =>
    have incoherent : ∀ {p : Prop}, s.platform.coherent = true → p := fun hc => by simp [hco] at hc
    cases hr : s.running with
    | none => rw [cacheBreach_idle hr hco]; exact h.outside h.memWf _ _ _ incoherent
    | some r =>
      have hi := h.running r hr
      have hmark : RunInv s { r with stale := r.stale ++ [(addr, n)] } :=
        hi.mark hi.racedBound (untainted_of_more id (List.subset_append_left _ _)) (.inl rfl)
      obtain ⟨t, rfl, he⟩ := cacheBreach_running hr hco addr n
      rw [he]
      exact (h.rerun hr hmark incoherent).outside
        ((loseWords_onlyWords (R := fun _ => True) _ r s (by simp)).2.2 h.memWf) s.agenda s.observed _ incoherent

theorem cacheSync_inv {s : State} (h : Inv s) (addr n : Nat) : Inv (cacheSync addr n s) := by
  cases hco : s.platform.coherent with
  | true => simpa [cacheSync, hco] using h
  | false =>
    rw [cacheSync_eq hco]
    exact h.outside (Memory.wf_writeBytes h.memWf _ _) _ _ _ fun hc => by simp [hco] at hc

theorem assertReset_inv {s : State} (h : Inv s) : Inv (assertReset s) :=
  resetCore_inv (s := s.setResetIn true) h.memWf h.platformLegal fun hc => (h.coherent hc).1

theorem resetRelease_inv {s : State} (h : Inv s) : Inv (s.setResetIn false) where
  memWf := h.memWf
  platformLegal := h.platformLegal
  errCode := h.errCode
  quiet hq := nomatch hq
  running r hr := (h.running r hr).congr rfl rfl rfl rfl fun _ => rfl
  coherent := h.coherent

theorem happen_inv {e : Event} {s t : State} (h : Inv s) (ht : happen e s = .next t) : Inv t := by
  cases e with
  | regWrite offset width v => exact hostRegWrite_inv h ht
  | regRead offset width => exact hostRegRead_inv h ht
  | wait => exact hostWait_inv h ht
  | busWrite addr width v => exact hostBusWrite_inv h ht
  | busRead addr width => exact hostBusRead_inv h ht
  | memWrite addr bs => cases ht; exact hostMemWrite_inv h addr bs
  | memRead addr n => cases ht; exact hostMemRead_inv h addr n
  | irqSample => cases ht; exact observe_inv h _
  | core pick => cases ht; exact coreStep_inv h pick
  | memHang j => cases ht; exact hangJob_inv h j
  | cacheBreach addr n => cases ht; exact cacheBreach_inv h addr n
  | cacheSync addr n => cases ht; exact cacheSync_inv h addr n
  | resetAssert => cases ht; exact assertReset_inv h
  | resetRelease => cases ht; exact resetRelease_inv h

theorem step_inv {s t : State} (h : Inv s) (ht : step s = .next t) : Inv t := by
  cases ha : s.agenda with
  | nil => exact runAlone_inv h ((step_of_agenda_nil ha).symm.trans ht)
  | cons e es => exact happen_inv (setAgenda_inv h es) ((step_of_agenda_cons ha).symm.trans ht)

/-! ## No event changes the parameters of the platform -/

@[simp] theorem complete_platform (s : State) : (complete s).platform = s.platform := rfl

@[simp] theorem setRun_platform (r : Running) (s : State) : (setRun r s).platform = s.platform := rfl

@[simp] theorem finishJob_platform (r : Running) (j : Nat) (s : State) : (finishJob r j s).platform = s.platform := by
  rw [finishJob_eq]
  exact (writeJobWord_onlyWords (R := fun _ => True) r j _ _ s (by simp)).platform

theorem batchMove_platform (b : BatchMove) (r : Running) (s : State) : (batchMove b r s).platform = s.platform := by
  cases b <;> simp [batchMove, batchComplete]

theorem hashComplete_platform (r : Running) (s : State) : (hashComplete r s).platform = s.platform := by
  unfold hashComplete
  split
  · rfl
  · split <;> rfl

theorem decodeComplete_platform (r : Running) (e : Evaluated) (s : State) :
    (decodeComplete r e s).platform = s.platform := by
  unfold decodeComplete; split <;> rfl

theorem matchComplete_platform (r : Running) (e : Evaluated) (s : State) :
    (matchComplete r e s).platform = s.platform := by
  unfold matchComplete; split <;> rfl

theorem decodeStep_platform (pick : Nat) (r : Running) (s : State) : (decodeStep pick r s).platform = s.platform := by
  obtain ⟨-, hd⟩ | ⟨e, i, -, -, -, hd⟩ | ⟨e, -, -, hd⟩ := decodeStep_cases pick r s <;> rw [hd]
  · rfl
  · obtain ⟨t, ht, hw⟩ := writeValue_cases (R := fun _ => True) r e i s (by simp)
    rw [hw]; exact ht.platform
  · exact decodeComplete_platform r e s

theorem matchStep_platform (r : Running) (s : State) : (matchStep r s).platform = s.platform := by
  unfold matchStep
  split
  · rfl
  · exact matchComplete_platform r _ s

theorem batchStep_platform (pick : Nat) (r : Running) (s : State) : (batchStep pick r s).platform = s.platform := by
  obtain ⟨-, hd⟩ | ⟨b, -, hd⟩ := batchStep_cases pick r s <;> rw [hd]
  exact batchMove_platform b r s

theorem runStep_platform (pick : Nat) (r : Running) (s : State) : (runStep pick r s).platform = s.platform := by
  cases hop : r.op <;> simp only [runStep, hop]
  case hash => exact hashComplete_platform r s
  case map => rfl
  case decode => exact decodeStep_platform pick r s
  case matchFilter => exact matchStep_platform r s
  case batch => exact batchStep_platform pick r s

theorem coreStep_platform (pick : Nat) (s : State) : (coreStep pick s).platform = s.platform := by
  unfold coreStep
  split
  · rfl
  · split
    · exact runStep_platform pick _ s
    · rfl

theorem exec_platform {i : Instr} {s t : State} (h : exec i s = .next t) : t.platform = s.platform := by
  cases exec_effect h with
  | nothing | error | abortRequested => rfl
  | accepted op => rw [accept_eq]

theorem softReset_platform (s : State) : (softReset s).platform = s.platform := by
  obtain ⟨u, ho, hu⟩ := softReset_eq_resetCore s
  rw [hu]; exact ho.platform

theorem writeReg_platform {r : Reg} {v : Word} {s t : State} (h : writeReg r v s = .next t) :
    t.platform = s.platform := by
  cases r with
  | cmd =>
    simp only [writeReg, writeCmd] at h
    split at h
    · exact exec_platform h
    · cases h; rfl
  | ctrl =>
    cases h
    split
    · exact softReset_platform s
    · rfl
  | _ => cases h; rfl

theorem hostRegWrite_platform {offset width : Nat} {v : Word} {s t : State}
    (h : hostRegWrite offset width v s = .next t) : t.platform = s.platform := by
  obtain rfl | ⟨-, hw⟩ := hostRegWrite_next h
  · rfl
  · exact writeReg_platform hw

theorem hostRegRead_platform {offset width : Nat} {s t : State} (h : hostRegRead offset width s = .next t) :
    t.platform = s.platform := by
  rw [hostRegRead_next h]; rfl

theorem hostMemWrite_platform (addr : Nat) (bs : List Byte) (s : State) :
    (hostMemWrite addr bs s).platform = s.platform := by
  cases hr : s.running with
  | none => rw [hostMemWrite_idle hr]
  | some r => rw [hostMemWrite_running hr]

theorem hostBusWrite_platform {addr width : Nat} {v : Word} {s t : State}
    (h : hostBusWrite addr width v s = .next t) : t.platform = s.platform := by
  obtain hw | rfl := hostBusWrite_next h
  · exact hostRegWrite_platform hw
  · exact hostMemWrite_platform ..

theorem hostBusRead_platform {addr width : Nat} {s t : State} (h : hostBusRead addr width s = .next t) :
    t.platform = s.platform := by
  obtain hw | rfl := hostBusRead_next h
  · exact hostRegRead_platform hw
  · rfl

theorem hostWait_platform {s t : State} (h : hostWait s = .next t) : t.platform = s.platform := by
  obtain rfl | rfl := hostWait_next h
  · rfl
  · exact coreStep_platform ..

theorem runAlone_platform {s t : State} (h : runAlone s = .next t) : t.platform = s.platform := by
  obtain rfl | rfl := runAlone_next h
  · rfl
  · exact coreStep_platform ..

theorem hangJob_platform (j : Nat) (s : State) : (hangJob j s).platform = s.platform := by
  unfold hangJob
  split
  · rfl
  · split <;> rfl

theorem cacheBreach_platform (addr n : Nat) (s : State) : (cacheBreach addr n s).platform = s.platform := by
  cases hc : s.platform.coherent with
  | true => rw [cacheBreach_coherent hc]
  | false =>
    cases hr : s.running with
    | none => rw [cacheBreach_idle hr hc]
    | some r => obtain ⟨t, -, he⟩ := cacheBreach_running hr hc addr n; rw [he]

theorem cacheSync_platform (addr n : Nat) (s : State) : (cacheSync addr n s).platform = s.platform := by
  unfold cacheSync; split <;> rfl

theorem happen_platform {e : Event} {s t : State} (h : happen e s = .next t) : t.platform = s.platform := by
  cases e with
  | regWrite offset width v => exact hostRegWrite_platform h
  | regRead offset width => exact hostRegRead_platform h
  | wait => exact hostWait_platform h
  | busWrite addr width v => exact hostBusWrite_platform h
  | busRead addr width => exact hostBusRead_platform h
  | memWrite addr bs => cases h; exact hostMemWrite_platform ..
  | core pick => cases h; exact coreStep_platform ..
  | memHang j => cases h; exact hangJob_platform ..
  | cacheBreach addr n => cases h; exact cacheBreach_platform ..
  | cacheSync addr n => cases h; exact cacheSync_platform ..
  | memRead | irqSample | resetAssert | resetRelease => cases h; rfl

theorem step_platform {s t : State} (h : step s = .next t) : t.platform = s.platform := by
  cases ha : s.agenda with
  | nil => exact runAlone_platform ((step_of_agenda_nil ha).symm.trans h)
  | cons e es => exact happen_platform (s := { s with agenda := es }) ((step_of_agenda_cons ha).symm.trans h)

/-! ## Core steps -/

/-- Where no output word of the command has a byte, its output region has none (20_memory R110, R121). -/
theorem not_inRange_of_no_word {r : Running} {a : Nat} (h : ∀ k w, OutputWordAt r k w → a < w ∨ w + 4 ≤ a) :
    inRange (outputRegion r.op r.latched) a = false := by
  rw [Bool.eq_false_iff, inRange, ne_eq, decide_eq_true_eq]
  rintro ⟨h1, h2⟩
  cases hop : r.op with
  | hash | map | matchFilter => simp only [outputRegion, hop] at h1 h2; omega
  | decode =>
    simp only [outputRegion, hop, Config.filterCap] at h1 h2
    have := h ((a - r.latched.dstAddr.toNat) / 4) _ (.inl ⟨hop, by omega, rfl⟩)
    omega
  | batch =>
    simp only [outputRegion, hop] at h1 h2
    have := h ((a - r.latched.resAddr.toNat) / 4) _ (.inr ⟨hop, by omega, rfl⟩)
    omega

/-- A command none of whose accesses goes unanswered has a core step it can take (44_batch R383). -/
theorem coreCanMove_of_unhung {s : State} {r : Running} (h : Inv s) (hr : s.running = some r) (hh : r.hung = []) :
    coreCanMove s = true := by
  have hi := h.running r hr
  simp only [coreCanMove, hr]
  cases hop : r.op with
  | hash | map | decode | matchFilter => simp [hh]
  | batch =>
    have hlegal := h.platformLegal
    simp only [Platform.wellFormed, Platform.lanesLegal, Bool.and_eq_true, decide_eq_true_eq] at hlegal
    obtain ⟨⟨hlanes, -⟩, -⟩ := hlegal
    simpa using batchMoves_ne_nil (hi.batch hop) hlanes hh (runInv_written_nodup hi)

theorem coreStep_of_stuck {s : State} (h : coreCanMove s = false) (pick : Nat) : coreStep pick s = s := by
  unfold coreStep
  split
  · rfl
  · simp [h]

/-! ## The register window -/

/-- The accesses of the window the spec defines (10_state R32). -/
theorem accessDefined_iff {offset width : Nat} :
    accessDefined offset width = true ↔ width = 8 ∧ offset % 8 = 0 ∧ offset < 4096 := by
  rw [accessDefined, Bool.and_eq_true, Bool.and_eq_true, decide_eq_true_eq, beq_iff_eq, beq_iff_eq, and_assoc,
    windowSize_eq]

theorem hostRegWrite_defined {s : State} {offset : Nat} {v : Word} (ha : offset % 8 = 0) (hw : offset < 4096)
    (hq : s.resetIn = false) : hostRegWrite offset 8 v s = writeReg (regAt offset) v s := by
  simp [hostRegWrite, accessDefined_iff.2 ⟨rfl, ha, hw⟩, hq]

/-- A CMD write that is next on the agenda runs the command its word decodes to (10_state R38). -/
theorem step_of_cmdWrite {s : State} {w : Word} {es : List Event} {i : Instr}
    (ha : s.agenda = .regWrite 0x020 8 w :: es) (hq : s.resetIn = false) (hd : decode w = .ok i) :
    step s = exec i { s with agenda := es } := by
  rw [step_of_agenda_cons ha, happen, hostRegWrite_defined (s := { s with agenda := es }) rfl (by decide) hq]
  simp [regAt, writeReg, writeCmd, hd]

theorem readReg_id (s : State) : readReg 0x000 s = Config.idValue := rfl

/-- PARAMS reads the same with RESET_IN asserted or not (10_state R34). -/
theorem readReg_params (s : State) : readReg 0x008 s = paramsWord s.platform := by
  unfold readReg; split <;> rfl

theorem readReg_of_awake {s : State} (hq : s.resetIn = false) (offset : Nat) :
    readReg offset s = regWord (regAt offset) s := by simp [readReg, hq]

theorem readReg_setRegs {s : State} (hq : s.resetIn = false) (o : Operands) (offset : Nat) :
    readReg offset (s.setRegs o) = regWord (regAt offset) (s.setRegs o) := readReg_of_awake (s := s.setRegs o) hq offset

/-- The offset of a register of the window (10_state R31); the reserved ones begin at 0x0A8. -/
def regOffset : Reg → Nat
  | .id => 0x000
  | .params => 0x008
  | .ctrl => 0x010
  | .status => 0x018
  | .cmd => 0x020
  | .cfg => 0x028
  | .key0 => 0x030
  | .key1 => 0x038
  | .srcAddr => 0x040
  | .srcLen => 0x048
  | .dstAddr => 0x050
  | .watchAddr => 0x058
  | .watchCount => 0x060
  | .argH => 0x068
  | .argF => 0x070
  | .jobAddr => 0x078
  | .jobCount => 0x080
  | .resAddr => 0x088
  | .result0 => 0x090
  | .result1 => 0x098
  | .jobsDone => 0x0A0
  | .reserved => 0x0A8

/-- Each register but the reserved ones stands at one offset only. -/
theorem regOffset_regAt {a : Nat} (h : regAt a ≠ .reserved) : regOffset (regAt a) = a := by
  unfold regAt at h ⊢
  split <;> simp_all [regOffset]

theorem regOffset_lt {r : Reg} (h : r ≠ .reserved) : regOffset r < 0x0A8 := by
  cases r with
  | reserved => exact absurd rfl h
  | _ => simp [regOffset]

theorem regAt_reserved {a : Nat} (h : 0x0A8 ≤ a) : regAt a = .reserved := by
  by_contra hne
  have hlt := regOffset_lt hne
  rw [regOffset_regAt hne] at hlt
  omega

theorem regAt_ne_of_ne {a b : Nat} (ha : regAt a ≠ .reserved) (h : b ≠ a) : regAt b ≠ regAt a := by
  intro he
  apply h
  calc b = regOffset (regAt b) := (regOffset_regAt (he ▸ ha)).symm
    _ = regOffset (regAt a) := by rw [he]
    _ = a := regOffset_regAt ha

/-- Read-only and reserved: a write has no effect (10_state R32). -/
def isReadOnly : Reg → Bool
  | .id | .params | .result0 | .result1 | .jobsDone | .reserved => true
  | .ctrl | .status | .cmd | .cfg | .key0 | .key1 | .srcAddr | .srcLen | .dstAddr | .watchAddr | .watchCount | .argH | .argF
  | .jobAddr | .jobCount | .resAddr => false

theorem writeReg_readOnly {r : Reg} (hr : isReadOnly r = true) (v : Word) (s : State) : writeReg r v s = .next s := by
  cases r <;> cases hr <;> rfl

theorem hostRegWrite_readOnly {offset : Nat} (hr : isReadOnly (regAt offset) = true) (ha : offset % 8 = 0)
    (hw : offset < 4096) (v : Word) (s : State) : hostRegWrite offset 8 v s = .next s := by
  rw [hostRegWrite, if_pos (accessDefined_iff.2 ⟨rfl, ha, hw⟩), writeReg_readOnly hr, ite_self]

/-! ## The operand registers -/

/-- The registers in which a write is stored (10_state R40 to R48). -/
def isOperand : Reg → Bool
  | .cfg | .key0 | .key1 | .srcAddr | .srcLen | .dstAddr | .watchAddr | .watchCount | .argH | .argF | .jobAddr
  | .jobCount | .resAddr => true
  | .id | .params | .ctrl | .status | .cmd | .result0 | .result1 | .jobsDone | .reserved => false

theorem writeReg_operand {r : Reg} (hr : isOperand r = true) (v : Word) (s : State) :
    writeReg r v s = .next (s.setRegs (writeOperand r v s.regs)) := by
  cases r <;> cases hr <;> rfl

theorem not_reserved_of_isOperand {r : Reg} (h : isOperand r = true) : r ≠ .reserved := by
  rintro rfl
  cases h

section WriteOperand

variable (r : Reg) (v : Word) (o : Operands)

@[simp] theorem writeOperand_cfg : (writeOperand r v o).cfg = if r = .cfg then cfgOfWord v else o.cfg := by
  cases r <;> rfl
@[simp] theorem writeOperand_key0 : (writeOperand r v o).key0 = if r = .key0 then v else o.key0 := by cases r <;> rfl
@[simp] theorem writeOperand_key1 : (writeOperand r v o).key1 = if r = .key1 then v else o.key1 := by cases r <;> rfl
@[simp] theorem writeOperand_srcAddr : (writeOperand r v o).srcAddr = if r = .srcAddr then v else o.srcAddr := by
  cases r <;> rfl
@[simp] theorem writeOperand_srcLen :
    (writeOperand r v o).srcLen = if r = .srcLen then v.extractLsb' 0 32 else o.srcLen := by cases r <;> rfl
@[simp] theorem writeOperand_dstAddr : (writeOperand r v o).dstAddr = if r = .dstAddr then v else o.dstAddr := by
  cases r <;> rfl
@[simp] theorem writeOperand_watchAddr :
    (writeOperand r v o).watchAddr = if r = .watchAddr then v else o.watchAddr := by cases r <;> rfl
@[simp] theorem writeOperand_watchCount :
    (writeOperand r v o).watchCount = if r = .watchCount then v.extractLsb' 0 32 else o.watchCount := by cases r <;> rfl
@[simp] theorem writeOperand_argH : (writeOperand r v o).argH = if r = .argH then v else o.argH := by cases r <;> rfl
@[simp] theorem writeOperand_argF : (writeOperand r v o).argF = if r = .argF then v else o.argF := by cases r <;> rfl
@[simp] theorem writeOperand_jobAddr : (writeOperand r v o).jobAddr = if r = .jobAddr then v else o.jobAddr := by
  cases r <;> rfl
@[simp] theorem writeOperand_jobCount :
    (writeOperand r v o).jobCount = if r = .jobCount then v.extractLsb' 0 32 else o.jobCount := by cases r <;> rfl
@[simp] theorem writeOperand_resAddr : (writeOperand r v o).resAddr = if r = .resAddr then v else o.resAddr := by
  cases r <;> rfl

end WriteOperand

@[simp] theorem statusWord_setRegs (s : State) (o : Operands) : statusWord (s.setRegs o) = statusWord s := rfl

/-- Writing one operand register changes no other register of the window (10_state R47). -/
theorem regWord_writeOperand_of_ne {r r' : Reg} (h : r' ≠ r) (v : Word) (s : State) :
    regWord r' (s.setRegs (writeOperand r v s.regs)) = regWord r' s := by
  cases r' <;> simp [regWord, h.symm]

theorem hostRegWrite_operand {s : State} {offset : Nat} {v : Word} (hq : s.resetIn = false)
    (ho : isOperand (regAt offset) = true) (ha : offset % 8 = 0) :
    hostRegWrite offset 8 v s = .next (s.setRegs (writeOperand (regAt offset) v s.regs)) := by
  have hne := not_reserved_of_isOperand ho
  have hlt := regOffset_lt hne
  rw [regOffset_regAt hne] at hlt
  rw [hostRegWrite_defined ha (by omega) hq, writeReg_operand ho]

theorem readReg_writeOperand_of_ne {s : State} {offset other : Nat} {v : Word} (hq : s.resetIn = false)
    (ho : isOperand (regAt offset) = true) (hne : other ≠ offset) :
    readReg other (s.setRegs (writeOperand (regAt offset) v s.regs)) = readReg other s := by
  rw [readReg_of_awake hq, readReg_setRegs hq,
    regWord_writeOperand_of_ne (regAt_ne_of_ne (not_reserved_of_isOperand ho) hne)]

/-! ## Fields of a register as numbers -/

/-- A 32-bit register reads zero-extended (10_state R43, R45, R48, R50). -/
theorem toNat_zeroExtend (x : BitVec 32) : (x.setWidth 64).toNat = x.toNat :=
  BitVec.toNat_setWidth_of_le (by decide)

/-- Bit i of a word, read from its number. -/
theorem getLsbD_of_toNat {w : Word} {i : Nat} {b : Bool} (h : w.toNat / 2 ^ i % 2 = b.toNat) : w.getLsbD i = b := by
  rw [← BitVec.testBit_toNat, Nat.testBit_eq_decide_div_mod_eq, h]
  cases b <;> rfl

/-- A field of n bits from bit i, as a number. -/
theorem toNat_extractField {w : Word} {i n : Nat} : (w.extractLsb' i n).toNat = w.toNat / 2 ^ i % 2 ^ n := by
  rw [BitVec.extractLsb'_toNat, Nat.shiftRight_eq_div_pow]

theorem toNat_extractLow {w : Word} {n : Nat} : (w.extractLsb' 0 n).toNat = w.toNat % 2 ^ n := by
  rw [toNat_extractField, pow_zero, Nat.div_one]

theorem errCodeByte_toNat (e : Option CmdError) : (errCodeByte e).toNat = errValue e := by
  cases e with
  | none => rfl
  | some e => cases e <;> rfl

theorem lastOpByte_toNat (o : Option Op) : (lastOpByte o).toNat = opcodeValue o := by
  cases o with
  | none => rfl
  | some op => cases op <;> rfl

end Sys2Proof.Machine

namespace Sys2Proof.Proofs

open Machine Claims

/-- Settles O55: the next event, or with none to come a step of the core, keeps the invariant, one lemma per event. -/
theorem everyStepKeepsTheInvariant : Obligations.EveryStepKeepsTheInvariant :=
  fun _ _ => step_inv

/-- Settles O7: the check of CFG comes before that of alignment, and HASH and MAP undergo neither. -/
theorem illegalModulusRejectsItsUsersOnly : Obligations.IllegalModulusRejectsItsUsersOnly := by
  intro s hr
  refine ⟨fun hm => ⟨?_, ?_, ?_⟩, ?_, ?_, rfl, exec_abort_idle hr, fun hm n hn => ?_⟩
  · exact congrArg _ (issue_of_illegal_modulus (op := .decode) hr rfl hm)
  · exact congrArg _ (issue_of_illegal_modulus (op := .matchFilter) hr rfl hm)
  · exact congrArg _ (issue_of_illegal_modulus (op := .batch) hr rfl hm)
  · exact congrArg _ (issue_of_unchecked (op := .hash) hr rfl rfl)
  · exact congrArg _ (issue_of_unchecked (op := .map) hr rfl rfl)
  · have hf : n * s.regs.cfg.m.toNat ≤ 2 ^ 32 := Nat.mul_le_mul (m₂ := 2 ^ 20) hn hm.2
    exact ⟨hf, fun h hh => rangeMap_lt hh hf⟩

/-- Settles O35: the frame of a core step, with DONE and ABORTED 0 as long as the command runs. -/
theorem coreStepFrame : Obligations.CoreStepFrame := by
  intro s pick h
  cases hr : s.running with
  | none => simp [coreStep_none pick hr, hr, SameOutside]
  | some r =>
    have hi := h.running r hr
    have hf := coreStep_frame pick hr hi
    refine ⟨⟨hf.platform, hf.irqEn, hf.regs, hf.resetIn, hf.agenda, hf.observed, hf.stale⟩, nofun, fun hrun => ?_, ?_⟩
    · obtain ⟨r', hr'⟩ := Option.isSome_iff_exists.1 hrun
      have hi' := coreStep_run_inv pick hr hi r' hr'
      obtain ⟨h0, h1⟩ := hf.results hrun
      exact ⟨h0, h1, hi'.notDone.trans hi.notDone.symm, hi'.notAborted.trans hi.notAborted.symm⟩
    · rintro _ ⟨⟩
      exact ⟨fun a ha => hf.mem a (not_inRange_of_no_word ha), hf.batch, hf.err, hf.words, hf.result1, hf.result0,
        hf.lastOp⟩

/-- Settles O43: each field is read off STATUS as a number, the others being bounded. -/
theorem statusReadsItsFields : Obligations.StatusReadsItsFields := by
  intro s hq
  have hread : readReg 0x018 s = statusWord s := readReg_of_awake hq _
  rw [hread]
  have hword := statusWord_toNat s
  have hbusy := Bool.toNat_le (busy s)
  have hdone := Bool.toNat_le s.status.done
  have herr := Bool.toNat_le s.status.err
  have haborted := Bool.toNat_le s.status.aborted
  have hbusErr := Bool.toNat_le s.status.busErr
  have hcode := (errCodeByte s.status.errCode).isLt
  have hop := (lastOpByte s.status.lastOp).isLt
  refine ⟨getLsbD_of_toNat (b := busy s) ?_, getLsbD_of_toNat ?_, getLsbD_of_toNat ?_, getLsbD_of_toNat ?_,
    getLsbD_of_toNat ?_, BitVec.eq_of_toNat_eq (toNat_extractField.trans ?_), toNat_extractField.trans ?_,
    toNat_extractField.trans ?_, BitVec.eq_of_toNat_eq (toNat_extractField.trans ?_)⟩
  · omega
  · omega
  · omega
  · omega
  · omega
  · change _ = 0; omega
  · rw [← errCodeByte_toNat]; omega
  · rw [← lastOpByte_toNat]; omega
  · change _ = 0; omega

/-- Settles O1: with a command running, `wait` and the empty agenda both turn on whether the core can move. -/
theorem stepRunsDecodedCommand : Obligations.StepRunsDecodedCommand := by
  refine ⟨fun s w es i => step_of_cmdWrite, fun s w i => step_of_cmdWrite (s := s.withFetchWord 64 w) rfl rfl,
    fun s e es => step_of_agenda_cons, fun s pick offset width v => ⟨rfl, rfl, rfl, rfl⟩,
    fun s hr => ⟨hostWait_idle hr, fun ha => (step_of_agenda_nil ha).trans (runAlone_idle hr)⟩, fun s r h hr => ?_⟩
  have hwait : happen .wait s = _ := hostWait_running hr
  have halone : s.agenda = [] → step s = _ := fun ha => (step_of_agenda_nil ha).trans (runAlone_running hr)
  have hunhung : r.hung = [] → coreCanMove s = true := coreCanMove_of_unhung h hr
  have hstuck : coreCanMove s = false → ∀ pick, coreStep pick s = s := coreStep_of_stuck
  cases hmove : coreCanMove s with
  | true =>
    rw [hmove] at hwait halone
    exact ⟨fun _ => ⟨hwait, halone⟩, .inl hwait, fun ha => .inl (halone ha)⟩
  | false =>
    rw [hmove] at hwait halone
    exact ⟨fun hh => absurd (hunhung hh) (by simp [hmove]), .inr ⟨hwait, hstuck hmove⟩,
      fun ha => .inr ⟨halone ha, hstuck hmove⟩⟩

/-- Settles O10, effect by effect: acceptance alone touches DONE, ABORTED, LAST_OP and JOBS_DONE, and needs an idle core. -/
theorem commandIssueFrame : Obligations.CommandIssueFrame := by
  intro i s t h
  cases exec_effect h with
  | nothing | error => simp [SameOutside, cmdError]
  | abortRequested => simp [SameOutside, setRun]
  | accepted op hi hr =>
    subst hi
    rw [accept_eq]
    cases op <;> simp [SameOutside, hr, instrOf]

/-- Settles O42: the write is the acknowledgement `ackStatus`. -/
theorem statusWriteClearsWhatItCarries : Obligations.StatusWriteClearsWhatItCarries := by
  intro s v hq
  have acked : ∀ b c : Bool, (b && !c) = if c then false else b := by decide
  exact ⟨ackStatus v s, hostRegWrite_defined rfl (by decide) hq, rfl, acked _ _, acked _ _, acked _ _, acked _ _, rfl, rfl⟩

/-- Settles O44: M and P are fields of the written word, and CFG reads as the two alone. -/
theorem cfgStoresItsFieldsAsWritten : Obligations.CfgStoresItsFieldsAsWritten := by
  intro s v hq
  have hm : (cfgOfWord v).m.toNat = v.toNat % 2 ^ 21 := toNat_extractLow
  have hp : (cfgOfWord v).p.toNat = v.toNat / 2 ^ 24 % 2 ^ 5 := toNat_extractField
  refine ⟨_, hostRegWrite_operand hq rfl rfl, hm, hp, rfl, ?_⟩
  rw [readReg_setRegs hq, ← hm, ← hp]
  exact cfgWord_toNat (cfgOfWord v)

/-- Settles O45: one register for each offset, and no other register at an offset of its own changes. -/
theorem operandWriteLeavesTheRunningCommand : Obligations.OperandWriteLeavesTheRunningCommand := by
  intro s offset v hq ho
  have operands : ∀ a ∈ [0x030, 0x038, 0x040, 0x048, 0x050, 0x058, 0x060, 0x068, 0x070, 0x078, 0x080, 0x088],
      isOperand (regAt a) = true ∧ a % 8 = 0 := by decide
  obtain ⟨hop, ha⟩ := operands offset ho
  refine ⟨_, hostRegWrite_operand hq hop ha, rfl, ?_, fun other => readReg_writeOperand_of_ne hq hop⟩
  rw [readReg_setRegs hq]
  simp only [List.mem_cons, List.not_mem_nil, or_false] at ho
  rcases ho with rfl | rfl | rfl | rfl | rfl | rfl | rfl | rfl | rfl | rfl | rfl | rfl <;>
    simp [regAt, regWord, -BitVec.toNat_setWidth, toNat_zeroExtend]

/-- Settles O46: a reserved offset has no register, a read-only register no write, and only 64 bits at a multiple of 8 of
the window are an access. -/
theorem windowAccessRules : Obligations.WindowAccessRules := by
  refine ⟨fun s offset hlo hhi ha => ⟨?_, fun v => ?_⟩, fun s offset v ho => ?_, fun s => rfl,
    fun s offset width v h => ?_⟩
  · rw [readReg, regAt_reserved hlo, regWord]
  · exact hostRegWrite_readOnly (by rw [regAt_reserved hlo]; rfl) ha hhi v s
  · simp only [List.mem_cons, List.not_mem_nil, or_false] at ho
    rcases ho with rfl | rfl | rfl | rfl | rfl <;> exact hostRegWrite_readOnly rfl rfl (by decide) v s
  · have hno : ¬accessDefined offset width = true := fun hd => by
      obtain ⟨rfl, h1, h2⟩ := accessDefined_iff.1 hd
      omega
    simp [hostRegWrite, hostRegRead, hno]

/-- Settles O47: each register is read off the state at its offset. -/
theorem everyRegisterReadsItsState : Obligations.EveryRegisterReadsItsState := by
  refine ⟨fun s offset ha hw => ?_, fun s hq => ⟨⟨rfl, fun hp => ?_, ?_⟩, ?_, ?_, ?_, fun v hv => ?_⟩⟩
  · rw [hostRegRead, if_pos (accessDefined_iff.2 ⟨rfl, ha, hw⟩)]; rfl
  · simp only [Platform.wellFormed, Platform.lanesLegal, Platform.candCapLegal, Bool.and_eq_true, decide_eq_true_eq] at hp
    rw [readReg_params, paramsWord_toNat]
    omega
  · rw [readReg_of_awake hq]; exact cfgWord_toNat _
  · simp only [readReg_of_awake hq, regAt, regWord, toNat_zeroExtend, and_self]
  · simp only [readReg_of_awake hq, regAt, regWord, toNat_zeroExtend, and_self]
  · rw [readReg_of_awake hq]
    change ((BitVec.ofBool s.irqEn).setWidth 64).toNat = _
    cases s.irqEn <;> rfl
  · rw [hostRegWrite_defined rfl (by decide) hq]
    simp only [regAt, writeReg, hv, Bool.false_eq_true, if_false, State.setIrqEn]

/-- Settles O49: the three resets all end in the core's reset state. -/
theorem interruptLevelFollowsDoneAndErr : Obligations.InterruptLevelFollowsDoneAndErr := by
  refine ⟨fun s => by simp [irq], fun s t ht => ?_⟩
  rcases ht with rfl | rfl | rfl
  · exact ⟨rfl, rfl, rfl, rfl⟩
  · obtain ⟨u, -, hu⟩ := softReset_eq_resetCore s
    rw [hu]; exact ⟨rfl, rfl, rfl, rfl⟩
  · exact ⟨rfl, rfl, rfl, rfl⟩

/-- Settles O56: no event changes the platform, which PARAMS reads. -/
theorem everyStepKeepsTheParameters : Obligations.EveryStepKeepsTheParameters := by
  intro s t h
  have hp := step_platform h
  exact ⟨hp, readReg_id t, by rw [readReg_params, readReg_params, hp]⟩

end Sys2Proof.Proofs

/-! Memory as the host and the core see it (20_memory): the bus, host reads and writes, races, breaches of the cache
duties, and the window on the host's bus. First the lemmas about the model's operations, then one theorem for each
obligation. -/

namespace Sys2Proof.Machine

open Sys2Proof.Claims

/-! ## Bytes and byte ranges -/

theorem getD_leBytes {n i : Nat} (hi : i < n) (v : Nat) :
    (leBytes n v).getD i 0 = BitVec.ofNat 8 (v / 2 ^ (8 * i)) := by
  induction n generalizing i v with
  | zero => omega
  | succ n ih =>
    cases i with
    | zero => simp [leBytes]
    | succ i =>
      rw [leBytes, List.getD_cons_succ, ih (by omega), Nat.div_div_eq_div_mul, Nat.mul_succ, pow_add, Nat.mul_comm]
      norm_num

theorem getD_map_range {n i : Nat} (hi : i < n) (f : Nat → Byte) : ((List.range n).map f).getD i 0 = f i := by
  simp [List.getD_eq_getElem?_getD, hi]

theorem inRanges_stale_iff (s : State) (a : Nat) : inRanges s.stale a = true ↔ Stale s a := by
  simp [inRanges, inRange, Stale]

/-- Cutting g out of x leaves exactly the bytes of x that are not in g. -/
theorem exists_cutRange_iff (g x : Nat × Nat) (a : Nat) :
    (∃ y ∈ cutRange g x, y.1 ≤ a ∧ a < y.1 + y.2) ↔ (x.1 ≤ a ∧ a < x.1 + x.2) ∧ (a < g.1 ∨ g.1 + g.2 ≤ a) := by
  simp only [cutRange, List.mem_filter, List.mem_cons, List.not_mem_nil, or_false, bne_iff_ne, ne_eq]
  constructor
  · rintro ⟨y, ⟨rfl | rfl, -⟩, h1, h2⟩
    · simp only at h1 h2; omega
    · simp only at h1 h2; omega
  · rintro ⟨hx, hlow | hhigh⟩
    · exact ⟨_, ⟨.inl rfl, by simp only; omega⟩, by simp only; omega, by simp only; omega⟩
    · exact ⟨_, ⟨.inr rfl, by simp only; omega⟩, by simp only; omega, by simp only; omega⟩

/-- Cutting g out of every range leaves exactly their bytes that are not in g. -/
theorem exists_flatMap_cutRange_iff (gs : List (Nat × Nat)) (g : Nat × Nat) (a : Nat) :
    (∃ y ∈ gs.flatMap (cutRange g), y.1 ≤ a ∧ a < y.1 + y.2) ↔
      (∃ x ∈ gs, x.1 ≤ a ∧ a < x.1 + x.2) ∧ (a < g.1 ∨ g.1 + g.2 ≤ a) := by
  constructor
  · rintro ⟨y, hy, ha⟩
    obtain ⟨x, hx, hyx⟩ := List.mem_flatMap.1 hy
    obtain ⟨hxa, hout⟩ := (exists_cutRange_iff g x a).1 ⟨y, hyx, ha⟩
    exact ⟨⟨x, hx, hxa⟩, hout⟩
  · rintro ⟨⟨x, hx, hxa⟩, hout⟩
    obtain ⟨y, hyx, ha⟩ := (exists_cutRange_iff g x a).2 ⟨hxa, hout⟩
    exact ⟨y, List.mem_flatMap.2 ⟨x, hx, hyx⟩, ha⟩

theorem writeOutputWord_eq (a : Nat) (v : Word32) (s : State) :
    writeOutputWord a v s =
      { s with mem := (writeOutputWord a v s).mem, status := (writeOutputWord a v s).status,
               drawn := (writeOutputWord a v s).drawn } := by
  unfold writeOutputWord; split <;> rfl

theorem not_accessible_of_rejected {p : Platform} {a n : Nat}
    (h : 2 ^ 64 < a + n ∨ ∃ i < n, busOk p (a + i) = false) : ¬accessible p a n := by
  rintro ⟨hle, hok⟩
  obtain hlt | ⟨i, hi, hno⟩ := h
  · omega
  · exact absurd (hok i hi) (by simp [hno])

/-! ## What makes an output any value -/

theorem breached_iff (r : Running) (g : Nat × Nat) : breached r g = true ↔ ∃ b ∈ r.stale, meets b g = true := by
  simp [breached]

theorem tainted_iff (p : Platform) (r : Running) (j : Nat) : tainted p r j = true ↔ Disturbed p r j := by
  simp only [tainted, Bool.or_eq_true, List.contains_eq_mem, decide_eq_true_eq, List.any_eq_true, breached_iff, Disturbed,
    or_assoc]

theorem wordLost_iff (p : Platform) (r : Running) (j addr : Nat) :
    wordLost p r j addr = true ↔ Disturbed p r j ∨ UnderBreach r addr := by
  rw [wordLost, Bool.or_eq_true, tainted_iff, breached_iff, UnderBreach]

/-! ## The output words of a running command -/

theorem outputWordAt_iff (r : Running) (k w : Nat) :
    OutputWordAt r k w ↔ k < outputWords r.op r.latched ∧ w = outputAddr r.op r.latched k := by
  cases hop : r.op <;> simp [OutputWordAt, outputWords, outputAddr, outputRegion, hop, Config.filterCap]

theorem outputJob_eq (r : Running) (k : Nat) : outputJob r k = if r.op = .batch then k else 0 := by
  cases hop : r.op <;> simp [outputJob, hop]

/-- An output word belongs to a job of the command. -/
theorem outputJob_lt_of_outputWordAt {r : Running} {k w : Nat} (h : OutputWordAt r k w) :
    outputJob r k < jobsOf r.op r.latched := by
  obtain ⟨hop, -, -⟩ | ⟨hop, hk, -⟩ := h
  · simp [outputJob, jobsOf, hop]
  · simpa [outputJob, jobsOf, hop] using hk

/-- A word the command has written is one of its output words. -/
theorem RunInv.outputWordAt_of_written {s : State} {r : Running} (h : RunInv s r) {k : Nat} (hk : k ∈ r.written) :
    OutputWordAt r k (outputAddr r.op r.latched k) := by
  cases hop : r.op with
  | hash => simp [h.noWords (.inl hop)] at hk
  | map => simp [h.noWords (.inr (.inl hop))] at hk
  | matchFilter => simp [h.noWords (.inr (.inr hop))] at hk
  | decode => exact .inl ⟨hop, h.decodeBound hop k hk, rfl⟩
  | batch => exact .inr ⟨hop, (h.batch hop).writtenBound k hk, rfl⟩

/-- The value the command writes to an output word is the one the model settles that word with. -/
theorem outputValue_of_writesWord {p : Platform} {r : Running} {k w : Nat} {v : Word32} (h : WritesWord p r k w v) :
    outputValue p r k = some v := by
  obtain ⟨hat, ⟨hop, x, hx, rfl⟩ | ⟨hop, rfl⟩⟩ := h
  · simp [outputValue, hop, hx]
  · have hk : k < jobsOf r.op r.latched := by simpa [outputJob, hop] using outputJob_lt_of_outputWordAt hat
    simp only [jobsOf, hop] at hk
    simp [outputValue, hop, jobCount, hk]

/-! ## Output words that become any value -/

theorem anyWord_holds {s : State} (hw : s.mem.wf) {addr : Nat} (h64 : addr + 4 ≤ 2 ^ 64) :
    holdsWord (anyWord addr s).mem addr ((Config.free s.drawn).setWidth 32) := by
  intro i hi
  simp only [anyWord, draw_eq, State.setMem_mem]
  rw [Memory.read_writeBytes hw, length_leBytes, if_pos ⟨by omega, by omega, by simp only [Config.addrLimit]; omega⟩,
    Nat.add_sub_cancel_left, getD_leBytes_four _ i hi]
  rfl

/-- Of several output words that become any value, each holds a free value of its own in the end: the words do not
overlap. -/
theorem foldl_anyWord_holds {op : Op} {o : Operands} {k : Nat} (h64 : outputAddr op o k + 4 ≤ 2 ^ 64) {ks : List Nat}
    (hk : k ∈ ks) {s : State} (hw : s.mem.wf) :
    ∃ n, s.drawn ≤ n ∧ holdsWord (ks.foldl (fun u j => anyWord (outputAddr op o j) u) s).mem (outputAddr op o k)
      ((Config.free n).setWidth 32) := by
  induction ks generalizing s with
  | nil => simp at hk
  | cons j js ih =>
    rw [List.foldl_cons]
    by_cases hjs : k ∈ js
    · obtain ⟨n, hn, hh⟩ := ih hjs (s := anyWord (outputAddr op o j) s) (Memory.wf_writeBytes hw _ _)
      exact ⟨n, Nat.le_trans (Nat.le_succ _) hn, hh⟩
    · obtain rfl : k = j := (List.mem_cons.1 hk).resolve_right hjs
      have later : OnlyWords (fun a => a < outputAddr op o k ∨ outputAddr op o k + 4 ≤ a) (anyWord (outputAddr op o k) s)
          (js.foldl (fun u i => anyWord (outputAddr op o i) u) (anyWord (outputAddr op o k) s)) := by
        refine OnlyWords.foldl (fun u i hi => anyWord_onlyWords _ u fun a h1 h2 => ?_) _
        have hne : i ≠ k := fun he => hjs (he ▸ hi)
        simp only [outputAddr] at h1 h2 ⊢
        omega
      exact ⟨s.drawn, Nat.le_refl _, fun i hi => (later.2.1 _ (by omega)).trans (anyWord_holds hw h64 i hi)⟩

/-- A word already written that is lost holds a free value. -/
theorem loseWords_holds {lost : Nat → Bool} {r : Running} {s : State} {k w : Nat} (hw : s.mem.wf) (hk : k ∈ r.written)
    (hat : OutputWordAt r k w) (hl : lost k = true) (h64 : w + 4 ≤ 2 ^ 64) :
    ∃ n, s.drawn ≤ n ∧ holdsWord (loseWords lost r s).mem w ((Config.free n).setWidth 32) := by
  obtain ⟨-, rfl⟩ := (outputWordAt_iff r k w).1 hat
  exact foldl_anyWord_holds h64 (List.mem_filter.2 ⟨hk, hl⟩) hw

/-- Losing words changes no byte outside the written words that are lost. -/
theorem loseWords_read_off {lost : Nat → Bool} {r : Running} {s : State} {a : Nat} (h : RunInv s r)
    (hoff : ∀ k ∈ r.written, lost k = true → ∀ w, OutputWordAt r k w → a < w ∨ w + 4 ≤ a) :
    (loseWords lost r s).mem.read a = s.mem.read a := by
  have hw := loseWords_onlyWords (R := (· ≠ a)) lost r s fun k hk hl x h1 h2 => by
    have := hoff k hk hl _ (h.outputWordAt_of_written hk)
    omega
  exact hw.2.1 a fun hne => hne rfl

/-- What a breach over g reaches of the words already written (20_memory R118). -/
theorem breachReaches_iff (p : Platform) (g : Nat × Nat) (r : Running) {k w : Nat} (h : OutputWordAt r k w) :
    (touches p g r (outputJob r k) || meets g (outputAddr r.op r.latched k, 4)) = true ↔ BreachReaches p g r k w := by
  obtain ⟨-, rfl⟩ := (outputWordAt_iff r k w).1 h
  rw [Bool.or_eq_true, BreachReaches, or_comm, ← outputJob_eq, touches, List.any_eq_true]

/-! ## A read of the host -/

/-- The bytes a host read answers (20_memory R113, R118). -/
def hostReadBytes (s : State) (addr n : Nat) : List Byte :=
  (List.range n).map fun i =>
    if inRanges s.stale (addr + i) then (freeAt s (hostReadDraws s + i)).setWidth 8 else hostByte s (addr + i)

theorem hostMemRead_eq (addr n : Nat) (s : State) :
    hostMemRead addr n s =
      { s with observed := s.observed ++ [.mem addr (hostReadBytes s addr n)], drawn := s.drawn + (hostReadDraws s + n) } :=
  rfl

theorem length_hostReadBytes (s : State) (addr n : Nat) : (hostReadBytes s addr n).length = n := by simp [hostReadBytes]

theorem getD_hostReadBytes_of_stale {s : State} {addr n i : Nat} (hi : i < n) (h : Stale s (addr + i)) :
    (hostReadBytes s addr n).getD i 0 = (Config.free (s.drawn + (hostReadDraws s + i))).setWidth 8 := by
  rw [hostReadBytes, getD_map_range hi, if_pos ((inRanges_stale_iff s _).2 h), freeAt]

theorem getD_hostReadBytes_of_not_stale {s : State} {addr n i : Nat} (hi : i < n) (h : ¬Stale s (addr + i)) :
    (hostReadBytes s addr n).getD i 0 = hostByte s (addr + i) := by
  rw [hostReadBytes, getD_map_range hi, if_neg fun hc => h ((inRanges_stale_iff s _).1 hc)]

theorem hostByte_idle {s : State} (h : s.running = none) (a : Nat) : hostByte s a = s.mem.read a := by simp [hostByte, h]

/-- A byte of an output word that the command writes, is not lost and can be written: as memory holds it, or of the new or
the old word, by a choice for the whole word (20_memory R109, R113). -/
theorem hostByte_outputWord {s : State} {r : Running} {k w i : Nat} {v : Word32} (hr : s.running = some r)
    (hv : WritesWord s.platform r k w v) (hlost : wordLost s.platform r (outputJob r k) w = false)
    (hacc : accessible s.platform w 4) (hi : i < 4) :
    hostByte s (w + i) =
      if (freeAt s (2 * k)).getLsbD 0 then s.mem.read (w + i)
      else if (freeAt s (2 * k)).getLsbD 1 then v.extractLsb' (8 * i) 8 else r.before.read (w + i) := by
  obtain ⟨hk, hw⟩ := (outputWordAt_iff r k w).1 hv.1
  have hin : inRange (outputRegion r.op r.latched) (w + i) = true := inRange_outputAddr hk (by omega) (by omega)
  have hbase : w = (outputRegion r.op r.latched).1 + 4 * k := hw
  have hword : (w + i - (outputRegion r.op r.latched).1) / 4 = k := by omega
  have hbyte : (w + i - (outputRegion r.op r.latched).1) % 4 = i := by omega
  simp only [hostByte, hr, hin, if_true, hword, hbyte, ← hw, hlost, Bool.false_eq_true, if_false,
    outputValue_of_writesWord hv, (rangeOk_iff _ _ _).2 hacc, getD_leBytes_four v i hi]

/-! ## Synchronising the caches -/

/-- The bytes that stand in memory after a synchronisation (20_memory R118). -/
def syncedBytes (s : State) (addr n : Nat) : List Byte :=
  (List.range n).map fun i => if inRanges s.stale (addr + i) then (freeAt s i).setWidth 8 else s.mem.read (addr + i)

theorem cacheSync_eq_synced {s : State} (h : s.platform.coherent = false) (addr n : Nat) :
    cacheSync addr n s =
      { s with mem := s.mem.writeBytes addr (syncedBytes s addr n), drawn := s.drawn + n
               stale := s.stale.flatMap (cutRange (addr, n)) } := cacheSync_eq h addr n

/-- A synchronisation leaves a free value where a breach stood, and every other byte as it was (20_memory R118). -/
theorem read_synced {s : State} (hw : s.mem.wf) (addr n a : Nat) :
    (s.mem.writeBytes addr (syncedBytes s addr n)).read a =
      if addr ≤ a ∧ a < addr + n ∧ a < 2 ^ 64 ∧ inRanges s.stale a = true then
        (Config.free (s.drawn + (a - addr))).setWidth 8
      else s.mem.read a := by
  have hlen : (syncedBytes s addr n).length = n := by simp [syncedBytes]
  rw [Memory.read_writeBytes hw, hlen, Config.addrLimit]
  by_cases hin : addr ≤ a ∧ a < addr + n ∧ a < 2 ^ 64
  · have hback : addr + (a - addr) = a := by omega
    rw [if_pos hin, syncedBytes, getD_map_range (by omega), hback]
    simp only [hin, true_and, freeAt]
  · rw [if_neg hin, if_neg fun h => hin ⟨h.1, h.2.1, h.2.2.1⟩]

/-! ## The last step of a disturbed command -/

/-- Where no access goes unanswered, a core step of a command other than BATCH is the step of that command (93 I9). -/
theorem coreStep_of_unhung {s : State} {r : Running} (hr : s.running = some r) (hh : r.hung = []) (hop : r.op ≠ .batch)
    (pick : Nat) : coreStep pick s = runStep pick r s := by
  have hmove : coreCanMove s = true := by
    simp only [coreCanMove, hr]
    cases hop' : r.op with
    | batch => exact absurd hop' hop
    | hash | map | decode | matchFilter => simp [hh]
  simp [coreStep, hr, hmove]

theorem hashComplete_of_disturbed {r : Running} {s : State} (hd : Disturbed s.platform r 0)
    (hacc : r.latched.srcLen.toNat = 0 ∨ accessible s.platform r.latched.srcAddr.toNat r.latched.srcLen.toNat) :
    hashComplete r s = { completed s with result0 := Config.free s.drawn, drawn := s.drawn + 1 } := by
  simp only [hashComplete, memRead_of_accessible hacc, (tainted_iff _ _ _).2 hd, if_true]
  rfl

/-- A command that gives a result word completes with any value of it, zero-extended, and of RESULT1 (20_memory R113). -/
def completedAnyhow (s : State) : State :=
  { completed s with
    result0 := ((Config.free s.drawn).setWidth 32).setWidth 64, result1 := Config.free (s.drawn + 1)
    drawn := s.drawn + 2 }

theorem matchComplete_of_disturbed {r : Running} {s : State} (hd : Disturbed s.platform r 0) (e : Evaluated) :
    matchComplete r e s = completedAnyhow s := by
  simp only [matchComplete, (tainted_iff _ _ _).2 hd, if_true]
  rfl

theorem decodeComplete_of_disturbed {r : Running} {s : State} (hd : Disturbed s.platform r 0) (e : Evaluated) :
    decodeComplete r e s = completedAnyhow s := by
  simp only [decodeComplete, (tainted_iff _ _ _).2 hd, if_true]
  rfl

/-- A disturbed DECODE that has dealt with every value it may write completes. -/
theorem decodeStep_of_all_written {r : Running} {s : State} {e : Evaluated} (he : r.eval = some e)
    (hd : Disturbed s.platform r 0) (hall : ∀ i < 4096, i ∈ r.written) (pick : Nat) :
    decodeStep pick r s = decodeComplete r e s := by
  have hdue : valuesDue s.platform r e = 4096 := by simp [valuesDue, (tainted_iff _ _ _).2 hd, Config.filterCap]
  have hleft : valuesLeft s.platform r e = [] := by
    rw [List.eq_nil_iff_forall_not_mem]
    intro i hi
    obtain ⟨hlt, hnot⟩ := mem_valuesLeft.1 hi
    exact hnot (hall i (hdue ▸ hlt))
  simp [decodeStep, he, hleft]

/-! ## The window on the host's bus -/

theorem meets_windowRange_iff (p : Platform) (addr width : Nat) :
    meets (addr, width) (windowRange p) = true ↔ 0 < width ∧ addr < p.regBase + 4096 ∧ p.regBase < addr + width := by
  simp [meets, windowRange, Config.windowSize]

end Sys2Proof.Machine

namespace Sys2Proof.Proofs

open Machine Claims

/-- Settles O48: what an access does turns on whether it meets the window and where it begins. -/
theorem windowStandsAtRegBase : Obligations.WindowStandsAtRegBase := by
  refine ⟨fun s addr width v => ⟨fun h1 h2 h3 => ?_, fun hoff => ?_, fun h1 h2 => ?_⟩, fun s => rfl⟩
  · have hin := (meets_windowRange_iff s.platform addr width).2 ⟨h3, h2, by omega⟩
    simp only [happen, hostBusWrite, hostBusRead, hin, if_true, if_neg (Nat.not_lt.2 h1), and_self]
  · have hout : ¬meets (addr, width) (windowRange s.platform) = true := by rw [meets_windowRange_iff]; omega
    simp only [happen, hostBusWrite, hostBusRead, if_neg hout, and_true]
    exact ⟨leBytes width v.toNat, length_leBytes _ _, fun i hi => getD_leBytes hi _, rfl⟩
  · have hin := (meets_windowRange_iff s.platform addr width).2 ⟨by omega, by omega, h2⟩
    simp only [happen, hostBusWrite, hostBusRead, hin, if_true, if_pos h1, and_self]

/-- Settles O40: a read and a write both turn on whether every byte is accessible. -/
theorem memoryAccessesFollowTheBus : Obligations.MemoryAccessesFollowTheBus := by
  refine ⟨fun p m a n => ⟨fun hn => ?_, fun hn hrej => ?_, fun hle hok => ?_⟩, ?_⟩
  · rw [hn, memRead_zero]
  · exact memRead_of_not_accessible hn (not_accessible_of_rejected hrej)
  · exact ⟨_, memRead_of_accessible (.inr ⟨hle, hok⟩), length_readBytes m a n, fun i hi => by
      simp [Memory.readBytes, hi]⟩
  · rintro s _ a v hw rfl
    refine ⟨⟨writeOutputWord_eq a v s, writeOutputWord_read_off a v s⟩, fun hrej => ?_, fun hle hok => ?_⟩
    · exact writeOutputWord_of_not_accessible a v s hw (not_accessible_of_rejected hrej)
    · refine ⟨writeOutputWord_read_at a v s hw ⟨hle, hok⟩, ?_⟩
      rw [writeOutputWord_of_accessible a v s ⟨hle, hok⟩, State.setMem_status]

/-- Settles O39: one choice serves all four bytes of a word, and a read event lists the bytes of one state. -/
theorem hostReadsOldOrNewOutputWord : Obligations.HostReadsOldOrNewOutputWord := by
  refine ⟨fun s r k w v hr hclean hbreach hv hacc hmem => ?_, fun s addr n => ?_⟩
  · have hlost : wordLost s.platform r (outputJob r k) w = false := by
      rw [← Bool.not_eq_true, wordLost_iff]
      exact not_or.2 ⟨hclean _ (outputJob_lt_of_outputWordAt hv.1), hbreach⟩
    have hbyte := fun i hi => hostByte_outputWord (i := i) hr hv hlost hacc hi
    by_cases hnow : (freeAt s (2 * k)).getLsbD 0 = true
    · simp only [hnow, if_true] at hbyte
      exact hmem.imp (fun h i hi => (hbyte i hi).trans (h i hi)) fun h i hi => (hbyte i hi).trans (h i hi)
    · by_cases hnew : (freeAt s (2 * k)).getLsbD 1 = true
      · exact .inl fun i hi => by rw [hbyte i hi, if_neg hnow, if_pos hnew]
      · exact .inr fun i hi => by rw [hbyte i hi, if_neg hnow, if_neg hnew]
  · exact ⟨_, hostReadBytes s addr n, rfl, rfl, length_hostReadBytes s addr n,
      fun i hi hns => getD_hostReadBytes_of_not_stale hi hns, rfl, Nat.le_add_right _ _⟩

/-- Settles O41: the host's bytes are written last, after the words of raced jobs became any value. -/
theorem hostMemoryWriteIsExact : Obligations.HostMemoryWriteIsExact := by
  rintro s _ addr bs h rfl
  refine ⟨rfl, ?_⟩
  cases hr : s.running with
  | none =>
    rw [hostMemWrite_idle hr]
    refine ⟨⟨Memory.wf_writeBytes h.memWf _ _, fun a h1 h2 h3 => ?_, fun a hoff _ => ?_⟩, by rw [hr],
      fun _ => ⟨hr, rfl, hostByte_idle (s := { s with mem := _ }) hr⟩⟩
    · exact (Memory.read_writeBytes h.memWf addr bs a).trans (if_pos ⟨h1, h2, h3⟩)
    · refine (Memory.read_writeBytes h.memWf addr bs a).trans (if_neg ?_)
      simp only [Config.addrLimit]; omega
  | some r =>
    have hwf : (raceWords (addr, bs.length) r s).mem.wf :=
      (raceWords_onlyWords (R := fun _ => True) (addr, bs.length) r s (by simp)).2.2 h.memWf
    rw [hostMemWrite_running hr]
    refine ⟨⟨Memory.wf_writeBytes hwf _ _, fun a h1 h2 h3 => ?_, fun a hoff hraced => ?_⟩, rfl, nofun⟩
    · exact (Memory.read_writeBytes hwf addr bs a).trans (if_pos ⟨h1, h2, h3⟩)
    · refine (Memory.read_writeBytes hwf addr bs a).trans ((if_neg ?_).trans ?_)
      · simp only [Config.addrLimit]; omega
      · refine loseWords_read_off (h.running r hr) fun k hk hl w hat => ?_
        by_contra hc
        obtain ⟨g, hg, x, hx⟩ := (touches_iff _ _ _ _).1 hl
        rw [outputJob_eq] at hg
        exact hraced r k w rfl hk hat (by omega) (by omega) g hg x hx

/-- Settles O38: the marks are those of `markRaced`, and a disturbed command completes by the branch for any value. -/
theorem raceGivesAnyResultAndNoError : Obligations.RaceGivesAnyResultAndNoError := by
  refine ⟨fun s r addr bs hr => ?_, fun s r addr bs k w h hr hk hat h64 htouch => ?_,
    fun s r pick hr hop hh hd hacc => ?_, fun s r e pick hr hh he hd hop => ?_⟩
  · rw [hostMemWrite_running hr]
    exact ⟨_, rfl, rfl, fun j => by rw [mem_markRaced, touches_iff]⟩
  · rw [hostMemWrite_running hr]
    rw [← outputJob_eq] at htouch
    have hl : touches s.platform (addr, bs.length) r (outputJob r k) = true := (touches_iff _ _ _ _).2 htouch
    obtain ⟨n, hn, hholds⟩ := loseWords_holds (lost := fun k => touches s.platform (addr, bs.length) r (outputJob r k))
      h.memWf hk hat hl h64
    exact ⟨n, hn, fun i hi hoff => (Memory.read_writeBytes_off _ addr bs _ hoff).trans (hholds i hi)⟩
  · rw [coreStep_of_unhung hr hh (by simp [hop]), runStep, hop]
    exact hashComplete_of_disturbed hd (hacc.imp_left fun h0 => by simp [h0])
  · obtain hop | ⟨hop, hall⟩ := hop
    · rw [coreStep_of_unhung hr hh (by simp [hop]), runStep, hop]
      simp only [matchStep, he]
      exact matchComplete_of_disturbed hd e
    · rw [coreStep_of_unhung hr hh (by simp [hop]), runStep, hop]
      exact (decodeStep_of_all_written he hd hall pick).trans (decodeComplete_of_disturbed hd e)

/-- Settles O58, clause by clause: a platform with COHERENT = 1, a breach, an acceptance while one stands, a host read, and
the synchronisation. -/
theorem cacheBreachGivesAnyValue : Obligations.CacheBreachGivesAnyValue := by
  refine ⟨fun s addr n hc => ⟨?_, ?_, fun h => ?_⟩, fun s addr n hc h => ?_, fun s op t ht hr r hr' => ?_,
    fun s addr n i hi hst => ?_, fun s addr n hc hw => ?_⟩
  · exact congrArg _ (cacheBreach_coherent hc addr n)
  · simp [happen, cacheSync, hc]
  · obtain ⟨hs, hrun⟩ := h.coherent hc
    exact ⟨fun a => by simp [Stale, hs], fun r hr w => by simp [UnderBreach, hrun r hr]⟩
  · have stands : ∀ a, (∃ b ∈ s.stale ++ [(addr, n)], b.1 ≤ a ∧ a < b.1 + b.2) ↔
        Stale s a ∨ (addr ≤ a ∧ a < addr + n) := fun a => by simp [Stale, or_and_right, exists_or]
    refine ⟨_, rfl, ?_⟩
    cases hr : s.running with
    | none =>
      rw [cacheBreach_idle hr hc]
      exact ⟨stands, by rw [hr], fun _ => ⟨hr, rfl⟩, nofun⟩
    | some r =>
      obtain ⟨t, rfl, he⟩ := cacheBreach_running hr hc addr n
      rw [he]
      refine ⟨stands, rfl, nofun, ?_⟩
      rintro _ ⟨⟩
      refine ⟨rfl, fun a hoff => ?_, fun k hk w hat h64 hreach => ?_⟩
      · exact loseWords_read_off (h.running r hr) fun k hk hl w hat =>
          hoff k hk w hat ((breachReaches_iff _ _ _ hat).1 hl)
      · exact loseWords_holds h.memWf hk hat ((breachReaches_iff _ _ _ hat).2 hreach) h64
  · cases exec_effect ht with
    | nothing | error => simp [cmdError, hr] at hr'
    | abortRequested u hu => simp [hr] at hu
    | accepted op' =>
      rw [accept_eq] at hr' ⊢
      cases hr'
      exact ⟨rfl, rfl⟩
  · exact ⟨_, hostReadBytes s addr n, Nat.le_add_right _ _, rfl, getD_hostReadBytes_of_stale hi hst⟩
  · refine ⟨_, rfl, ?_⟩
    rw [cacheSync_eq_synced hc]
    refine ⟨rfl, exists_flatMap_cutRange_iff s.stale (addr, n), fun a hkeep => ?_,
      fun a hst h1 h2 h3 => ⟨s.drawn + (a - addr), Nat.le_add_right _ _, ?_⟩⟩
    · refine (read_synced hw addr n a).trans (if_neg ?_)
      rw [inRanges_stale_iff]
      rintro ⟨h1, h2, -, hst⟩
      obtain hns | hlt | hge := hkeep
      · exact hns hst
      · omega
      · omega
    · exact (read_synced hw addr n a).trans (if_pos ⟨h1, h2, h3, (inRanges_stale_iff s a).2 hst⟩)

end Sys2Proof.Proofs

/-! The command words and the count prefix (30_encoding): decoding a word, what a CMD write does with it, and reading back
the canonical encoding of a filter. First the lemmas about the model's operations, then one theorem for each obligation. -/

namespace Sys2Proof.Machine

open Sys2Proof.Claims

/-! ## Command words -/

theorem encode_toNat (i : Instr) : (encode i).toNat = i.opcode.toNat :=
  BitVec.toNat_setWidth_of_le (by decide)

theorem opcode_toNat_le (i : Instr) : i.opcode.toNat ≤ 6 := by cases i <;> decide

/-- A word decodes to a command exactly when it is that command's opcode, zero-extended (30_encoding R141). -/
theorem decode_eq_ok_iff {w : Word} {i : Instr} : decode w = .ok i ↔ w = encode i := by
  rw [← BitVec.toNat_inj, encode_toNat]
  constructor
  · intro h
    obtain ⟨-, he⟩ | ⟨-, -, he⟩ | ⟨hrsvd, j, hop, he⟩ := decode_cases w
    · rw [he] at h; cases h
    · rw [he] at h; cases h
    · rw [he] at h; cases h; omega
  · intro h
    have hle := opcode_toNat_le i
    rw [decode, if_pos ((reservedZero_iff w).2 (by omega)), (ofOpcode_eq_some _ i).2 (by rw [opcode_toNat]; omega)]

/-- A word that is no command: RSVD is not 0, or OPCODE is not in the map (30_encoding R142). -/
theorem decode_of_illegal {w : Word} (h : w.toNat / 256 ≠ 0 ∨ 7 ≤ w.toNat % 256) : ∃ r, decode w = .error r := by
  obtain ⟨-, he⟩ | ⟨-, -, he⟩ | ⟨hrsvd, i, hop, -⟩ := decode_cases w
  · exact ⟨_, he⟩
  · exact ⟨_, he⟩
  · have := opcode_toNat_le i; omega

/-- Every other word is a command's (30_encoding R142). -/
theorem exists_encode_of_legal {w : Word} (h : ¬(w.toNat / 256 ≠ 0 ∨ 7 ≤ w.toNat % 256)) : ∃ i, w = encode i := by
  obtain ⟨hrsvd, -⟩ | ⟨-, hop, -⟩ | ⟨-, i, -, he⟩ := decode_cases w
  · exact absurd (.inl hrsvd) h
  · exact absurd (.inr hop) h
  · exact ⟨i, decode_eq_ok_iff.1 he⟩

/-! ## A CMD write -/

theorem hostRegWrite_illegal {s : State} {w : Word} (hq : s.resetIn = false)
    (h : w.toNat / 256 ≠ 0 ∨ 7 ≤ w.toNat % 256) : hostRegWrite 0x020 8 w s = .next (withError .illegal s) := by
  obtain ⟨r, hd⟩ := decode_of_illegal h
  rw [hostRegWrite_defined rfl (by decide) hq]
  simp [regAt, writeReg, writeCmd, hd, cmdError_eq, withError]

theorem hostRegWrite_encode {s : State} (hq : s.resetIn = false) (i : Instr) :
    hostRegWrite 0x020 8 (encode i) s = exec i s := by
  rw [hostRegWrite_defined rfl (by decide) hq]
  simp [regAt, writeReg, writeCmd, decode_eq_ok_iff.2 rfl]

theorem exec_instrOf (op : Op) (s : State) : exec (instrOf op) s = .next (issue op s) := by cases op <;> rfl

/-- The checks of an issue in their order, each with its outcome (30_encoding R150, R151). -/
theorem issue_eq (op : Op) (s : State) :
    issue op s =
      if s.running.isSome then withError .busy s
      else if usesCfg op = true ∧ ¬(1 ≤ s.regs.cfg.m.toNat ∧ s.regs.cfg.m.toNat ≤ 2 ^ 20) then withError .badCfg s
      else if alignedFor op s.regs = false then withError .align s
      else acceptance op s := by
  have hm : (1 ≤ s.regs.cfg.m.toNat ∧ s.regs.cfg.m.toNat ≤ 2 ^ 20) ↔ cfgLegal s.regs = true := (cfgLegal_iff s).symm
  obtain ⟨hb, he⟩ | ⟨hb, hu, hc, he⟩ | ⟨hb, hc, ha, he⟩ | ⟨hb, hc, ha, he⟩ := issue_cases op s <;>
    rw [busy] at hb <;> rw [he, hb]
  · rfl
  · rw [if_neg nofun, if_pos ⟨hu, by rw [hm, hc]; nofun⟩]; rfl
  · rw [if_neg nofun, if_neg (fun h => h.2 (hm.2 (hc h.1))), if_pos ha]; rfl
  · rw [if_neg nofun, if_neg (fun h => h.2 (hm.2 (hc h.1))), if_neg (by simp [ha]), accept_eq_acceptance]

theorem issue_of_busy {s : State} (h : s.running.isSome = true) (op : Op) : issue op s = withError .busy s := by
  rw [issue_eq, if_pos h]

/-! ## Little-endian fields -/

theorem slice_succ {bs : List Byte} {o : Nat} (h : o < bs.length) (n : Nat) :
    slice bs o (n + 1) = bs[o] :: slice bs (o + 1) n := by
  rw [slice, List.drop_eq_getElem_cons h, List.take_succ_cons, slice]

theorem slice_of_length_le {bs : List Byte} {o : Nat} (h : bs.length ≤ o) (n : Nat) : slice bs o n = [] := by
  rw [slice, List.drop_eq_nil_of_le h, List.take_nil]

theorem fieldAt_succ (bs : List Byte) (o n : Nat) :
    fieldAt bs o (n + 1) = (bs.getD o 0).toNat + 256 * fieldAt bs (o + 1) n := by
  simp [fieldAt, List.range_succ_eq_map, List.foldr_map, Nat.add_assoc, Nat.add_comm 1]

/-- The field at an offset is the number its bytes give, a byte past the end counting as 0 (20_memory R101). -/
theorem fieldAt_eq_le_slice (bs : List Byte) (o n : Nat) : fieldAt bs o n = le (slice bs o n) := by
  induction n generalizing o with
  | zero => simp [fieldAt, slice, le]
  | succ n ih =>
    rw [fieldAt_succ, ih]
    by_cases h : o < bs.length
    · rw [slice_succ h, le, List.getD_eq_getElem _ _ h]
    · rw [slice_of_length_le (by omega), slice_of_length_le (by omega), List.getD_eq_default _ _ (by omega)]
      rfl

/-! ## The count prefix -/

/-- What the parser makes of the bytes of a longer count, once they are all there (30_encoding R162). -/
theorem prefixLong_of_le {rest : List Byte} {w : Nat} (h : w ≤ rest.length) (lo : Nat) :
    prefixLong rest w lo =
      if fieldAt rest 0 w < lo then .bad .noncanonicalCount (some (fieldAt rest 0 w))
      else prefixCapacity (fieldAt rest 0 w) (1 + w) := by
  rw [prefixLong, if_neg (by omega), fieldAt_eq_le_slice]; rfl

theorem prefixCapacity_of_le {n : Nat} (h : n ≤ 4096) (plen : Nat) : prefixCapacity n plen = .ok n plen :=
  if_neg (Nat.not_lt.2 h)

theorem prefixCapacity_of_gt {n : Nat} (h : 4096 < n) (plen : Nat) :
    prefixCapacity n plen = .bad .capacityExceeded (some n) :=
  if_pos h

/-- The three first bytes that announce a longer count: the byte, how many bytes follow, the least count they may hold. -/
def longPrefixes : List (Nat × Nat × Nat) := [(0xFD, 2, 0xFD), (0xFE, 4, 0x10000), (0xFF, 8, 0x100000000)]

theorem parsePrefix_short {b0 : Byte} (h : b0.toNat < 0xFD) (rest : List Byte) :
    parsePrefix (b0 :: rest) = .ok b0.toNat 1 := by
  rw [parsePrefix, if_pos h, prefixCapacity_of_le (by omega)]

theorem parsePrefix_long {b0 : Byte} {w lo : Nat} (h : (b0.toNat, w, lo) ∈ longPrefixes) (rest : List Byte) :
    parsePrefix (b0 :: rest) = prefixLong rest w lo := by
  simp only [longPrefixes, List.mem_cons, Prod.mk.injEq, List.not_mem_nil, or_false] at h
  obtain ⟨h0, rfl, rfl⟩ | ⟨h0, rfl, rfl⟩ | ⟨h0, rfl, rfl⟩ := h <;> simp [parsePrefix, h0]

theorem short_or_long (b0 : Byte) : b0.toNat < 0xFD ∨ ∃ w lo, (b0.toNat, w, lo) ∈ longPrefixes := by
  by_cases h : b0.toNat < 0xFD
  · exact .inl h
  · right
    obtain h0 | h0 | h0 : b0.toNat = 0xFD ∨ b0.toNat = 0xFE ∨ b0.toNat = 0xFF := by have := b0.isLt; omega
    · exact ⟨2, 0xFD, by simp [longPrefixes, h0]⟩
    · exact ⟨4, 0x10000, by simp [longPrefixes, h0]⟩
    · exact ⟨8, 0x100000000, by simp [longPrefixes, h0]⟩

/-- The parser reads a count back from its canonical prefix (30_encoding R162). -/
theorem parsePrefix_canonicalPrefix {n : Nat} (h : n ≤ 4096) (rest : List Byte) :
    parsePrefix (canonicalPrefix n ++ rest) = .ok n (canonicalPrefix n).length := by
  unfold canonicalPrefix
  split
  next hs =>
    have hn : (BitVec.ofNat 8 n).toNat = n := by rw [BitVec.toNat_ofNat]; omega
    rw [List.singleton_append, parsePrefix_short (by omega), hn]; rfl
  next hl =>
    have hf : fieldAt (BitVec.ofNat 8 (n % 256) :: BitVec.ofNat 8 (n / 256) :: rest) 0 2 = n := by
      simp [fieldAt_eq_le_slice, slice, le]; omega
    rw [List.cons_append, List.cons_append, List.cons_append, List.nil_append,
      parsePrefix_long (w := 2) (lo := 0xFD) (by simp [longPrefixes]), prefixLong_of_le (by simp), hf, if_neg (by omega),
      prefixCapacity_of_le h]
    rfl

theorem prefixLong_ok {rest : List Byte} {w lo n plen : Nat} (h : prefixLong rest w lo = .ok n plen) :
    w ≤ rest.length ∧ n = fieldAt rest 0 w ∧ lo ≤ n ∧ n ≤ 4096 := by
  by_cases hw : w ≤ rest.length
  · rw [prefixLong_of_le hw] at h
    split at h
    · cases h
    · rw [prefixCapacity] at h
      split at h
      · cases h
      · cases h
        exact ⟨hw, rfl, Nat.not_lt.1 ‹_›, Nat.not_lt.1 ‹_›⟩
  · rw [prefixLong, if_pos (Nat.not_le.1 hw)] at h
    cases h

/-- What the parser accepts begins with the canonical prefix of its count: of the three longer forms only the first can
hold a count within the capacity (30_encoding R162). -/
theorem exists_canonicalPrefix_append {b : List Byte} {n plen : Nat} (h : parsePrefix b = .ok n plen) :
    ∃ rest, b = canonicalPrefix n ++ rest := by
  cases b with
  | nil => cases h
  | cons b0 rest =>
    obtain hs | ⟨w, lo, hl⟩ := short_or_long b0
    · rw [parsePrefix_short hs] at h
      cases h
      exact ⟨rest, by simp [canonicalPrefix, hs]⟩
    · rw [parsePrefix_long hl] at h
      obtain ⟨hw, hn, hlo, hcap⟩ := prefixLong_ok h
      simp only [longPrefixes, List.mem_cons, Prod.mk.injEq, List.not_mem_nil, or_false] at hl
      obtain ⟨h0, rfl, rfl⟩ : b0.toNat = 0xFD ∧ w = 2 ∧ lo = 0xFD := by omega
      match rest, hw with
      | b1 :: b2 :: rest, _ =>
        replace hn : n = b1.toNat + 256 * b2.toNat := hn.trans (by simp [fieldAt_eq_le_slice, slice, le])
        have hb0 : b0 = 0xFD := BitVec.eq_of_toNat_eq h0
        have hb1 : BitVec.ofNat 8 (n % 256) = b1 := BitVec.eq_of_toNat_eq (by rw [BitVec.toNat_ofNat]; omega)
        have hb2 : BitVec.ofNat 8 (n / 256) = b2 := BitVec.eq_of_toNat_eq (by rw [BitVec.toNat_ofNat]; omega)
        exact ⟨rest, by rw [canonicalPrefix, if_neg (Nat.not_lt.2 hlo), hb0, hb1, hb2]; rfl⟩

/-! ## Reading the codes back -/

/-- A code reads back as its delta (30_encoding R163, 42_golomb_rice R266). -/
theorem oneCode_codeBits {f p d : Nat} (h : d < f) (tail : List Bool) :
    oneCode f p (codeBits p d ++ tail) = .ok (d, tail) :=
  oneCode_of_bits f p d tail h

/-- The decoder behind an ascending sequence's codes: their values, then what k more codes from the last value give. -/
theorem decodeCodes_of_deltas {f p k acc : Nat} {vs : List Nat} {tail : List Bool} (hs : (acc :: vs).Pairwise (· ≤ ·))
    (hf : ∀ v ∈ vs, v < f) :
    decodeCodes f p (vs.length + k) acc ((deltas acc vs).flatMap (codeBits p) ++ tail) =
      let t := decodeCodes f p k (vs.getLastD acc) tail
      { t with out := vs ++ t.out } := by
  induction vs generalizing acc with
  | nil => simp [deltas]
  | cons v vs ih =>
    obtain ⟨hacc, hs⟩ := List.pairwise_cons.1 hs
    have hle : acc ≤ v := hacc v List.mem_cons_self
    have hv : v < f := hf v List.mem_cons_self
    rw [List.length_cons, Nat.add_right_comm, decodeCodes, deltas, List.flatMap_cons, List.append_assoc,
      oneCode_codeBits (by omega)]
    simp only [Nat.add_sub_cancel' hle, if_neg (Nat.not_le.2 hv), ih hs fun u hu => hf u (List.mem_cons_of_mem v hu),
      List.getLastD_cons, List.cons_append]

/-- GRDecode behind an accepted prefix (42_golomb_rice R262). -/
theorem grDecode_of_prefix {b : List Byte} {n plen : Nat} (h : parsePrefix b = .ok n plen) (m p : Nat) :
    grDecode b m p =
      let t := decodeCodes (n * m) p n 0 (bitsOf (b.drop plen))
      { code := t.code <|> if t.rest.length ≥ 8 then some .countMismatch else none
        n := some n, out := t.out, w16 := decide (n * m < 65536), pos := 8 * b.length - t.rest.length } := by
  simp only [grDecode, h]
  cases (decodeCodes (n * m) p n 0 (bitsOf (b.drop plen))).code <;> rfl

/-- The decoder reads exactly an ascending sequence's values from its bitstream (30_encoding R164). -/
theorem decodeCodes_streamBits {f p : Nat} {vs : List Nat} (hs : vs.Pairwise (· ≤ ·)) (hf : ∀ v ∈ vs, v < f)
    (tail : List Bool) :
    decodeCodes f p vs.length 0 (streamBits p vs ++ tail) = { code := none, out := vs, rest := tail } := by
  have h := decodeCodes_of_deltas (p := p) (k := 0) (tail := tail)
    (List.pairwise_cons.2 ⟨fun v _ => Nat.zero_le v, hs⟩) hf
  simpa [decodeCodes, streamBits] using h

end Sys2Proof.Machine

namespace Sys2Proof.Proofs

open Machine Claims

/-- Settles O19, by induction on the sequence (`decodeCodes_of_deltas`): each code gives back its delta, which added to the
value before is the next one. -/
theorem canonicalFilterDecodesToItsValues : Obligations.CanonicalFilterDecodesToItsValues := by
  intro m p vs rest pad hlen hs hf hbits hpad
  have hp := parsePrefix_canonicalPrefix hlen rest
  rw [grDecode_of_prefix hp, List.drop_left, hbits, decodeCodes_streamBits hs hf]
  exact ⟨if_neg (Nat.not_le.2 hpad), rfl, rfl, rfl⟩

/-- Settles O2: decoding fails exactly on the illegal words, and its errors are all ILLEGAL. -/
theorem illegalWordRaisesIllegalOnly : Obligations.IllegalWordRaisesIllegalOnly := by
  refine fun s w hq => ⟨hostRegWrite_illegal hq, fun h => ?_⟩
  obtain ⟨i, rfl⟩ := exists_encode_of_legal h
  exact ⟨i, decode_eq_ok_iff.2 rfl, rfl, hostRegWrite_encode hq i⟩

/-- Settles O3: the opcode map is one to one (`decode_eq_ok_iff`). -/
theorem decodeReadsExactlyTheEncodedWord : Obligations.DecodeReadsExactlyTheEncodedWord :=
  ⟨⟨rfl, rfl, rfl, rfl, rfl, rfl, rfl⟩, fun _ _ => decode_eq_ok_iff⟩

/-- Settles O4: each word is decoded by evaluation. -/
theorem wordsOfTheOpcodeMapDecode : Obligations.WordsOfTheOpcodeMapDecode :=
  ⟨rfl, rfl, rfl, rfl, rfl, rfl, rfl, rfl, rfl⟩

/-- Settles O6: BUSY is the first check of an issue, and the error touches STATUS alone. -/
theorem commandWhileBusyIsRejectedAndLost : Obligations.CommandWhileBusyIsRejectedAndLost := by
  intro s op r hr
  exact ⟨(exec_instrOf op s).trans (congrArg _ (issue_of_busy (by simp [hr]) op)), hr⟩

/-- Settles O5, command by command: the checks of `issue` are those of the procedure for the command's word. -/
theorem cmdWriteFollowsTheIssueProcedure : Obligations.CmdWriteFollowsTheIssueProcedure := by
  intro s w hq
  by_cases hill : w.toNat / 256 ≠ 0 ∨ 6 < w.toNat % 256
  · rw [hostRegWrite_illegal hq hill, if_pos hill]
  · obtain ⟨i, rfl⟩ := exists_encode_of_legal hill
    rw [if_neg hill, hostRegWrite_encode hq, encode_toNat]
    cases i with
    | nop => rfl
    | abort => cases hr : s.running <;> simp [exec, execAbort, hr, Instr.opcode, setRun_eq]
    | hash | map | decode | matchFilter | batch =>
      simp [exec, execHash, execMap, execDecode, execMatch, execBatch, issue_eq, usesCfg, alignedFor, Instr.opcode,
        imp_iff_not_or]

/-- Settles O17: the parser reads a canonical prefix back, what it accepts is one, and a longer form that is not is rejected
by the first of its checks that fails. -/
theorem prefixAcceptsExactlyTheCanonicalForm : Obligations.PrefixAcceptsExactlyTheCanonicalForm := by
  refine ⟨fun b n plen => ⟨fun h => ?_, ?_⟩, rfl, fun b0 rest w lo hl => ?_⟩
  · have hn : n ≤ 4096 := (parsePrefix_ok h).1
    obtain ⟨rest, rfl⟩ := exists_canonicalPrefix_append h
    rw [parsePrefix_canonicalPrefix hn] at h
    cases h
    exact ⟨hn, rfl, rest, rfl⟩
  · rintro ⟨hn, rfl, rest, rfl⟩
    exact parsePrefix_canonicalPrefix hn rest
  · rw [parsePrefix_long hl]
    refine ⟨fun hw => if_pos hw, fun hw hlt => ?_, fun hw hle hcap => ?_⟩
    · rw [prefixLong_of_le hw, if_pos hlt]
    · rw [prefixLong_of_le hw, if_neg (Nat.not_lt.2 hle), prefixCapacity_of_gt hcap]

end Sys2Proof.Proofs

/-! The keyed hash (40_keyed_hash): how an accepted HASH completes, and the published vectors of SipHash-2-4. First the
lemmas about the model's operations, then one theorem for each obligation. -/

namespace Sys2Proof.Machine

open Sys2Proof.Claims

theorem asAccepted_freshRun (op : Op) (s : State) : AsAccepted op s (freshRun op s) := ⟨rfl, rfl, rfl, rfl, rfl⟩

/-- A message that cannot be read ends a HASH with BUS_READ (40_keyed_hash R210). -/
theorem hashComplete_of_not_accessible {r : Running} (s : State) (hn : r.latched.srcLen.toNat ≠ 0)
    (hacc : ¬accessible s.platform r.latched.srcAddr.toNat r.latched.srcLen.toNat) :
    hashComplete r s = completed (withError .busRead s) := by
  simp only [hashComplete, memRead_of_not_accessible hn hacc]
  rfl

/-- A message that is read and that nothing disturbs ends a HASH with its hash (40_keyed_hash R210). -/
theorem hashComplete_of_not_tainted {r : Running} {s : State} (ht : tainted s.platform r 0 = false)
    (hacc : r.latched.srcLen.toNat = 0 ∨ accessible s.platform r.latched.srcAddr.toNat r.latched.srcLen.toNat) :
    hashComplete r s =
      { completed s with
        result0 := sipHash24 r.latched.key0 r.latched.key1
          (r.before.readBytes r.latched.srcAddr.toNat r.latched.srcLen.toNat) } := by
  simp only [hashComplete, memRead_of_accessible hacc, ht]
  rfl

/-- An idle core accepts HASH, which undergoes no check of operands (30_encoding R150). -/
theorem exec_hash_idle {s : State} (hr : s.running = none) : exec .hash s = .next (acceptance .hash s) :=
  congrArg _ (issue_of_unchecked (op := .hash) hr rfl rfl)

/-- The step that follows the acceptance of a HASH is its completion step. -/
theorem coreStep_acceptance_hash (pick : Nat) (s : State) :
    coreStep pick (acceptance .hash s) = hashComplete (freshRun .hash s) (acceptance .hash s) :=
  coreStep_of_unhung (r := freshRun .hash s) rfl rfl (by simp [freshRun]) pick

end Sys2Proof.Machine

namespace Sys2Proof.Proofs

open Machine Claims

/-- Settles O11: the command just accepted is as `undisturbed` found it, so its one job is not tainted. -/
theorem hashCommandResult : Obligations.HashCommandResult := by
  intro s pick hr hacc hu
  have ht : tainted s.platform (freshRun .hash s) 0 = false :=
    tainted_of_undisturbed hu (asAccepted_freshRun .hash s) Nat.zero_lt_one
  refine ⟨_, exec_hash_idle hr, rfl, ?_⟩
  rw [coreStep_acceptance_hash]
  exact hashComplete_of_not_tainted ht (hacc.imp_left fun h0 => by simp [freshRun, h0])

/-- Settles O12: the read of the message at completion is the BusError. -/
theorem hashReadErrorIsBusRead : Obligations.HashReadErrorIsBusRead := by
  intro s pick hr hlen hacc
  refine ⟨_, exec_hash_idle hr, rfl, ?_⟩
  rw [coreStep_acceptance_hash]
  exact hashComplete_of_not_accessible _ (fun h0 => hlen (BitVec.eq_of_toNat_eq h0)) hacc

/-- Settles O13: one full word and seven bytes left over, and no bytes at all, by evaluation. -/
theorem hashMatchesThePublishedVectors : Obligations.HashMatchesThePublishedVectors :=
  ⟨by decide, by decide⟩

end Sys2Proof.Proofs

/-! The range mapper (41_range_mapper): the bounds of Map, and how an accepted MAP completes. First the lemmas about the
model's operations, then one theorem for each obligation. -/

namespace Sys2Proof.Machine

open Sys2Proof.Claims

/-- Map stays below every positive bound of F: h × F is less than 2^64 times that bound (41_range_mapper R232). -/
theorem rangeMap_lt_of_le {h f b : Nat} (hh : h < 2 ^ 64) (hb : 0 < b) (hf : f ≤ b) : rangeMap h f < b :=
  Nat.div_lt_of_lt_mul <| calc
    h * f ≤ h * b := Nat.mul_le_mul_left h hf
    _ < 2 ^ 64 * b := Nat.mul_lt_mul_of_pos_right hh hb

@[simp] theorem rangeMap_zero_right (h : Nat) : rangeMap h 0 = 0 := by simp [rangeMap]

theorem rangeMap_mono_left {h h' : Nat} (f : Nat) (hle : h ≤ h') : rangeMap h f ≤ rangeMap h' f :=
  Nat.div_le_div_right (Nat.mul_le_mul_right f hle)

/-- A candidate value is the Map of a 64-bit hash, so it stays below every positive bound of F (41_range_mapper R233). -/
theorem candidate_lt_of_le {f b : Nat} (k0 k1 : Word) (item : List Byte) (hb : 0 < b) (hf : f ≤ b) :
    candidate k0 k1 f item < b :=
  rangeMap_lt_of_le (sipHash24 k0 k1 item).isLt hb hf

/-- An empty filter forms no candidates, whether its decode fails or not (41_range_mapper R232, 43_matcher R306). -/
theorem decodeAndMatch_cv_of_empty {b : List Byte} {m p : Nat} (hn : (grDecode b m p).n = some 0) (k0 k1 : Word)
    (items : List (List Byte)) : (decodeAndMatch k0 k1 b m p items).cv = [] := by
  cases hc : (grDecode b m p).code with
  | some c => simp [decodeAndMatch, hc]
  | none => simp [decodeAndMatch, hc, hn]

/-- An idle core accepts MAP, which undergoes no check of operands (30_encoding R150). -/
theorem exec_map_idle {s : State} (hr : s.running = none) : exec .map s = .next (acceptance .map s) :=
  congrArg _ (issue_of_unchecked (op := .map) hr rfl rfl)

/-- The step that follows the acceptance of a MAP is its completion step. -/
theorem coreStep_acceptance_map (pick : Nat) (s : State) :
    coreStep pick (acceptance .map s) = mapComplete (freshRun .map s) (acceptance .map s) :=
  coreStep_of_unhung (r := freshRun .map s) rfl rfl (by simp [freshRun]) pick

/-- MAP completes with the latched operands' Map in RESULT0 and nothing else of its own (41_range_mapper R235). -/
theorem mapComplete_eq (r : Running) (s : State) :
    mapComplete r s =
      { completed s with result0 := BitVec.ofNat 64 (rangeMap r.latched.argH.toNat r.latched.argF.toNat) } := rfl

/-- The Map of two 64-bit operands fits RESULT0 (41_range_mapper R231). -/
theorem rangeMap_mod_of_words (h f : Word) : rangeMap h.toNat f.toNat % 2 ^ 64 = rangeMap h.toNat f.toNat :=
  Nat.mod_eq_of_lt (rangeMap_lt_of_le h.isLt (Nat.two_pow_pos 64) f.isLt.le)

end Sys2Proof.Machine

namespace Sys2Proof.Proofs

open Machine Claims

/-- Settles O14: the completion step works on the operands acceptance latched, and their Map fits a word. -/
theorem mapCommandResult : Obligations.MapCommandResult := by
  intro s pick hr
  refine ⟨_, exec_map_idle hr, rfl, _, rfl, ?_⟩
  rw [coreStep_acceptance_map, mapComplete_eq]
  exact ⟨rfl, (BitVec.toNat_ofNat _ 64).trans (rangeMap_mod_of_words s.regs.argH s.regs.argF)⟩

/-- Settles O15: below F is at most F - 1. -/
theorem rangeMapStaysInRange : Obligations.RangeMapStaysInRange :=
  ⟨fun _ _ hh hf => Nat.le_sub_one_of_lt (rangeMap_lt_of_le hh hf le_rfl), rangeMap_zero_right,
    fun _ _ f hle => rangeMap_mono_left f hle,
    fun k0 k1 _ _ _ items hn => decodeAndMatch_cv_of_empty hn k0 k1 items⟩

/-- Settles O16: both storage widths are positive bounds of F. -/
theorem candidatesFitTheirStorage : Obligations.CandidatesFitTheirStorage := by
  intro n m k0 k1 item hn hm
  have hf : n * m ≤ 2 ^ 32 := Nat.mul_le_mul (m₂ := 2 ^ 20) hn hm
  exact ⟨hf, candidate_lt_of_le k0 k1 item (Nat.two_pow_pos 32) hf,
    fun h16 => candidate_lt_of_le k0 k1 item (by decide) h16.le⟩

end Sys2Proof.Proofs

/-! The Golomb-Rice decoder (42_golomb_rice R262 to R272): what one code can be, what the codes read and give, the outcome of
GRDecode, and a filter cut short. First the lemmas about the model's operations, then one theorem for each obligation. -/

namespace Sys2Proof.Machine

open Sys2Proof.Claims

/-! ## The bits of one code -/

theorem length_codeBits (p d : Nat) : (codeBits p d).length = d / 2 ^ p + 1 + p := by
  simp [codeBits]; omega

/-- Any bits are the low bits of some delta of a given quotient, most significant first (30_encoding R163). -/
theorem exists_delta_of_bits (q : Nat) (bits : List Bool) :
    ∃ d, d / 2 ^ bits.length = q ∧ bits = (List.range bits.length).map fun i => d.testBit (bits.length - 1 - i) := by
  induction bits generalizing q with
  | nil => exact ⟨q, by simp, rfl⟩
  | cons b bits ih =>
    obtain ⟨d, hd, hbits⟩ := ih (2 * q + b.toNat)
    have hb : d.testBit bits.length = b := by
      rw [Nat.testBit_eq_decide_div_mod_eq, hd]
      cases b <;> simp
    refine ⟨d, ?_, ?_⟩
    · rw [List.length_cons, pow_succ, ← Nat.div_div_eq_div_mul, hd]
      have := b.toNat_le
      omega
    · rw [List.length_cons, List.range_succ_eq_map, List.map_cons, List.map_map, Nat.add_sub_cancel, Nat.sub_zero, hb]
      refine congrArg _ (hbits.trans (List.map_congr_left fun i _ => ?_))
      simp only [Function.comp, Nat.succ_eq_add_one]
      congr 1
      omega

/-- The buffer ends inside a code behind q one-bits: in its unary run or in its remainder (42_golomb_rice R263, R265). -/
def EndsInCode (p q : Nat) (bs : List Bool) : Prop :=
  bs = List.replicate q true ∨ ∃ low, low.length < p ∧ bs = List.replicate q true ++ false :: low

/-- A code cut short ends in its unary run or in its remainder, behind no more one-bits than it has. -/
theorem endsInCode_of_cut {p d : Nat} {bs more : List Bool} (h : codeBits p d = bs ++ more) (hm : more ≠ []) :
    ∃ q ≤ d / 2 ^ p, EndsInCode p q bs := by
  obtain ⟨as, hrun, -⟩ | ⟨as, hbs, hlow⟩ := List.append_eq_append_iff.1 h.symm
  · have hlen := congrArg List.length hrun
    rw [List.length_replicate, List.length_append] at hlen
    exact ⟨bs.length, hlen ▸ Nat.le_add_right _ _,
      .inl (List.eq_replicate_of_mem fun b hb => List.eq_of_mem_replicate (hrun ▸ List.mem_append_left as hb))⟩
  · cases as with
    | nil => exact ⟨_, le_rfl, .inl (by simpa using hbs)⟩
    | cons b low =>
      obtain ⟨rfl, hlow⟩ := List.cons.inj hlow
      have hlen : p = low.length + more.length := by simpa using congrArg List.length hlow
      have := List.length_pos_iff.2 hm
      exact ⟨_, le_rfl, .inr ⟨low, by omega, hbs⟩⟩

/-! ## The two parts of a code -/

/-- A buffer that ends in the unary run is TRUNCATED (42_golomb_rice R263). -/
theorem unary_of_end {f p q0 k : Nat} (h : k = 0 ∨ (q0 + k) * 2 ^ p < f) :
    unary f p q0 (List.replicate k true) = .error (.truncated, []) := by
  induction k generalizing q0 with
  | zero => rfl
  | succ k ih =>
    have hlt : (q0 + 1 + k) * 2 ^ p < f := by simpa [Nat.add_assoc, Nat.add_comm 1] using h
    have hle : (q0 + 1) * 2 ^ p ≤ (q0 + 1 + k) * 2 ^ p := Nat.mul_le_mul_right _ (by omega)
    rw [List.replicate_succ, unary, if_neg (by omega), ih (.inr hlt)]

/-- A unary run that reaches the bound is OVERLONG_QUOTIENT, whatever follows (42_golomb_rice R264). -/
theorem unary_of_overlong {f p q0 k : Nat} (hk : 1 ≤ k) (h : f ≤ (q0 + k) * 2 ^ p) (bs : List Bool) :
    ∃ rest, unary f p q0 (List.replicate k true ++ bs) = .error (.overlongQuotient, rest) := by
  induction k generalizing q0 with
  | zero => omega
  | succ k ih =>
    rw [List.replicate_succ, List.cons_append, unary]
    split
    next => exact ⟨_, rfl⟩
    next hb =>
      obtain rfl | hk := Nat.eq_zero_or_pos k
      · exact absurd h hb
      · exact ih hk (by rwa [Nat.add_assoc, Nat.add_comm 1])

/-- A unary run that fails has gone at most one one-bit over the bound (42_golomb_rice R264). -/
theorem unary_error_length {f p q0 : Nat} {bs rest : List Bool} {c : ResultCode} (hq : q0 * 2 ^ p < f)
    (h : unary f p q0 bs = .error (c, rest)) : ∃ k, bs.length = rest.length + k ∧ (q0 + k) * 2 ^ p < f + 2 ^ p := by
  induction bs generalizing q0 with
  | nil => cases h; exact ⟨0, rfl, Nat.lt_add_right _ hq⟩
  | cons b bs ih =>
    cases b with
    | false => cases h
    | true =>
      rw [unary] at h
      split at h
      next => cases h; exact ⟨1, rfl, by rw [Nat.add_mul, Nat.one_mul]; omega⟩
      next hb =>
        obtain ⟨k, hk, hlt⟩ := ih (Nat.not_le.1 hb) h
        exact ⟨k + 1, by rw [List.length_cons, hk, Nat.add_assoc], by rwa [Nat.add_comm k, ← Nat.add_assoc]⟩

theorem remainder_of_end {p : Nat} {bs : List Bool} (h : bs.length < p) (r0 : Nat) :
    remainder p r0 bs = .error (.truncated, []) := by
  induction p generalizing r0 bs with
  | zero => omega
  | succ p ih =>
    cases bs with
    | nil => rfl
    | cons b bs => exact ih (Nat.lt_of_succ_lt_succ h) _

theorem remainder_error_length {p r0 : Nat} {bs rest : List Bool} {c : ResultCode}
    (h : remainder p r0 bs = .error (c, rest)) : bs.length < p := by
  induction p generalizing r0 bs with
  | zero => cases h
  | succ p ih =>
    cases bs with
    | nil => exact Nat.succ_pos p
    | cons b bs => exact Nat.succ_lt_succ (ih h)

/-! ## One code -/

theorem oneCode_of_unary_error {f p : Nat} {bs : List Bool} {e : ResultCode × List Bool}
    (h : unary f p 0 bs = .error e) : oneCode f p bs = .error e := by
  simp only [oneCode, h]

theorem oneCode_of_remainder_error {f p q : Nat} {bs low : List Bool} {e : ResultCode × List Bool}
    (h : unary f p 0 bs = .ok (q, low)) (hr : remainder p 0 low = .error e) : oneCode f p bs = .error e := by
  simp only [oneCode, h, hr]

theorem oneCode_of_ok {f p q r : Nat} {bs low rest : List Bool} (h : unary f p 0 bs = .ok (q, low))
    (hr : remainder p 0 low = .ok (r, rest)) : oneCode f p bs = .ok (q * 2 ^ p + r, rest) := by
  simp only [oneCode, h, hr]

/-- A code whose unary run stays below the bound gives its delta, even one of F or more (42_golomb_rice R266). -/
theorem oneCode_of_codeBits {f p d : Nat} (h : d / 2 ^ p = 0 ∨ d / 2 ^ p * 2 ^ p < f) (rest : List Bool) :
    oneCode f p (codeBits p d ++ rest) = .ok (d, rest) := by
  have hu := unary_of_replicate f p 0 (d / 2 ^ p) (((List.range p).map fun i => d.testBit (p - 1 - i)) ++ rest)
    (by rwa [Nat.zero_add])
  rw [codeBits, List.append_assoc, List.cons_append, oneCode_of_ok hu (remainder_of_bits p 0 d rest), Nat.zero_add,
    Nat.zero_mul, Nat.zero_add, Nat.div_add_mod']

/-- One code decodes exactly when the buffer begins with the code of its delta and the unary run stays below the bound
(42_golomb_rice R262 to R266). -/
theorem oneCode_eq_ok_iff {f p d : Nat} {bs rest : List Bool} :
    oneCode f p bs = .ok (d, rest) ↔ bs = codeBits p d ++ rest ∧ (d / 2 ^ p = 0 ∨ d / 2 ^ p * 2 ^ p < f) := by
  constructor
  · intro h
    cases hu : unary f p 0 bs with
    | error e => rw [oneCode_of_unary_error hu] at h; cases h
    | ok x =>
      obtain ⟨q, low⟩ := x
      cases hr : remainder p 0 low with
      | error e => rw [oneCode_of_remainder_error hu hr] at h; cases h
      | ok y =>
        obtain ⟨k, hq, hrun, hk⟩ := unary_ok f p 0 bs q low hu
        obtain rfl : q = k := hq.trans (Nat.zero_add k)
        obtain ⟨-, -, -, bits, rfl, hlow⟩ := remainder_ok p 0 low y.1 y.2 hr
        obtain ⟨e, he, hbits⟩ := exists_delta_of_bits q bits
        have hbs : bs = codeBits bits.length e ++ y.2 := by
          rw [hrun, hlow, codeBits, he, ← hbits, List.append_assoc, List.cons_append]
        rw [← he] at hk
        rw [hbs, oneCode_of_codeBits hk] at h
        cases h
        exact ⟨hbs, hk⟩
  · rintro ⟨rfl, h⟩
    exact oneCode_of_codeBits h rest

/-- A buffer that ends inside a code is TRUNCATED, with no bit left (42_golomb_rice R263, R265). -/
theorem oneCode_of_end {f p q : Nat} {bs : List Bool} (hq : q = 0 ∨ q * 2 ^ p < f) (h : EndsInCode p q bs) :
    oneCode f p bs = .error (.truncated, []) := by
  obtain rfl | ⟨low, hlow, rfl⟩ := h
  · exact oneCode_of_unary_error (unary_of_end (by rwa [Nat.zero_add]))
  · exact oneCode_of_remainder_error (unary_of_replicate f p 0 q low (by rwa [Nat.zero_add])) (remainder_of_end hlow 0)

/-- A unary run that reaches the bound makes the code OVERLONG_QUOTIENT (42_golomb_rice R264). -/
theorem oneCode_of_overlong {f p q : Nat} (hq : 1 ≤ q) (h : f ≤ q * 2 ^ p) (bs : List Bool) :
    ∃ rest, oneCode f p (List.replicate q true ++ bs) = .error (.overlongQuotient, rest) := by
  rw [← Nat.zero_add q] at h
  obtain ⟨rest, hu⟩ := unary_of_overlong hq h bs
  exact ⟨rest, oneCode_of_unary_error hu⟩

theorem mul_lt_of_within {f p q : Nat} (hf : 1 ≤ f) (h : q = 0 ∨ q * 2 ^ p < f) : q * 2 ^ p < f := by
  obtain rfl | h := h
  · rwa [Nat.zero_mul]
  · exact h

/-- A code that fails has read a unary run of at most one one-bit over the bound, and at most P bits more. -/
theorem oneCode_error_length {f p : Nat} {bs rest : List Bool} {c : ResultCode} (hf : 1 ≤ f)
    (h : oneCode f p bs = .error (c, rest)) : ∃ k, k * 2 ^ p < f + 2 ^ p ∧ bs.length ≤ rest.length + (k + p) := by
  cases hu : unary f p 0 bs with
  | error e =>
    rw [oneCode_of_unary_error hu] at h
    cases h
    obtain ⟨k, hlen, hk⟩ := unary_error_length (by omega) hu
    exact ⟨k, by rwa [Nat.zero_add] at hk, by omega⟩
  | ok x =>
    obtain ⟨q, low⟩ := x
    cases hr : remainder p 0 low with
    | ok y => rw [oneCode_of_ok hu hr] at h; cases h
    | error e =>
      rw [oneCode_of_remainder_error hu hr] at h
      cases h
      obtain ⟨k, hq, rfl, hk⟩ := unary_ok f p 0 bs q low hu
      obtain rfl : q = k := hq.trans (Nat.zero_add k)
      have hlow : low.length < p := remainder_error_length hr
      exact ⟨q, Nat.lt_add_right _ (mul_lt_of_within hf hk), by
        simp only [List.length_append, List.length_replicate, List.length_cons]; omega⟩

/-- A count of blocks of 2^P whose last begins below F is at most ceil(F / 2^P). -/
theorem le_ceil_of_mul_lt {f p k : Nat} (h : k * 2 ^ p < f + 2 ^ p) : k ≤ (f + 2 ^ p - 1) / 2 ^ p :=
  (Nat.le_div_iff_mul_le (Nat.two_pow_pos p)).2 (Nat.le_sub_one_of_lt h)

/-! ## The codes -/

theorem decodeCodes_of_error {f p acc : Nat} {bs rest : List Bool} {c : ResultCode}
    (h : oneCode f p bs = .error (c, rest)) (n : Nat) :
    decodeCodes f p (n + 1) acc bs = { code := some c, out := [], rest := rest } := by
  simp only [decodeCodes, h]

theorem decodeCodes_of_valueRange {f p acc d : Nat} {bs rest : List Bool} (h : oneCode f p bs = .ok (d, rest))
    (hf : f ≤ acc + d) (n : Nat) :
    decodeCodes f p (n + 1) acc bs = { code := some .valueRange, out := [], rest := rest } := by
  simp only [decodeCodes, h, if_pos (show acc + d ≥ f from hf)]

theorem decodeCodes_of_ok {f p acc d : Nat} {bs rest : List Bool} (h : oneCode f p bs = .ok (d, rest))
    (hf : acc + d < f) (n : Nat) :
    decodeCodes f p (n + 1) acc bs =
      let t := decodeCodes f p n (acc + d) rest
      { t with out := (acc + d) :: t.out } := by
  simp only [decodeCodes, h, if_neg (show ¬acc + d ≥ f from Nat.not_le.2 hf)]

/-- What the codes give, whether they all decode or not: values that go on from acc in ascending order, all below F, whose
codes the buffer begins with; when all decode, the rest of the buffer is unread (42_golomb_rice R266 to R268, R271). -/
theorem decodeCodes_reads (f p n acc : Nat) (bs : List Bool) :
    (acc :: (decodeCodes f p n acc bs).out).Pairwise (· ≤ ·) ∧ (∀ v ∈ (decodeCodes f p n acc bs).out, v < f) ∧
      ∃ tail, bs = (deltas acc (decodeCodes f p n acc bs).out).flatMap (codeBits p) ++ tail ∧
        ((decodeCodes f p n acc bs).code = none → tail = (decodeCodes f p n acc bs).rest) := by
  induction n generalizing acc bs with
  | zero => simp [decodeCodes, deltas]
  | succ n ih =>
    cases h : oneCode f p bs with
    | error e => rw [decodeCodes_of_error h]; simp [deltas]
    | ok x =>
      obtain ⟨d, rest⟩ := x
      obtain hf | hf := Nat.lt_or_ge (acc + d) f
      · rw [decodeCodes_of_ok h hf]
        obtain ⟨hs, hlt, tail, htail, hrest⟩ := ih (acc + d) rest
        obtain ⟨rfl, -⟩ := oneCode_eq_ok_iff.1 h
        refine ⟨List.pairwise_cons.2 ⟨fun v hv => ?_, hs⟩, List.forall_mem_cons.2 ⟨hf, hlt⟩, tail, ?_, hrest⟩
        · obtain rfl | hv := List.mem_cons.1 hv
          · exact Nat.le_add_right acc d
          · exact (Nat.le_add_right acc d).trans ((List.pairwise_cons.1 hs).1 v hv)
        · rw [deltas, List.flatMap_cons, Nat.add_sub_cancel_left, List.append_assoc, ← htail]
      · rw [decodeCodes_of_valueRange h hf]; simp [deltas]

/-- Codes that all decode, from a buffer that ends before the last of them does: TRUNCATED (42_golomb_rice R272). -/
theorem decodeCodes_of_cut {f p n acc : Nat} {bs more : List Bool}
    (h : (decodeCodes f p n acc (bs ++ more)).code = none)
    (hm : (decodeCodes f p n acc (bs ++ more)).rest.length < more.length) :
    (decodeCodes f p n acc bs).code = some .truncated := by
  induction n generalizing acc bs with
  | zero => simp [decodeCodes] at hm
  | succ n ih =>
    cases ho : oneCode f p (bs ++ more) with
    | error e => rw [decodeCodes_of_error ho] at h; cases h
    | ok x =>
      obtain ⟨d, rest⟩ := x
      obtain hf | hf := Nat.lt_or_ge (acc + d) f
      · rw [decodeCodes_of_ok ho hf] at h hm
        obtain ⟨hbs, hq⟩ := oneCode_eq_ok_iff.1 ho
        have hbs' : bs <+: codeBits p d ++ rest := hbs ▸ List.prefix_append bs more
        have hcode : codeBits p d <+: codeBits p d ++ rest := List.prefix_append _ rest
        obtain hlt | hle := Nat.lt_or_ge bs.length (codeBits p d).length
        · obtain ⟨left, hleft⟩ := List.prefix_of_prefix_length_le hbs' hcode hlt.le
          have hne : left ≠ [] := by
            rintro rfl
            rw [← hleft, List.append_nil] at hlt
            exact Nat.lt_irrefl _ hlt
          obtain ⟨q, hle, hend⟩ := endsInCode_of_cut hleft.symm hne
          have hq' : q = 0 ∨ q * 2 ^ p < f := by
            have := Nat.mul_le_mul_right (2 ^ p) hle
            omega
          rw [decodeCodes_of_error (oneCode_of_end hq' hend)]
        · obtain ⟨left, rfl⟩ := List.prefix_of_prefix_length_le hcode hbs' hle
          rw [List.append_assoc] at hbs
          obtain rfl := List.append_cancel_left hbs
          rw [decodeCodes_of_ok (oneCode_of_codeBits hq left) hf]
          exact ih h hm
      · rw [decodeCodes_of_valueRange ho hf] at h; cases h

/-! ## GRDecode -/

theorem grDecode_of_bad {b : List Byte} {c : ResultCode} {n : Option Nat} (h : parsePrefix b = .bad c n) (m p : Nat) :
    grDecode b m p = { code := some c, n := n, out := [], w16 := false, pos := 0 } := by
  simp only [grDecode, h]

theorem grDecode_code_of_prefix {b : List Byte} {n plen : Nat} (h : parsePrefix b = .ok n plen) (m p : Nat) :
    (grDecode b m p).code =
      ((decodeCodes (n * m) p n 0 (bitsOf (b.drop plen))).code <|>
        if (decodeCodes (n * m) p n 0 (bitsOf (b.drop plen))).rest.length ≥ 8 then some .countMismatch else none) :=
  congrArg Decoded.code (grDecode_of_prefix h m p)

/-- GRDecode succeeds when the codes decode and less than a byte is left unread (42_golomb_rice R269). -/
theorem grDecode_ok_iff {b : List Byte} {n plen : Nat} (h : parsePrefix b = .ok n plen) (m p : Nat) :
    (grDecode b m p).code = none ↔
      (decodeCodes (n * m) p n 0 (bitsOf (b.drop plen))).code = none ∧
        (decodeCodes (n * m) p n 0 (bitsOf (b.drop plen))).rest.length < 8 := by
  rw [grDecode_code_of_prefix h]
  cases (decodeCodes (n * m) p n 0 (bitsOf (b.drop plen))).code <;> simp

/-- GRDecode of a stream that begins with the codes of vs gives vs, and then what the codes after them give. -/
theorem grDecode_of_streamBits {b : List Byte} {m p n plen k : Nat} {vs : List Nat} {tail : List Bool}
    (h : parsePrefix b = .ok n plen) (hbits : bitsOf (b.drop plen) = streamBits p vs ++ tail)
    (hs : vs.Pairwise (· ≤ ·)) (hf : ∀ v ∈ vs, v < n * m) (hn : n = vs.length + k) {t : Codes}
    (ht : decodeCodes (n * m) p k (vs.getLastD 0) tail = t) :
    (grDecode b m p).code = (t.code <|> if t.rest.length ≥ 8 then some .countMismatch else none) ∧
      (grDecode b m p).out = vs ++ t.out := by
  have hd := decodeCodes_of_deltas (p := p) (k := k) (tail := tail)
    (List.pairwise_cons.2 ⟨fun v _ => Nat.zero_le v, hs⟩) hf
  rw [ht, ← hn, ← streamBits, ← hbits] at hd
  rw [grDecode_of_prefix h, hd]
  exact ⟨rfl, rfl⟩

/-- An error of the code behind those of vs is the outcome, and vs are the values given (42_golomb_rice R262). -/
theorem grDecode_of_failing_code {b : List Byte} {m p plen k : Nat} {vs : List Nat} {tail rest : List Bool}
    {c : ResultCode} (h : parsePrefix b = .ok (vs.length + (k + 1)) plen)
    (hbits : bitsOf (b.drop plen) = streamBits p vs ++ tail) (hs : vs.Pairwise (· ≤ ·))
    (hf : ∀ v ∈ vs, v < (vs.length + (k + 1)) * m)
    (ht : decodeCodes ((vs.length + (k + 1)) * m) p (k + 1) (vs.getLastD 0) tail =
      { code := some c, out := [], rest := rest }) :
    (grDecode b m p).code = some c ∧ (grDecode b m p).out = vs := by
  obtain ⟨hcode, hout⟩ := grDecode_of_streamBits h hbits hs hf rfl ht
  exact ⟨hcode, hout.trans (List.append_nil vs)⟩

/-- A buffer cut inside its count prefix holds no count: TRUNCATED (30_encoding R162). -/
theorem parsePrefix_of_cut_prefix (n : Nat) {j : Nat} (hj : j < (canonicalPrefix n).length) :
    parsePrefix ((canonicalPrefix n).take j) = .bad .truncated none := by
  unfold canonicalPrefix at hj ⊢
  split at hj
  next hs =>
    obtain rfl : j = 0 := Nat.lt_one_iff.1 hj
    rw [if_pos hs]; rfl
  next hl =>
    rw [if_neg hl]
    obtain rfl | rfl | rfl : j = 0 ∨ j = 1 ∨ j = 2 := by simp only [List.length_cons, List.length_nil] at hj; omega
    · rfl
    · rfl
    · rfl

/-- What the parser accepts, as the canonical prefix and what stands behind it (30_encoding R162). -/
theorem eq_canonicalPrefix_append {b : List Byte} {n plen : Nat} (h : parsePrefix b = .ok n plen) :
    plen = (canonicalPrefix n).length ∧ b = canonicalPrefix n ++ b.drop plen := by
  obtain ⟨rest, rfl⟩ := exists_canonicalPrefix_append h
  rw [parsePrefix_canonicalPrefix (parsePrefix_ok h).1] at h
  cases h
  exact ⟨rfl, by rw [List.drop_left]⟩

/-- A buffer cut behind its count prefix gives the same count. -/
theorem parsePrefix_of_cut {b : List Byte} {n plen j : Nat} (h : parsePrefix b = .ok n plen) (hj : plen ≤ j) :
    parsePrefix (b.take j) = .ok n plen := by
  obtain ⟨hlen, hb⟩ := eq_canonicalPrefix_append h
  rw [hb, List.take_append, List.take_of_length_le (hlen ▸ hj), hlen]
  exact parsePrefix_canonicalPrefix (parsePrefix_ok h).1 _

/-- A filter that decodes, cut to j of its bytes, is TRUNCATED: in its prefix, or because a whole byte less than it had is
less than its codes take (42_golomb_rice R272). -/
theorem grDecode_of_cut {b : List Byte} {m p j : Nat} (h : (grDecode b m p).code = none) (hj : j < b.length) :
    (grDecode (b.take j) m p).code = some .truncated := by
  cases hp : parsePrefix b with
  | bad c n => rw [grDecode_of_bad hp] at h; cases h
  | ok n plen =>
    obtain hlt | hle := Nat.lt_or_ge j plen
    · obtain ⟨rfl, hb⟩ := eq_canonicalPrefix_append hp
      have hbad : parsePrefix (b.take j) = .bad .truncated none := by
        rw [hb, List.take_append_of_le_length hlt.le]
        exact parsePrefix_of_cut_prefix n hlt
      rw [grDecode_of_bad hbad]
    · obtain ⟨hcode, hrest⟩ := (grDecode_ok_iff hp m p).1 h
      have hsplit : bitsOf (b.drop plen) = bitsOf ((b.take j).drop plen) ++ bitsOf (b.drop j) := by
        rw [← bitsOf_append, ← List.drop_append_of_le_length (by simp; omega), List.take_append_drop]
      have hmore : (bitsOf (b.drop j)).length = 8 * (b.length - j) := by rw [length_bitsOf, List.length_drop]
      rw [hsplit] at hcode hrest
      rw [grDecode_code_of_prefix (parsePrefix_of_cut hp hle), decodeCodes_of_cut hcode (by omega)]
      rfl

end Sys2Proof.Machine

namespace Sys2Proof.Proofs

open Machine Claims

/-- Settles O20: what is cut off is a whole byte or more, and less than a byte was left unread (`grDecode_of_cut`). -/
theorem cutFilterIsTruncated : Obligations.CutFilterIsTruncated := by
  intro b m p k h hk hle
  exact grDecode_of_cut h (by omega)

/-- Settles O22: a code that decodes has d / 2^P + 1 + P bits, and one that fails reads no more than the bound allows. -/
theorem oneCodeReadsBoundedBits : Obligations.OneCodeReadsBoundedBits := by
  intro f p bs hf
  refine ⟨fun d rest h => ?_, fun c rest h => ?_⟩
  · obtain ⟨rfl, hq⟩ := oneCode_eq_ok_iff.1 h
    have hle : d / 2 ^ p ≤ (f + 2 ^ p - 1) / 2 ^ p := le_ceil_of_mul_lt (Nat.lt_add_right _ (mul_lt_of_within hf hq))
    rw [List.length_append, length_codeBits]
    omega
  · obtain ⟨k, hk, hlen⟩ := oneCode_error_length hf h
    have := le_ceil_of_mul_lt hk
    omega

/-- Settles O21: GRDecode looks at what the codes left unread; for N = 0 that is every bit behind the prefix. -/
theorem wholeUnreadByteIsCountMismatch : Obligations.WholeUnreadByteIsCountMismatch := by
  refine ⟨fun b m p n plen h hcode => ⟨fun hlt => ?_, fun hle => ?_⟩, fun b m p plen h => ?_⟩
  · exact (grDecode_ok_iff h m p).2 ⟨hcode, hlt⟩
  · rw [grDecode_code_of_prefix h, hcode]
    exact if_pos hle
  · have hlen : (bitsOf (b.drop plen)).length = 8 * (b.length - plen) := by rw [length_bitsOf, List.length_drop]
    rw [grDecode_code_of_prefix h, decodeCodes, hlen]
    by_cases hbyte : 8 * (b.length - plen) ≥ 8
    · exact iff_of_true (if_pos hbyte) (by omega)
    · exact iff_of_false (fun h' => nomatch (if_neg hbyte).symm.trans h') (by omega)

/-- Settles O18: the buffer is the prefix, the codes of the values and the unread bits (`decodeCodes_reads`). -/
theorem successfulDecodeProperties : Obligations.SuccessfulDecodeProperties := by
  intro b m p n plen h hok
  obtain ⟨hcode, hrest⟩ := (grDecode_ok_iff h m p).1 hok
  obtain ⟨hn, hplen, -⟩ := parsePrefix_ok h
  obtain ⟨hlen, hbelow, hsorted, -⟩ := decodeCodes_ok _ _ _ _ _ hcode
  obtain ⟨-, -, tail, hbits, htail⟩ := decodeCodes_reads (n * m) p n 0 (bitsOf (b.drop plen))
  obtain rfl := htail hcode
  have hcount := congrArg List.length hbits
  rw [length_bitsOf, List.length_drop, List.length_append, List.length_flatMap] at hcount
  simp only [length_codeBits] at hcount
  rw [grDecode_of_prefix h]
  dsimp only
  exact ⟨hlen, hn, hsorted, fun v hv => (hbelow v hv).2, by omega, by omega, by omega⟩

/-- Settles O57: the codes of vs are read first (`grDecode_of_streamBits`), and what stands behind them settles the error. -/
theorem failedDecodeReportsItsFirstError : Obligations.FailedDecodeReportsItsFirstError := by
  refine ⟨fun b m p c n h => ?_, fun b m p n plen h => ?_, fun b m p n plen vs tail h hbits hs hf => ⟨fun hlt => ?_, ?_⟩⟩
  · rw [grDecode_of_bad h]
    exact ⟨rfl, rfl, rfl, rfl⟩
  · obtain ⟨hs, hf, tail, hbits, -⟩ := decodeCodes_reads (n * m) p n 0 (bitsOf (b.drop plen))
    rw [grDecode_of_prefix h]
    exact ⟨rfl, rfl, length_decodeCodes_le _ _ _ _ _, (List.pairwise_cons.1 hs).2, hf, tail, hbits⟩
  · obtain ⟨k, rfl⟩ : ∃ k, n = vs.length + (k + 1) := ⟨n - vs.length - 1, by omega⟩
    refine ⟨fun q hq hend => ?_, fun q rest hq hover ht => ?_, fun d rest hq hover ht => ?_⟩
    · exact grDecode_of_failing_code h hbits hs hf (decodeCodes_of_error (oneCode_of_end hq hend) k)
    · obtain ⟨left, ho⟩ := oneCode_of_overlong hq hover rest
      exact grDecode_of_failing_code h hbits hs hf (decodeCodes_of_error (ht ▸ ho) k)
    · exact grDecode_of_failing_code h hbits hs hf (decodeCodes_of_valueRange (ht ▸ oneCode_of_codeBits hq rest) hover k)
  · intro hn hlong
    obtain ⟨hcode, hout⟩ := grDecode_of_streamBits (k := 0) h hbits hs hf hn.symm rfl
    exact ⟨hcode.trans (if_pos hlong), hout.trans (List.append_nil vs)⟩

end Sys2Proof.Proofs

/-! The DECODE command (42_golomb_rice R280, R281): what it reports, the write of one value, and its steps from acceptance to
completion in any order of the writes. First the lemmas about the model's operations, then one theorem for each obligation. -/

namespace Sys2Proof.Machine

open Sys2Proof.Claims

/-! ## What a DECODE evaluates to -/

theorem codeNumber_toNat (c : ResultCode) : (codeNumber c).toNat = codeValue c := by cases c <;> rfl

theorem resultWord_toNat_eq (c : ResultCode) (n : Option Nat) (w16 : Bool) :
    (resultWord c n w16).toNat = resultNumber c n w16 := by
  rw [resultWord_toNat, codeNumber_toNat, resultNumber]
  cases w16 <;> rfl

/-- A filter that cannot be read gives BUS_ERROR and no value (42_golomb_rice R280). -/
theorem decodeEval_of_not_accessible {p : Platform} {o : Operands} (m : Memory) (hn : o.srcLen ≠ 0)
    (h : ¬accessible p o.srcAddr.toNat o.srcLen.toNat) :
    decodeEval p m o = { word := resultWord .busError none false, n := none, fv := [], cv := [], bitCursor := 0 } := by
  simp only [decodeEval, memRead_of_not_accessible (fun h0 => hn (BitVec.eq_of_toNat_eq h0)) h]

/-- A filter that can be read gives the outcome of GRDecode (42_golomb_rice R280). -/
theorem decodeEval_of_accessible {p : Platform} {o : Operands} (m : Memory)
    (h : o.srcLen = 0 ∨ accessible p o.srcAddr.toNat o.srcLen.toNat) :
    decodeEval p m o =
      let d := grDecode (m.readBytes o.srcAddr.toNat o.srcLen.toNat) (cfgM o) (cfgP o)
      { word := resultWord (d.code.getD .noMatch) d.n d.w16, n := d.n, fv := d.out, cv := [], bitCursor := d.pos } := by
  simp only [decodeEval, memRead_of_accessible (h.imp_left fun h0 => by rw [h0]; rfl)]

/-! ## The write of one value -/

theorem writeOutputWord_holds {s : State} {a : Nat} (hw : s.mem.wf) (h : accessible s.platform a 4) (v : Word32) :
    holdsWord (writeOutputWord a v s).mem a v :=
  fun k hk => writeOutputWord_read_at a v s hw h k hk

theorem writeOutputWord_drawn {s : State} {a : Nat} (h : accessible s.platform a 4) (v : Word32) :
    (writeOutputWord a v s).drawn = s.drawn := by
  rw [writeOutputWord_of_accessible a v s h]; rfl

theorem writeOutputWord_busErr {s : State} {a : Nat} (hw : s.mem.wf) (h : ¬accessible s.platform a 4) (v : Word32) :
    (writeOutputWord a v s).status.busErr = true :=
  congrArg Status.busErr (writeOutputWord_of_not_accessible a v s hw h).1

/-- The three ways of writing a value: its word, where nothing disturbs it; any value, where the DECODE is disturbed or the
word lies under a breach; nothing, where the DECODE is disturbed (20_memory R113, R118). -/
theorem writeValue_three_ways (r : Running) (e : Evaluated) (i : Nat) (s : State) :
    (¬Disturbed s.platform r 0 ∧ ¬UnderBreach r (valueAddr r.latched i) ∧
        writeValue r e i s = setRun { r with written := insertAsc i r.written }
          (writeOutputWord (valueAddr r.latched i) (BitVec.ofNat 32 (e.fv.getD i 0)) s)) ∨
      ((Disturbed s.platform r 0 ∨ UnderBreach r (valueAddr r.latched i)) ∧
        writeValue r e i s = setRun { r with written := insertAsc i r.written }
          (writeOutputWord (valueAddr r.latched i) ((Config.free s.drawn).setWidth 32) (draw s 1))) ∨
      (Disturbed s.platform r 0 ∧
        writeValue r e i s = setRun { r with written := insertAsc i r.written } (draw s 1)) := by
  by_cases hl : wordLost s.platform r 0 (valueAddr r.latched i) = true
  · by_cases hskip : (tainted s.platform r 0 && (freeAt s 0).getLsbD 32) = true
    · refine .inr (.inr ⟨(tainted_iff _ _ _).1 (Bool.and_eq_true_iff.1 hskip).1, ?_⟩)
      rw [writeValue, if_pos hskip]
    · refine .inr (.inl ⟨(wordLost_iff _ _ _ _).1 hl, ?_⟩)
      rw [writeValue, if_neg hskip, writeJobWord, if_pos hl]
      rfl
  · have hkept := hl
    rw [wordLost_iff, not_or] at hkept
    exact .inl ⟨hkept.1, hkept.2, writeValue_of_kept (Bool.not_eq_true _ ▸ hl) e⟩

/-- A value whose word can be written leaves STATUS as it is, whatever is written. -/
theorem writeValue_status_of_accessible {r : Running} {s : State} {i : Nat}
    (h : accessible s.platform (valueAddr r.latched i) 4) (e : Evaluated) : (writeValue r e i s).status = s.status := by
  obtain ⟨-, -, hw⟩ | ⟨-, hw⟩ | ⟨-, hw⟩ := writeValue_three_ways r e i s
  · rw [hw, writeOutputWord_of_accessible _ _ s h]; rfl
  · rw [hw, writeOutputWord_of_accessible _ _ (draw s 1) h]; rfl
  · rw [hw]; rfl

/-! ## The steps of a DECODE that nothing disturbs -/

/-- An idle core with a legal M accepts a DECODE whose DST_ADDR is aligned (30_encoding R150). -/
theorem exec_decode_idle {s : State} (hr : s.running = none) (hm : legalM s) (ha : s.regs.dstAddr.toNat % 4 = 0) :
    exec .decode s = .next (acceptance .decode s) := by
  have h : issue .decode s = acceptance .decode s := by
    rw [issue_eq, hr, if_neg (by simp), if_neg (fun hc => hc.2 hm), if_neg (by simp [alignedFor, ha])]
  exact congrArg _ h

/-- The values a DECODE issued in s gives. -/
def dueValues (s : State) : List Nat := (decodeEval s.platform s.mem s.regs).fv

/-- The DECODE accepted in s, evaluated, with the values in w dealt with. -/
def decodingRun (s : State) (w : List Nat) : Running :=
  { freshRun .decode s with eval := some (decodeEval s.platform s.mem s.regs), written := w }

/-- The core that runs it, memory being m. -/
def decoding (s : State) (w : List Nat) (m : Memory) : State :=
  { acceptance .decode s with running := some (decodingRun s w), mem := m }

/-- The core when it has completed, memory being m (42_golomb_rice R280). -/
def decoded (s : State) (m : Memory) : State :=
  { completed (acceptance .decode s) with
    mem := m, result0 := (decodeEval s.platform s.mem s.regs).word.setWidth 64
    result1 := BitVec.ofNat 64 (dueValues s).length }

/-- From s to memory m exactly the values in w have been written, each once, in whatever order. -/
structure ValuesWritten (s : State) (w : List Nat) (m : Memory) : Prop where
  wf : m.wf
  once : w.Pairwise (· < ·)
  due : ∀ i ∈ w, i < (dueValues s).length
  values : ∀ i ∈ w, holdsWord m (valueAddr s.regs i) (BitVec.ofNat 32 ((dueValues s).getD i 0))
  others : ∀ a, (∀ i ∈ w, a < valueAddr s.regs i ∨ valueAddr s.regs i + 4 ≤ a) → m.read a = s.mem.read a

namespace ValuesWritten

variable {s u : State} {w : List Nat} {m : Memory}

theorem nil (h : s.mem.wf) : ValuesWritten s [] s.mem :=
  ⟨h, .nil, nofun, nofun, fun _ _ => rfl⟩

theorem length_le (h : ValuesWritten s w m) : w.length ≤ (dueValues s).length := by
  have hsub : w ⊆ List.range (dueValues s).length := fun i hi => List.mem_range.2 (h.due i hi)
  simpa using (List.subperm_of_subset (h.once.imp Nat.ne_of_lt) hsub).length_le

/-- One more value is written: no other value's word meets its own. -/
theorem insert (h : ValuesWritten s w u.mem) {i : Nat} (hi : i < (dueValues s).length) (hn : i ∉ w)
    (ha : accessible u.platform (valueAddr s.regs i) 4) :
    ValuesWritten s (insertAsc i w)
      (writeOutputWord (valueAddr s.regs i) (BitVec.ofNat 32 ((dueValues s).getD i 0)) u).mem where
  wf := writeOutputWord_wf _ _ u h.wf
  once := pairwise_insertAsc h.once hn
  due := fun j hj => by
    obtain rfl | hj := (mem_insertAsc i j w).1 hj
    · exact hi
    · exact h.due j hj
  values := fun j hj => by
    obtain rfl | hj := (mem_insertAsc i j w).1 hj
    · exact writeOutputWord_holds h.wf ha _
    · intro k hk
      have hne : j ≠ i := fun he => hn (he ▸ hj)
      rw [writeOutputWord_read_off _ _ u _ (by simp only [valueAddr]; omega)]
      exact h.values j hj k hk
  others := fun a hoff => by
    rw [writeOutputWord_read_off _ _ u a (hoff i ((mem_insertAsc i i w).2 (.inl rfl)))]
    exact h.others a fun j hj => hoff j ((mem_insertAsc i j w).2 (.inr hj))

end ValuesWritten

theorem coreStep_acceptance_decode (pick : Nat) (s : State) :
    coreStep pick (acceptance .decode s) = decoding s [] s.mem :=
  coreStep_of_unhung (r := freshRun .decode s) rfl rfl (by simp [freshRun]) pick

theorem coreSteps_idle {s : State} (h : s.running = none) (picks : List Nat) : coreSteps picks s = s := by
  induction picks with
  | nil => rfl
  | cons pick picks ih => rw [coreSteps, coreStep_none pick h, ih]

section Undisturbed

variable {s : State} (hu : undisturbed .decode s)
  (hacc : ∀ i < (dueValues s).length, accessible s.platform (valueAddr s.regs i) 4)
include hu

theorem decodingRun_untainted (w : List Nat) : tainted s.platform (decodingRun s w) 0 = false :=
  tainted_of_undisturbed hu ⟨rfl, rfl, rfl, rfl, rfl⟩ Nat.zero_lt_one

theorem decodingRun_kept (w : List Nat) {i : Nat} (hi : i < (dueValues s).length) :
    wordLost s.platform (decodingRun s w) 0 (valueAddr s.regs i) = false := by
  refine kept_of_undisturbed hu ⟨rfl, rfl, rfl, rfl, rfl⟩ Nat.zero_lt_one (i := i) ?_
  rw [outputWords_decode]
  exact hi.trans_le (length_decodeEval_le _ _ _)

include hacc

theorem writeValue_decoding {w : List Nat} {m : Memory} {i : Nat} (hi : i < (dueValues s).length) :
    writeValue (decodingRun s w) (decodeEval s.platform s.mem s.regs) i (decoding s w m) =
      decoding s (insertAsc i w)
        (writeOutputWord (valueAddr s.regs i) (BitVec.ofNat 32 ((dueValues s).getD i 0)) (decoding s w m)).mem :=
  calc
    _ = setRun (decodingRun s (insertAsc i w))
          (writeOutputWord (valueAddr s.regs i) (BitVec.ofNat 32 ((dueValues s).getD i 0)) (decoding s w m)) :=
      writeValue_of_kept (s := decoding s w m) (decodingRun_kept hu w hi) _
    _ = _ := by rw [writeOutputWord_of_accessible _ _ (decoding s w m) (hacc i hi)]; rfl

/-- A step of it writes one of the values it still owes, or, when it owes none, completes. -/
theorem coreStep_decoding {w : List Nat} {m : Memory} (hw : ValuesWritten s w m) (pick : Nat) :
    (∃ i m', ValuesWritten s (insertAsc i w) m' ∧
        coreStep pick (decoding s w m) = decoding s (insertAsc i w) m') ∨
      (∀ i < (dueValues s).length, i ∈ w) ∧ coreStep pick (decoding s w m) = decoded s m := by
  have hstep : coreStep pick (decoding s w m) = decodeStep pick (decodingRun s w) (decoding s w m) :=
    coreStep_of_unhung (r := decodingRun s w) rfl rfl (by simp [decodingRun, freshRun]) pick
  have hdue := valuesDue_of_untainted (decodingRun_untainted hu w) (decodeEval s.platform s.mem s.regs)
  rw [hstep]
  obtain ⟨he, -⟩ | ⟨e, i, he, hi, hn, hd⟩ | ⟨e, he, hleft, hd⟩ := decodeStep_cases pick (decodingRun s w) (decoding s w m)
  · cases he
  · cases he
    have hi : i < (dueValues s).length := hi.trans_eq hdue
    exact .inl ⟨i, _, hw.insert (u := decoding s w m) hi hn (hacc i hi), hd.trans (writeValue_decoding hu hacc hi)⟩
  · cases he
    refine .inr ⟨fun i hi => ?_, ?_⟩
    · by_contra hn
      have hmem := mem_valuesLeft.2 ⟨hi.trans_eq hdue.symm, hn⟩
      exact absurd (hleft ▸ hmem) List.not_mem_nil
    · exact hd.trans (if_neg (Bool.not_eq_true _ ▸ decodingRun_untainted hu w))

/-- As many steps as it owes values and one more complete it, in any schedule. -/
theorem coreSteps_decoding (picks : List Nat) {w : List Nat} {m : Memory} (hw : ValuesWritten s w m)
    (hp : (dueValues s).length + 1 ≤ picks.length + w.length) :
    ∃ w' m', ValuesWritten s w' m' ∧ (∀ i < (dueValues s).length, i ∈ w') ∧
      coreSteps picks (decoding s w m) = decoded s m' := by
  induction picks generalizing w m with
  | nil =>
    have := hw.length_le
    simp only [List.length_nil] at hp
    omega
  | cons pick picks ih =>
    rw [coreSteps]
    obtain ⟨i, m', hw', hstep⟩ | ⟨hall, hstep⟩ := coreStep_decoding hu hacc hw pick
    · rw [hstep]
      refine ih hw' ?_
      rw [length_insertAsc]
      rw [List.length_cons] at hp
      omega
    · exact ⟨w, m, hw, hall, by rw [hstep, coreSteps_idle rfl]⟩

end Undisturbed

end Sys2Proof.Machine

namespace Sys2Proof.Proofs

open Machine Claims

/-- Settles O23: the first step evaluates, and the others keep `ValuesWritten` until the DECODE completes
(`coreSteps_decoding`). -/
theorem decodeCommandResult : Obligations.DecodeCommandResult := by
  intro s picks hr hwf hm ha hu hacc hlen
  refine ⟨_, exec_decode_idle hr hm ha, rfl, _, rfl, ?_⟩
  cases picks with
  | nil => simp at hlen
  | cons pick picks =>
    rw [coreSteps, coreStep_acceptance_decode]
    obtain ⟨w, m, hw, hall, hend⟩ := coreSteps_decoding hu hacc picks (.nil hwf) (Nat.le_of_succ_le_succ hlen)
    rw [hend]
    refine ⟨rfl, fun i hi => ?_, fun a hoff => hw.others a fun i hi => ?_⟩
    · rw [← List.getD_eq_getElem _ 0 hi]
      exact hw.values i (hall i hi)
    · have hdue : i < (decodeEval s.platform s.mem s.regs).fv.length := hw.due i hi
      simp only [valueAddr]
      omega

/-- Settles O24: the filter is read or it is not, and a result word is the number of its fields. -/
theorem decodeReportsItsDecoding : Obligations.DecodeReportsItsDecoding := by
  refine fun p m o => ⟨fun hn h => ?_, fun h d hd => ?_⟩
  · rw [decodeEval_of_not_accessible m hn h]
    exact ⟨by decide, rfl⟩
  · rw [decodeEval_of_accessible m h]
    subst hd
    refine ⟨rfl, fun hc => ?_, fun c hc => ?_⟩
    · exact (resultWord_toNat_eq _ _ _).trans (by rw [cfgM, cfgP, hc]; rfl)
    · exact (resultWord_toNat_eq _ _ _).trans (by rw [cfgM, cfgP, hc]; rfl)

/-- Settles O25, by the three ways of writing a value (`writeValue_three_ways`). -/
theorem valueWriteGoesOnEitherWay : Obligations.ValueWriteGoesOnEitherWay := by
  rintro s t r e i addr hw rfl rfl
  refine ⟨⟨?_, ?_, fun h => writeValue_status_of_accessible h e⟩, fun x hd hb hx => ?_, fun hd hb => ?_, fun hd => ?_⟩
  · obtain ⟨u, hu, heq⟩ := writeValue_cases (R := fun _ => True) r e i s fun _ _ _ => trivial
    rw [heq]
    exact congrArg (setRun { r with written := insertAsc i r.written }) hu.1
  · intro a hoff
    obtain ⟨u, hu, heq⟩ := writeValue_cases r e i s fun _ hle hlt => And.intro hle hlt
    rw [heq]
    exact hu.2.1 a (by simp only [valueAddr]; omega)
  · obtain ⟨-, -, heq⟩ | ⟨hlost, -⟩ | ⟨hlost, -⟩ := writeValue_three_ways r e i s
    · rw [heq, List.getD_eq_getElem?_getD, hx, Option.getD_some]
      exact ⟨fun h => ⟨writeOutputWord_holds hw h _, writeOutputWord_drawn h _⟩,
        fun h => ⟨writeOutputWord_busErr hw h _, (writeOutputWord_of_not_accessible _ _ s hw h).2⟩⟩
    · exact absurd hlost (not_or.2 ⟨hd, hb⟩)
    · exact absurd hlost hd
  · obtain ⟨-, hkept, -⟩ | ⟨-, heq⟩ | ⟨hlost, -⟩ := writeValue_three_ways r e i s
    · exact absurd hb hkept
    · rw [heq]
      exact ⟨fun h => writeOutputWord_holds (s := draw s 1) hw h _, fun h => writeOutputWord_busErr (s := draw s 1) hw h _⟩
    · exact absurd hlost hd
  · obtain ⟨hkept, -, -⟩ | ⟨-, heq⟩ | ⟨-, heq⟩ := writeValue_three_ways r e i s
    · exact absurd hd hkept
    · rw [heq]
      exact ⟨fun h => .inr (writeOutputWord_holds (s := draw s 1) hw h _),
        fun h => .inr (writeOutputWord_busErr (s := draw s 1) hw h _)⟩
    · rw [heq]
      exact ⟨fun _ => .inl rfl, fun _ => .inl ⟨rfl, rfl⟩⟩

end Sys2Proof.Proofs

/-! The matcher (43_matcher): the merge of two sorted sequences, what a job whose decode succeeded reports, and the two steps
of a MATCH. First the lemmas about the model's operations, then one theorem for each obligation. -/

namespace Sys2Proof.Machine

open Sys2Proof.Claims

/-! ## The merge -/

/-- A value below the head of a non-decreasing sequence is not in it, so the merge may drop it (43_matcher R308). -/
theorem not_mem_of_lt_head {a b : Nat} {bs : List Nat} (h : a < b) (hs : (b :: bs).Pairwise (· ≤ ·)) : a ∉ b :: bs := by
  intro hm
  obtain rfl | hm := List.mem_cons.1 hm
  · exact h.false
  · exact h.not_ge ((List.pairwise_cons.1 hs).1 a hm)

/-- With as many comparisons as there are values, the two cursors find a common value wherever there is one: each
comparison drops a value that the other sequence does not hold. -/
theorem mergeSteps_eq_true_iff {k : Nat} {out cv : List Nat} (hk : out.length + cv.length ≤ k)
    (hout : out.Pairwise (· ≤ ·)) (hcv : cv.Pairwise (· ≤ ·)) :
    mergeSteps k out cv = true ↔ ∃ v, v ∈ out ∧ v ∈ cv := by
  induction k, out, cv using mergeSteps.induct with
  | case1 out cv =>
    obtain rfl : out = [] := List.length_eq_zero_iff.1 (by omega)
    simp [mergeSteps]
  | case2 k cv => simp [mergeSteps]
  | case3 k a as => simp [mergeSteps]
  | case4 k as v bs =>
    rw [mergeSteps, if_pos rfl]
    exact iff_of_true rfl ⟨v, List.mem_cons_self, List.mem_cons_self⟩
  | case5 k a as b bs hne hlt ih =>
    rw [mergeSteps, if_neg hne, if_pos hlt, ih (by simp at hk ⊢; omega) hout.of_cons hcv]
    have hdrop := not_mem_of_lt_head hlt hcv
    grind
  | case6 k a as b bs hne hle ih =>
    rw [mergeSteps, if_neg hne, if_neg hle, ih (by simp at hk ⊢; omega) hout hcv.of_cons]
    have hdrop := not_mem_of_lt_head (show b < a by omega) hout
    grind

theorem merge_eq_true_iff {out cv : List Nat} (hout : out.Pairwise (· ≤ ·)) (hcv : cv.Pairwise (· ≤ ·)) :
    merge out cv = true ↔ ∃ v, v ∈ out ∧ v ∈ cv :=
  mergeSteps_eq_true_iff le_rfl hout hcv

/-! ## A job whose decode succeeded -/

/-- A successful decode has accepted the prefix that gives its N (42_golomb_rice R262). -/
theorem exists_parsePrefix_of_decoded {b : List Byte} {m p n : Nat} (hc : (grDecode b m p).code = none)
    (hn : (grDecode b m p).n = some n) : ∃ plen, parsePrefix b = .ok n plen := by
  cases hp : parsePrefix b with
  | bad c n' => rw [grDecode_of_bad hp] at hc; cases hc
  | ok n' plen => rw [grDecode_of_prefix hp] at hn; cases hn; exact ⟨plen, rfl⟩

theorem pairwise_grDecode_out {b : List Byte} {n plen : Nat} (h : parsePrefix b = .ok n plen) (m p : Nat) :
    (grDecode b m p).out.Pairwise (· ≤ ·) := by
  rw [grDecode_of_prefix h]
  exact (decodeCodes_reads (n * m) p n 0 (bitsOf (b.drop plen))).1.of_cons

/-- Whichever result a job reports after a successful decode, it counts the filter's N (43_matcher R310). -/
theorem decodeAndMatch_n_of_decoded {b : List Byte} {m p : Nat} (hc : (grDecode b m p).code = none) (k0 k1 : Word)
    (items : List (List Byte)) : (decodeAndMatch k0 k1 b m p items).n = (grDecode b m p).n := by
  simp only [decodeAndMatch, hc]
  split <;> rfl

/-- A job whose decode succeeded is MATCH exactly when the filter is not empty and a decoded value is the candidate of an
item; the sorted candidate set has the candidates of the items and no other value (43_matcher R304, R306). -/
theorem decodeAndMatch_word_of_decoded {b : List Byte} {m p n : Nat} (hc : (grDecode b m p).code = none)
    (hn : (grDecode b m p).n = some n) (k0 k1 : Word) (items : List (List Byte)) :
    (decodeAndMatch k0 k1 b m p items).word =
      resultWord
        (if 1 ≤ n ∧ ∃ v ∈ (grDecode b m p).out, ∃ item ∈ items, v = candidate k0 k1 (n * m) item then .isMatch else .noMatch)
        (some n) (grDecode b m p).w16 := by
  simp only [decodeAndMatch, hc, hn, Option.getD_some]
  split
  next hempty =>
    rw [if_neg]
    rintro ⟨hpos, v, -, item, hitem, -⟩
    obtain h0 | h0 := hempty
    · omega
    · rw [List.length_eq_zero_iff.1 h0] at hitem
      cases hitem
  next hfull =>
    obtain ⟨plen, hp⟩ := exists_parsePrefix_of_decoded hc hn
    have hmerge := merge_eq_true_iff (pairwise_grDecode_out hp m p)
      (pairwise_sortAscending (items.map (candidate k0 k1 (n * m))))
    simp only [mem_sortAscending, List.mem_map] at hmerge
    have hpos : 1 ≤ n := Nat.one_le_iff_ne_zero.2 fun h0 => hfull (.inl h0)
    simp only [hmerge, hpos, true_and, eq_comm]

/-- An empty filter's F is 0, so its W16 is set (42_golomb_rice R262). -/
theorem grDecode_w16_of_empty {b : List Byte} {m p : Nat} (hc : (grDecode b m p).code = none)
    (hn : (grDecode b m p).n = some 0) : (grDecode b m p).w16 = true := by
  obtain ⟨plen, hp⟩ := exists_parsePrefix_of_decoded hc hn
  simp [grDecode_of_prefix hp]

/-! ## The steps of a MATCH that nothing disturbs -/

/-- An idle core accepts a command whose operands pass the checks (30_encoding R150, R153). -/
theorem issue_of_checked {op : Op} {s : State} (hr : s.running = none) (hm : legalM s) (ha : alignedFor op s.regs = true) :
    issue op s = acceptance op s := by
  rw [issue_eq, hr, if_neg nofun, if_neg fun hc => hc.2 hm, if_neg (by simp [ha])]

theorem exec_match_idle {s : State} (hr : s.running = none) (hm : legalM s) (ha : s.regs.watchAddr.toNat % 8 = 0) :
    exec .matchFilter s = .next (acceptance .matchFilter s) :=
  congrArg _ (issue_of_checked (op := .matchFilter) hr hm (by simp [alignedFor, ha]))

/-- The MATCH accepted in s, evaluated: RunJob on the job its registers name (43_matcher R320). -/
def matchingRun (s : State) : Running :=
  { freshRun .matchFilter s with eval := some (runJob s.platform s.mem s.regs (matchArgs s.regs)) }

/-- The step that follows the acceptance of a MATCH runs its job. -/
theorem coreStep_acceptance_match (pick : Nat) (s : State) :
    coreStep pick (acceptance .matchFilter s) = setRun (matchingRun s) (acceptance .matchFilter s) :=
  coreStep_of_unhung (r := freshRun .matchFilter s) rfl rfl (by simp [freshRun]) pick

/-- The step after that is its completion step. -/
theorem coreStep_matchingRun (pick : Nat) (s t : State) :
    coreStep pick (setRun (matchingRun s) t) =
      matchComplete (matchingRun s) (runJob s.platform s.mem s.regs (matchArgs s.regs)) (setRun (matchingRun s) t) :=
  coreStep_of_unhung (r := matchingRun s) rfl rfl (by simp [matchingRun, freshRun]) pick

/-- A MATCH that nothing disturbs ends with the result word and the count of its job (43_matcher R320, 10_state R49). -/
theorem matchComplete_of_not_tainted {r : Running} {s : State} (ht : tainted s.platform r 0 = false) (e : Evaluated) :
    matchComplete r e s =
      { completed s with result0 := e.word.setWidth 64, result1 := BitVec.ofNat 64 (e.n.getD 0) } := by
  simp only [matchComplete, ht]
  rfl

end Sys2Proof.Machine

namespace Sys2Proof.Proofs

open Machine Claims

/-- Settles O26: the bound of `merge` is enough comparisons for `mergeSteps_eq_true_iff`. -/
theorem mergeFindsExactlyTheCommonValues : Obligations.MergeFindsExactlyTheCommonValues :=
  fun _ _ hout hcv => merge_eq_true_iff hout hcv

/-- Settles O27: the word is the one of `decodeAndMatch_word_of_decoded`, read as a number. -/
theorem jobMatchesExactlyOnACommonValue : Obligations.JobMatchesExactlyOnACommonValue := by
  intro k0 k1 b m p n items hc hn
  rw [decodeAndMatch_n_of_decoded hc, decodeAndMatch_word_of_decoded hc hn, resultWord_toNat_eq]
  refine ⟨fun hpos hcommon => ?_, fun _ hno => ?_, fun h0 => ?_, hn⟩
  · rw [if_pos ⟨hpos, hcommon⟩]
  · rw [if_neg fun h => hno h.2]
  · subst h0
    rw [if_neg fun h => absurd h.1 (by decide), grDecode_w16_of_empty hc hn]
    decide

/-- Settles O28: one step runs the job, the next completes, and the command is as `undisturbed` found it. -/
theorem matchCommandResult : Obligations.MatchCommandResult := by
  intro s pick pick' hr hm ha hu
  have ht : tainted s.platform (matchingRun s) 0 = false :=
    tainted_of_undisturbed hu ⟨rfl, rfl, rfl, rfl, rfl⟩ Nat.zero_lt_one
  refine ⟨_, exec_match_idle hr hm ha, rfl, ?_⟩
  rintro _ rfl
  rw [coreStep_acceptance_match, coreStep_matchingRun]
  exact matchComplete_of_not_tainted (s := setRun (matchingRun s) (acceptance .matchFilter s)) ht _

end Sys2Proof.Proofs

/-! The batch (44_batch): the steps a running command has left, the steps of a BATCH that nothing disturbs with and without an
ABORT, what a job's result depends on, the write of one slot, and the one fault. First the lemmas about the model's
operations, then one theorem for each obligation. -/

namespace Sys2Proof.Machine

open Sys2Proof.Claims

/-! ## The steps a running command has left -/

/-- The lanes that have still to evaluate their job. -/
def unevaluatedLanes (r : Running) : Nat := r.lanes.countP fun l => l.eval.isNone

/-- The steps a batch has left at most: three for each job not yet handed out, one for each evaluation and each slot write
of a lane, and the completion step. -/
def batchStepsLeft (r : Running) : Nat :=
  3 * (jobCount r - r.cursor) + r.lanes.length + unevaluatedLanes r + 1

/-- The steps a running command has left at most, where memory answers (44_batch R383). -/
def stepsLeft (p : Platform) (r : Running) : Nat :=
  match r.op with
  | .hash | .map => 1
  | .matchFilter => if r.eval.isNone then 2 else 1
  | .decode =>
    match r.eval with
    | none => Config.filterCap + 2
    | some e => (valuesLeft p r e).length + 1
  | .batch => batchStepsLeft r

theorem stepsLeft_pos (p : Platform) (r : Running) : 0 < stepsLeft p r := by
  unfold stepsLeft
  split
  · exact Nat.one_pos
  · exact Nat.one_pos
  · split <;> exact Nat.succ_pos _
  · split <;> exact Nat.succ_pos _
  · exact Nat.succ_pos _

theorem batchStepsLeft_le {s : State} {r : Running} (h : BatchInv s r) : batchStepsLeft r ≤ 3 * jobCount r + 1 := by
  have hroom := h.cursorCount
  have hcursor := h.cursorBound
  have hlanes : unevaluatedLanes r ≤ r.lanes.length := List.countP_le_length
  unfold batchStepsLeft
  omega

theorem stepsLeft_of_decoded {p : Platform} {r : Running} {e : Evaluated} (hop : r.op = .decode) (he : r.eval = some e) :
    stepsLeft p r = (valuesLeft p r e).length + 1 := by
  simp only [stepsLeft, hop, he]

/-- A DECODE never owes more than FILTER_CAP values. -/
theorem length_valuesLeft_le (p : Platform) (r : Running) {e : Evaluated} (h : e.fv.length ≤ Config.filterCap) :
    (valuesLeft p r e).length ≤ Config.filterCap :=
  ((List.length_filter_le _ _).trans_eq List.length_range).trans (valuesDue_le p r h)

/-- A value dealt with is owed no more. -/
theorem length_valuesLeft_insertAsc_lt {p : Platform} {r : Running} {e : Evaluated} {i : Nat}
    (hi : i < valuesDue p r e) (hn : i ∉ r.written) :
    (valuesLeft p { r with written := insertAsc i r.written } e).length < (valuesLeft p r e).length := by
  have hmem : ∀ k, k ∈ valuesLeft p { r with written := insertAsc i r.written } e ↔
      k < valuesDue p r e ∧ k ≠ i ∧ k ∉ r.written := fun k => by
    rw [mem_valuesLeft, mem_insertAsc, not_or]
    rfl
  refine List.Subperm.length_le (l₁ := i :: valuesLeft p { r with written := insertAsc i r.written } e)
    (List.subperm_of_subset (List.nodup_cons.2 ⟨?_, List.nodup_range.filter _⟩) ?_)
  · exact fun h => ((hmem i).1 h).2.1 rfl
  · intro k hk
    rw [mem_valuesLeft]
    obtain rfl | hk := List.mem_cons.1 hk
    · exact ⟨hi, hn⟩
    · obtain ⟨hlt, -, hnot⟩ := (hmem k).1 hk
      exact ⟨hlt, hnot⟩

/-- Whatever the command, three steps for each job and 4099 more are never fewer than it has left (44_batch R383). -/
theorem stepsLeft_le {s : State} {r : Running} (h : RunInv s r) : stepsLeft s.platform r ≤ 3 * jobCount r + 4099 := by
  unfold stepsLeft
  split
  next => omega
  next => omega
  next => split <;> omega
  next hop =>
    split
    next => simp only [Config.filterCap]; omega
    next e he =>
      have hfit : e.fv.length ≤ Config.filterCap := by
        rw [h.decodeEval hop e he]
        exact length_decodeEval_le _ _ _
      have hle := length_valuesLeft_le s.platform r hfit
      simp only [Config.filterCap] at hle
      omega
  next hop => exact (batchStepsLeft_le (h.batch hop)).trans (by omega)

/-- A lane that evaluates its job is no longer among those that have to. -/
theorem countP_map_evaluated_lt {lanes : List Lane} {l : Lane} (hl : l ∈ lanes) (he : l.eval = none) (e : Evaluated) :
    (lanes.map fun x => if x.job = l.job then { x with eval := some e } else x).countP (fun x => x.eval.isNone) <
      lanes.countP fun x => x.eval.isNone := by
  rw [List.countP_map, (List.perm_cons_erase hl).countP_eq, (List.perm_cons_erase hl).countP_eq,
    List.countP_cons_of_neg (by simp), List.countP_cons_of_pos (by simp [he]), Nat.lt_succ_iff]
  refine List.countP_mono_left fun x _ hx => ?_
  by_contra hno
  simp only [Function.comp] at hx
  split at hx
  · cases hx
  · exact hno hx

/-- Every move of a batch that goes on takes it nearer to its end. -/
theorem batchMove_stepsLeft_lt {s : State} {r r' : Running} {b : BatchMove} (h : RunInv s r) (hop : r.op = .batch)
    (hb : MoveOpen s.platform r b) (hr' : (batchMove b r s).running = some r') : batchStepsLeft r' < batchStepsLeft r := by
  have hinv := h.batch hop
  have hfree : ∀ {j}, j ∈ inFlight r → (r.lanes.filter fun l => l.job != j).length + 1 = r.lanes.length ∧
      (r.lanes.filter fun l => l.job != j).countP (fun l => l.eval.isNone) ≤ unevaluatedLanes r :=
    fun hj => ⟨length_filter_lanes hinv.lanesDistinct hj, List.filter_sublist.countP_le⟩
  cases b with
  | dispatch j =>
    have hroom := ((batchMove_inv h hop hb r' hr').batch (by cases hr'; exact hop)).cursorBound
    cases hr'
    simp only [batchStepsLeft, unevaluatedLanes, jobCount, List.length_append, List.countP_append, List.length_singleton,
      List.countP_singleton, Option.isNone_none, if_true] at hroom ⊢
    omega
  | evaluate j =>
    obtain ⟨l, hl, rfl, -, he⟩ := hb
    cases hr'
    have hlt := countP_map_evaluated_lt hl he (batchJob s.platform r.before r.latched l.job)
    simp only [batchStepsLeft, unevaluatedLanes, jobCount, List.length_map]
    omega
  | finish j =>
    obtain ⟨l, hl, rfl, -⟩ := hb
    obtain ⟨hlen, hcount⟩ := hfree (mem_inFlight.2 ⟨l, hl, rfl⟩)
    rw [batchMove, finishJob_eq] at hr'
    cases hr'
    simp only [batchStepsLeft, unevaluatedLanes, jobCount, afterFinish] at hcount ⊢
    omega
  | drop j =>
    obtain ⟨-, l, hl, rfl, -⟩ := hb
    obtain ⟨hlen, hcount⟩ := hfree (mem_inFlight.2 ⟨l, hl, rfl⟩)
    cases hr'
    simp only [batchStepsLeft, unevaluatedLanes, jobCount] at hcount ⊢
    omega
  | finishAndComplete j => cases hr'
  | complete => cases hr'

/-- A batch with a move open to it makes, in each of its steps, one of those (44_batch R351). -/
theorem coreStep_openMove {s : State} {r : Running} (hr : s.running = some r) (hop : r.op = .batch)
    (hmoves : batchMoves s.platform r ≠ []) (pick : Nat) :
    ∃ b, MoveOpen s.platform r b ∧ coreStep pick s = batchMove b r s := by
  have hmove : coreCanMove s = true := by simpa [coreCanMove, hr, hop] using hmoves
  have hstep : coreStep pick s = batchStep pick r s := by simp [coreStep, hr, hmove, runStep, hop]
  obtain ⟨hnil, -⟩ | ⟨b, hb, hd⟩ := batchStep_cases pick r s
  · exact absurd hnil hmoves
  · exact ⟨b, hb, hstep.trans hd⟩

/-- A batch that memory answers always has one (44_batch R383). -/
theorem coreStep_batchMove {s : State} {r : Running} (hr : s.running = some r) (h : RunInv s r) (hop : r.op = .batch)
    (hp : s.platform.wellFormed = true) (hh : r.hung = []) (pick : Nat) :
    ∃ b, MoveOpen s.platform r b ∧ coreStep pick s = batchMove b r s := by
  simp only [Platform.wellFormed, Platform.lanesLegal, Bool.and_eq_true, decide_eq_true_eq] at hp
  obtain ⟨⟨hlanes, -⟩, -⟩ := hp
  exact coreStep_openMove hr hop (batchMoves_ne_nil (h.batch hop) hlanes hh (runInv_written_nodup h)) pick

/-- Every step of a command that memory answers ends it or takes it nearer to its end. -/
theorem coreStep_stepsLeft_lt {s : State} {r r' : Running} (hr : s.running = some r) (h : RunInv s r)
    (hp : s.platform.wellFormed = true) (hh : r.hung = []) (pick : Nat)
    (hr' : (coreStep pick s).running = some r') : stepsLeft s.platform r' < stepsLeft s.platform r := by
  cases hop : r.op with
  | hash =>
    rw [coreStep_of_unhung hr hh (by simp [hop]), runStep, hop, hashComplete_running] at hr'
    cases hr'
  | map =>
    rw [coreStep_of_unhung hr hh (by simp [hop]), runStep, hop] at hr'
    cases hr'
  | matchFilter =>
    rw [coreStep_of_unhung hr hh (by simp [hop]), runStep, hop, matchStep] at hr'
    cases he : r.eval with
    | none =>
      rw [he] at hr'
      cases hr'
      simp [stepsLeft, hop, he]
    | some e =>
      rw [he, matchComplete_running] at hr'
      cases hr'
  | decode =>
    rw [coreStep_of_unhung hr hh (by simp [hop]), runStep, hop] at hr'
    obtain ⟨he, hd⟩ | ⟨e, i, he, hi, hn, hd⟩ | ⟨e, -, -, hd⟩ := decodeStep_cases pick r s <;> rw [hd] at hr'
    · cases hr'
      refine (stepsLeft_of_decoded (e := decodeEval s.platform r.before r.latched) ?_ ?_).trans_lt ?_
      · exact hop
      · rfl
      · simp only [stepsLeft, hop, he]
        exact Nat.succ_lt_succ (Nat.lt_succ_of_le (length_valuesLeft_le _ _ (length_decodeEval_le _ _ _)))
    · cases hr'
      refine (stepsLeft_of_decoded (e := e) ?_ ?_).trans_lt ?_
      · exact hop
      · exact he
      · rw [stepsLeft_of_decoded hop he]
        exact Nat.succ_lt_succ (length_valuesLeft_insertAsc_lt hi hn)
    · rw [decodeComplete_running] at hr'
      cases hr'
  | batch =>
    have hop' : r'.op = .batch := (coreStep_sameCommand pick hr r' hr').1.trans hop
    obtain ⟨b, hb, hd⟩ := coreStep_batchMove hr h hop hp hh pick
    simp only [stepsLeft, hop, hop']
    exact batchMove_stepsLeft_lt h hop hb (hd ▸ hr')

/-- A command that memory answers has ended after as many steps as it had left, in any schedule. -/
theorem coreSteps_running_of_stepsLeft_le (picks : List Nat) {s : State} {r : Running} (hr : s.running = some r)
    (h : RunInv s r) (hp : s.platform.wellFormed = true) (hh : r.hung = [])
    (hlen : stepsLeft s.platform r ≤ picks.length) : (coreSteps picks s).running = none := by
  induction picks generalizing s r with
  | nil => exact absurd (stepsLeft_pos s.platform r) hlen.not_gt
  | cons pick picks ih =>
    rw [coreSteps]
    cases hr' : (coreStep pick s).running with
    | none => rw [coreSteps_idle hr', hr']
    | some r' =>
      have hlt := coreStep_stepsLeft_lt hr h hp hh pick hr'
      obtain ⟨-, -, -, -, -, hhung, -⟩ := coreStep_sameCommand pick hr r' hr'
      refine ih hr' (coreStep_run_inv pick hr h r' hr') ?_ (hhung.trans hh) ?_
      · rwa [coreStep_platform]
      · rw [coreStep_platform]
        rw [List.length_cons] at hlen
        omega

/-! ## ABORT, and the batch of no jobs -/

/-- An ABORT requests the end of the batch that runs and changes nothing else (44_batch R370). -/
theorem exec_abort_batch {s : State} {r : Running} (hr : s.running = some r) (hop : r.op = .batch) :
    exec .abort s = .next { s with running := some { r with abortReq := true } } := by
  simp [exec, execAbort, hr, hop, setRun_eq]

theorem exec_abort_no_batch {s : State} (h : ∀ r, s.running = some r → r.op ≠ .batch) : exec .abort s = .next s := by
  cases hr : s.running with
  | none => exact exec_abort_idle hr
  | some r => simp [exec, execAbort, hr, h r hr]

/-- The one move open to a batch of no jobs is its completion step (44_batch R342). -/
theorem eq_complete_of_no_jobs {p : Platform} {r : Running} {b : BatchMove} (hlanes : r.lanes = []) (hj : jobCount r = 0)
    (hb : MoveOpen p r b) : b = .complete := by
  have hno : ∀ l, l ∉ r.lanes := by simp [hlanes]
  cases b with
  | complete => rfl
  | dispatch j =>
    obtain ⟨-, -, hlt, -⟩ := hb
    exact absurd hlt (by simp [hj])
  | evaluate j => obtain ⟨l, hl, -⟩ := hb; exact absurd hl (hno l)
  | finish j => obtain ⟨l, hl, -⟩ := hb; exact absurd hl (hno l)
  | finishAndComplete j => obtain ⟨⟨l, hl, -⟩, -⟩ := hb; exact absurd hl (hno l)
  | drop j => obtain ⟨-, l, hl, -⟩ := hb; exact absurd hl (hno l)

/-! ## The steps of a BATCH that nothing disturbs -/

theorem exec_batch_idle {s : State} (hr : s.running = none) (hm : legalM s) (hj : s.regs.jobAddr.toNat % 8 = 0)
    (ha : s.regs.resAddr.toNat % 4 = 0) : exec .batch s = .next (acceptance .batch s) :=
  congrArg _ (issue_of_checked (op := .batch) hr hm (by simp [alignedFor, hj, ha]))

/-- From s to memory m exactly the slots of the jobs in w have been written, each once, in whatever order, each with its own
job's result (44_batch R346, R360). -/
structure SlotsWritten (s : State) (w : List Nat) (m : Memory) : Prop where
  wf : m.wf
  once : w.Pairwise (· < ·)
  jobs : ∀ j ∈ w, j < s.regs.jobCount.toNat
  results : ∀ j ∈ w, holdsWord m (slotAddr s.regs j) (batchJob s.platform s.mem s.regs j).word
  others : ∀ a, (∀ j ∈ w, a < slotAddr s.regs j ∨ slotAddr s.regs j + 4 ≤ a) → m.read a = s.mem.read a

namespace SlotsWritten

variable {s u : State} {w : List Nat} {m : Memory}

theorem nil (h : s.mem.wf) : SlotsWritten s [] s.mem :=
  ⟨h, .nil, nofun, nofun, fun _ _ => rfl⟩

theorem subperm_range (h : SlotsWritten s w m) : w.Subperm (List.range s.regs.jobCount.toNat) :=
  List.subperm_of_subset (h.once.imp Nat.ne_of_lt) fun j hj => List.mem_range.2 (h.jobs j hj)

theorem length_le (h : SlotsWritten s w m) : w.length ≤ s.regs.jobCount.toNat := by
  simpa using h.subperm_range.length_le

/-- As many slots as the batch has jobs are all of them. -/
theorem mem_of_length_eq (h : SlotsWritten s w m) (hall : w.length = s.regs.jobCount.toNat) {j : Nat}
    (hj : j < s.regs.jobCount.toNat) : j ∈ w :=
  (h.subperm_range.perm_of_length_le (by simp [hall])).mem_iff.2 (List.mem_range.2 hj)

/-- One more slot is written: no other job's slot meets its own. -/
theorem insert (h : SlotsWritten s w u.mem) {j : Nat} (hj : j < s.regs.jobCount.toNat) (hn : j ∉ w)
    (ha : accessible u.platform (slotAddr s.regs j) 4) :
    SlotsWritten s (insertAsc j w)
      (writeOutputWord (slotAddr s.regs j) (batchJob s.platform s.mem s.regs j).word u).mem where
  wf := writeOutputWord_wf _ _ u h.wf
  once := pairwise_insertAsc h.once hn
  jobs := fun i hi => by
    obtain rfl | hi := (mem_insertAsc j i w).1 hi
    · exact hj
    · exact h.jobs i hi
  results := fun i hi => by
    obtain rfl | hi := (mem_insertAsc j i w).1 hi
    · exact writeOutputWord_holds h.wf ha _
    · intro k hk
      have hne : i ≠ j := fun he => hn (he ▸ hi)
      rw [writeOutputWord_read_off _ _ u _ (by simp only [slotAddr]; omega)]
      exact h.results i hi k hk
  others := fun a hoff => by
    rw [writeOutputWord_read_off _ _ u a (hoff j ((mem_insertAsc j j w).2 (.inl rfl)))]
    exact h.others a fun i hi => hoff i ((mem_insertAsc j i w).2 (.inr hi))

end SlotsWritten

/-- The core that runs the BATCH accepted in s with the bookkeeping r, memory being m. -/
def batching (s : State) (r : Running) (m : Memory) : State :=
  { acceptance .batch s with running := some r, mem := m, jobsDone := BitVec.ofNat 32 r.written.length }

/-- The core when it has ended with n slots written, after an abort request or without one, memory being m (44_batch R362,
R371). -/
def batchEnded (s : State) (n : Nat) (abortReq : Bool) (m : Memory) : State :=
  { completed (acceptance .batch s) with
    mem := m, jobsDone := BitVec.ofNat 32 n
    status := { (completed (acceptance .batch s)).status with aborted := abortReq } }

/-- A BATCH accepted in s, running: it is as it was accepted but for its bookkeeping, which is sound, and the slots of the
jobs it has written. -/
structure BatchUnderWay (s : State) (r : Running) (m : Memory) : Prop where
  accepted : AsAccepted .batch s r
  unhung : r.hung = []
  inv : RunInv (batching s r m) r
  slots : SlotsWritten s r.written m

/-- What a BATCH accepted in s may have come to, without an abort request or since one: it runs, or it has ended, without
an abort only with every slot written (44_batch R362, R371). -/
inductive BatchProgress (s : State) (abortReq : Bool) : State → Prop
  | running {r : Running} {m : Memory} (way : BatchUnderWay s r m) (abort : r.abortReq = abortReq) :
      BatchProgress s abortReq (batching s r m)
  | ended {w : List Nat} {m : Memory} (slots : SlotsWritten s w m)
      (all : abortReq = false → w.length = s.regs.jobCount.toNat) :
      BatchProgress s abortReq (batchEnded s w.length abortReq m)

theorem acceptance_eq_batching (s : State) : acceptance .batch s = batching s (freshRun .batch s) s.mem := rfl

theorem freshRun_underWay {s : State} (hw : s.mem.wf) (hm : legalM s) (hj : s.regs.jobAddr.toNat % 8 = 0)
    (ha : s.regs.resAddr.toNat % 4 = 0) : BatchUnderWay s (freshRun .batch s) s.mem where
  accepted := asAccepted_freshRun .batch s
  unhung := rfl
  inv := freshRun_inv (op := .batch) hw (fun _ => (cfgLegal_iff s).2 hm) (by simp [alignedFor, hj, ha])
  slots := .nil hw

namespace BatchUnderWay

variable {s : State} {r : Running} {m : Memory}

theorem batch (h : BatchUnderWay s r m) : BatchInv (batching s r m) r := h.inv.batch h.accepted.op

theorem jobCount_eq (h : BatchUnderWay s r m) : jobCount r = s.regs.jobCount.toNat := by
  rw [jobCount, h.accepted.latched]

/-- A step that leaves the batch running leaves it the batch it was. -/
theorem next (h : BatchUnderWay s r m) {pick : Nat} {r' : Running} {m' : Memory}
    (hstep : coreStep pick (batching s r m) = batching s r' m') (hslots : SlotsWritten s r'.written m') :
    BatchUnderWay s r' m' ∧ r'.abortReq = r.abortReq := by
  have hr' : (coreStep pick (batching s r m)).running = some r' := by rw [hstep]; rfl
  obtain ⟨hop, hlatched, hbefore, habort, hraced, hhung, hstale⟩ := coreStep_sameCommand pick rfl r' hr'
  obtain ⟨kop, klatched, kbefore, kraced, kstale⟩ := h.accepted
  refine ⟨⟨⟨hop.trans kop, hlatched.trans klatched, hbefore.trans kbefore, hraced.trans kraced, hstale.trans kstale⟩,
    hhung.trans h.unhung, ?_, hslots⟩, habort⟩
  have hinv := coreStep_run_inv pick rfl h.inv r' hr'
  rwa [hstep] at hinv

/-- The slot a lane of it writes: its own job's result. -/
theorem writesSlot (h : BatchUnderWay s r m) (hu : undisturbed .batch s)
    (hacc : ∀ j < s.regs.jobCount.toNat, accessible s.platform (slotAddr s.regs j) 4) {l : Lane} (hl : l ∈ r.lanes)
    (he : l.eval.isSome = true) :
    ∃ m', SlotsWritten s (afterFinish r l.job).written m' ∧
      finishJob r l.job (batching s r m) = batching s (afterFinish r l.job) m' := by
  have hflight := mem_inFlight.2 ⟨l, hl, rfl⟩
  obtain ⟨hj, hn⟩ := h.batch.lanesBound l.job hflight
  rw [h.jobCount_eq] at hj
  have hword : laneWord r l.job = (batchJob s.platform s.mem s.regs l.job).word := by
    obtain ⟨e, he⟩ := Option.isSome_iff_exists.1 he
    rw [laneWord_eq h.batch.lanesDistinct hl, he, h.batch.laneEval l hl e he, h.accepted.before, h.accepted.latched]
    rfl
  have hkept : wordLost s.platform r l.job (slotAddr s.regs l.job) = false :=
    kept_of_undisturbed hu h.accepted hj (by rwa [outputWords_batch])
  refine ⟨_, h.slots.insert (u := batching s r m) hj hn (hacc _ hj), ?_⟩
  have hdone : BitVec.ofNat 32 r.written.length + 1 = BitVec.ofNat 32 (r.written.length + 1) := by
    simp [BitVec.ofNat_add]
  rw [finishJob_eq, h.accepted.latched, hword, writeJobWord_of_kept (s := batching s r m) hkept,
    writeOutputWord_of_accessible _ _ (batching s r m) (hacc _ hj)]
  simp only [batching, afterFinish, length_insertAsc, ← hdone]
  rfl

end BatchUnderWay

/-- Bookkeeping that leaves the slots written as they are. -/
theorem setRun_batching (s : State) {r r' : Running} (m : Memory) (h : r'.written = r.written) :
    setRun r' (batching s r m) = batching s r' m := by
  simp only [setRun_eq, batching, h]

/-- The completion step of a batch (44_batch R362, R371). -/
theorem batchComplete_batching (s : State) (r : Running) (m : Memory) :
    batchComplete r (batching s r m) = batchEnded s r.written.length r.abortReq m := by
  simp only [batchComplete, batching, batchEnded]
  rfl

namespace BatchProgress

variable {s u : State} {abortReq : Bool} (hp : s.platform.wellFormed = true) (hu : undisturbed .batch s)
  (hacc : ∀ j < s.regs.jobCount.toNat, accessible s.platform (slotAddr s.regs j) 4)

/-- A batch that is over has ended as it should, whether in a step of its own or with its last slot write. -/
theorem of_batchOver {r : Running} {m : Memory} (hslots : SlotsWritten s r.written m)
    (hlatched : r.latched = s.regs) (hover : batchOver r = true) :
    BatchProgress s r.abortReq (batchComplete r (batching s r m)) := by
  rw [batchComplete_batching]
  refine .ended hslots fun ha => ?_
  obtain ⟨-, habort | hall⟩ := batchOver_iff.1 hover
  · exact absurd habort (by simp [ha])
  · rw [hall, jobCount, hlatched]

include hp hu hacc

/-- Whatever move a step makes, it leaves the batch in sound progress. -/
theorem step (h : BatchProgress s abortReq u) (pick : Nat) : BatchProgress s abortReq (coreStep pick u) := by
  cases h with
  | ended hslots hall => rw [coreStep_none pick rfl]; exact .ended hslots hall
  | @running r m way habort =>
    subst habort
    obtain ⟨b, hb, hstep⟩ := coreStep_batchMove (s := batching s r m) rfl way.inv way.accepted.op hp way.unhung pick
    have goesOn : ∀ {r' m'}, batchMove b r (batching s r m) = batching s r' m' → SlotsWritten s r'.written m' →
        BatchProgress s r.abortReq (coreStep pick (batching s r m)) := fun hmove hslots => by
      obtain ⟨way', habort⟩ := way.next (hstep.trans hmove) hslots
      rw [hstep, hmove]
      exact .running way' habort
    cases b with
    | dispatch j => exact goesOn (setRun_batching s m rfl) way.slots
    | evaluate j => exact goesOn (setRun_batching s m rfl) way.slots
    | drop j => exact goesOn (setRun_batching s m rfl) way.slots
    | complete =>
      rw [hstep]
      exact of_batchOver way.slots way.accepted.latched hb
    | finish j =>
      obtain ⟨l, hl, rfl, -, he⟩ := hb
      obtain ⟨m', hslots, hmove⟩ := way.writesSlot hu hacc hl he
      exact goesOn hmove hslots
    | finishAndComplete j =>
      obtain ⟨⟨l, hl, rfl, -, he⟩, hover⟩ := hb
      obtain ⟨m', hslots, hmove⟩ := way.writesSlot hu hacc hl he
      rw [hstep, batchMove, hmove]
      exact of_batchOver hslots way.accepted.latched hover

theorem steps (picks : List Nat) (h : BatchProgress s abortReq u) :
    BatchProgress s abortReq (coreSteps picks u) := by
  induction picks generalizing u with
  | nil => exact h
  | cons pick picks ih => exact ih (h.step hp hu hacc pick)

/-- A batch under way has ended after three steps for each of its jobs and one more, in any schedule (44_batch R383). -/
theorem steps_ended {r : Running} {m : Memory} (h : BatchUnderWay s r m) {picks : List Nat}
    (hlen : 3 * s.regs.jobCount.toNat + 1 ≤ picks.length) :
    ∃ w m', SlotsWritten s w m' ∧ (r.abortReq = false → w.length = s.regs.jobCount.toNat) ∧
      coreSteps picks (batching s r m) = batchEnded s w.length r.abortReq m' := by
  have hleft : stepsLeft s.platform r ≤ 3 * s.regs.jobCount.toNat + 1 := by
    simpa only [stepsLeft, h.accepted.op, h.jobCount_eq] using batchStepsLeft_le h.batch
  have hend := coreSteps_running_of_stepsLeft_le picks (s := batching s r m) rfl h.inv hp h.unhung (hleft.trans hlen)
  have hprogress := steps hp hu hacc picks (.running h rfl)
  generalize coreSteps picks (batching s r m) = u at hend hprogress
  cases hprogress with
  | running => cases hend
  | ended hslots hall => exact ⟨_, _, hslots, hall, rfl⟩

end BatchProgress

/-- An ABORT marks the batch under way and nothing else (44_batch R370). -/
theorem exec_abort_batching {s : State} {r : Running} {m : Memory} (h : BatchUnderWay s r m) :
    exec .abort (batching s r m) = .next (batching s { r with abortReq := true } m) ∧
      BatchUnderWay s { r with abortReq := true } m := by
  have hop := h.accepted.op
  refine ⟨?_, ⟨h.accepted.op, h.accepted.latched, h.accepted.before, h.accepted.raced, h.accepted.stale⟩, h.unhung, ?_,
    h.slots⟩
  · exact exec_abort_batch rfl hop
  · exact (h.inv.mark (hung := r.hung) h.inv.racedBound id (.inr ⟨hop, rfl⟩)).congr rfl rfl rfl rfl fun _ => rfl

/-! ## What a job's result depends on -/

/-- Two platforms and memories agree over a byte range: its bytes are the same, and BUS_OK of each (44_batch R346). -/
def AgreeOver (p p' : Platform) (m m' : Memory) (g : Nat × Nat) : Prop :=
  ∀ a, g.1 ≤ a → a < g.1 + g.2 → m'.read a = m.read a ∧ busOk p' a = busOk p a

section Agreement

variable {p p' : Platform} {m m' : Memory} {o o' : Operands}

/-- A read looks at the bytes of its range and at BUS_OK over it (20_memory R105). -/
theorem memRead_congr {a n : Nat} (h : AgreeOver p p' m m' (a, n)) : memRead p' m' a n = memRead p m a n := by
  have hbyte : ∀ i < n, m'.read (a + i) = m.read (a + i) ∧ busOk p' (a + i) = busOk p (a + i) :=
    fun i hi => h (a + i) (Nat.le_add_right a i) (Nat.add_lt_add_left hi a)
  have hacc : accessible p' a n ↔ accessible p a n :=
    and_congr_right fun _ => forall₂_congr fun i hi => by rw [(hbyte i hi).2]
  have hread : m'.readBytes a n = m.readBytes a n :=
    List.map_congr_left fun i hi => (hbyte i (List.mem_range.1 hi)).1
  by_cases hok : n = 0 ∨ accessible p a n
  · rw [memRead_of_accessible hok, memRead_of_accessible (hok.imp_right hacc.2), hread]
  · rw [not_or] at hok
    rw [memRead_of_not_accessible hok.1 hok.2, memRead_of_not_accessible hok.1 (mt hacc.1 hok.2)]

theorem readItems_congr {es : List WatchEntry} (h : ∀ e ∈ es, AgreeOver p p' m m' (e.addr, e.len)) :
    readItems p' m' es = readItems p m es := by
  induction es with
  | nil => rfl
  | cons e es ih =>
    rw [readItems, readItems, memRead_congr (h e List.mem_cons_self), ih fun e he => h e (List.mem_cons_of_mem _ he)]

theorem checkAndMatch_congr {a : JobArgs} {b t : List Byte} (hcfg : o'.cfg = o.cfg)
    (h : ∀ e ∈ watchEntries t a.w, AgreeOver p p' m m' (e.addr, e.len)) :
    checkAndMatch p' m' o' a b t = checkAndMatch p m o a b t := by
  rw [checkAndMatch, checkAndMatch, readItems_congr h, cfgM, cfgM, cfgP, cfgP, hcfg]

/-- The ranges of a watch table that can be read are those of its entries (20_memory R112). -/
theorem mem_itemRanges {wa w : Nat} {t : List Byte} (ht : memRead p m wa (16 * w) = some t) {e : WatchEntry}
    (he : e ∈ watchEntries t w) : (e.addr, e.len) ∈ itemRanges p m wa w := by
  rw [itemRanges, ht]
  exact List.mem_map_of_mem he

/-- RunJob looks at the bytes of its read set and BUS_OK over them, at CFG and at CAND_CAP (43_matcher R310). -/
theorem runJob_congr {a : JobArgs} (hcap : p'.candCap = p.candCap) (hcfg : o'.cfg = o.cfg)
    (h : ∀ g ∈ jobRanges p m a, AgreeOver p p' m m' g) : runJob p' m' o' a = runJob p m o a := by
  have hfilter : memRead p' m' a.fa a.lb = memRead p m a.fa a.lb := memRead_congr (h _ (by simp [jobRanges]))
  have htable : memRead p' m' a.wa (16 * a.w) = memRead p m a.wa (16 * a.w) := memRead_congr (h _ (by simp [jobRanges]))
  rw [runJob, runJob, hcap, hfilter, htable]
  cases memRead p m a.fa a.lb with
  | none => rfl
  | some b =>
    cases ht : memRead p m a.wa (16 * a.w) with
    | none => rfl
    | some t =>
      have hitems : ∀ e ∈ watchEntries t a.w, AgreeOver p p' m m' (e.addr, e.len) :=
        fun e he => h _ (by simp [jobRanges, mem_itemRanges ht he])
      simp only [checkAndMatch_congr hcfg hitems]

/-- BatchJob looks at the descriptor too, and at no more than RunJob does of the job that names (44_batch R345). -/
theorem batchJob_congr {j : Nat} (hcap : p'.candCap = p.candCap) (hcfg : o'.cfg = o.cfg) (haddr : o'.jobAddr = o.jobAddr)
    (h : ∀ g ∈ batchJobRanges p m o j, AgreeOver p p' m m' g) : batchJob p' m' o' j = batchJob p m o j := by
  have hdesc : memRead p' m' (descriptorAddr o' j) 64 = memRead p m (descriptorAddr o j) 64 := by
    simp only [descriptorAddr, haddr]
    exact memRead_congr (h (descriptorAddr o j, 64) List.mem_cons_self)
  simp only [batchJob, hdesc]
  split
  next => rfl
  next d hd =>
    split
    next hlegal => exact runJob_congr hcap hcfg fun g hg => h g (by simp [batchJobRanges, hd, hlegal, hg])
    next => rfl

end Agreement

/-! ## The write of one slot -/

/-- The two ways of writing an output word: its value, where nothing disturbs it; any value, where the job is disturbed or the
word lies under a breach (20_memory R113, R114, R118). -/
theorem writeJobWord_two_ways (r : Running) (j addr : Nat) (v : Word32) (s : State) :
    (¬Disturbed s.platform r j ∧ ¬UnderBreach r addr ∧ writeJobWord r j addr v s = writeOutputWord addr v s) ∨
      ((Disturbed s.platform r j ∨ UnderBreach r addr) ∧
        writeJobWord r j addr v s = writeOutputWord addr ((Config.free s.drawn).setWidth 32) (draw s 1)) := by
  by_cases hl : wordLost s.platform r j addr = true
  · refine .inr ⟨(wordLost_iff _ _ _ _).1 hl, ?_⟩
    rw [writeJobWord, if_pos hl]
    rfl
  · have hkept := hl
    rw [wordLost_iff, not_or] at hkept
    exact .inl ⟨hkept.1, hkept.2, writeJobWord_of_kept (Bool.not_eq_true _ ▸ hl) v⟩

/-- A word that can be written leaves STATUS as it is, whatever is written; one that cannot sets BUSERR (60_exceptions
R410). -/
theorem writeJobWord_status (r : Running) (j addr : Nat) (v : Word32) {s : State} (hw : s.mem.wf) :
    (accessible s.platform addr 4 → (writeJobWord r j addr v s).status = s.status) ∧
      (¬accessible s.platform addr 4 → (writeJobWord r j addr v s).status.busErr = true) := by
  obtain ⟨-, -, heq⟩ | ⟨-, heq⟩ := writeJobWord_two_ways r j addr v s <;> rw [heq]
  · exact ⟨fun h => by rw [writeOutputWord_of_accessible _ _ s h]; rfl, fun h => writeOutputWord_busErr hw h v⟩
  · exact ⟨fun h => by rw [writeOutputWord_of_accessible _ _ (draw s 1) h]; rfl,
      fun h => writeOutputWord_busErr (s := draw s 1) hw h _⟩

/-! ## The one fault -/

theorem exec_ne_fault (i : Instr) (s : State) (f : Fault) : exec i s ≠ .fault f := by cases i <;> nofun

theorem writeCmd_ne_fault (w : Word) (s : State) (f : Fault) : writeCmd w s ≠ .fault f := by
  unfold writeCmd
  split
  · exact exec_ne_fault _ s f
  · nofun

theorem writeReg_ne_fault (r : Reg) (v : Word) (s : State) (f : Fault) : writeReg r v s ≠ .fault f := by
  cases r with
  | cmd => exact writeCmd_ne_fault v s f
  | _ => nofun

theorem hostRegWrite_ne_fault (offset width : Nat) (v : Word) (s : State) (f : Fault) :
    hostRegWrite offset width v s ≠ .fault f := by
  unfold hostRegWrite
  split
  · split
    · nofun
    · exact writeReg_ne_fault _ v s f
  · nofun

theorem hostRegRead_ne_fault (offset width : Nat) (s : State) (f : Fault) : hostRegRead offset width s ≠ .fault f := by
  unfold hostRegRead
  split <;> nofun

theorem hostBusWrite_ne_fault (addr width : Nat) (v : Word) (s : State) (f : Fault) :
    hostBusWrite addr width v s ≠ .fault f := by
  unfold hostBusWrite
  split
  · split
    · nofun
    · exact hostRegWrite_ne_fault _ width v s f
  · nofun

theorem hostBusRead_ne_fault (addr width : Nat) (s : State) (f : Fault) : hostBusRead addr width s ≠ .fault f := by
  unfold hostBusRead
  split
  · split
    · nofun
    · exact hostRegRead_ne_fault _ width s f
  · nofun

/-- Of all events the host's polling loop alone can stop the machine (93 I9). -/
theorem eq_wait_of_happen_fault {e : Event} {s : State} {f : Fault} (h : happen e s = .fault f) : e = .wait := by
  cases e with
  | wait => rfl
  | regWrite offset width v => exact absurd h (hostRegWrite_ne_fault offset width v s f)
  | regRead offset width => exact absurd h (hostRegRead_ne_fault offset width s f)
  | busWrite addr width v => exact absurd h (hostBusWrite_ne_fault addr width v s f)
  | busRead addr width => exact absurd h (hostBusRead_ne_fault addr width s f)
  | _ => cases h

theorem coreCanMove_of_hostWait_fault {s : State} {f : Fault} (h : hostWait s = .fault f) :
    (∃ r, s.running = some r) ∧ coreCanMove s = false := by
  cases hr : s.running with
  | none => rw [hostWait_idle hr] at h; cases h
  | some r =>
    rw [hostWait_running hr] at h
    split at h
    · cases h
    · exact ⟨⟨r, rfl⟩, Bool.eq_false_of_not_eq_true ‹_›⟩

theorem coreCanMove_of_runAlone_fault {s : State} {f : Fault} (h : runAlone s = .fault f) :
    (∃ r, s.running = some r) ∧ coreCanMove s = false := by
  cases hr : s.running with
  | none => rw [runAlone_idle hr] at h; cases h
  | some r =>
    rw [runAlone_running hr] at h
    split at h
    · cases h
    · exact ⟨⟨r, rfl⟩, Bool.eq_false_of_not_eq_true ‹_›⟩

/-- The machine stops only where the host polls or nothing is to come, with a command running that cannot move (93 I9). -/
theorem stuck_of_step_fault {s : State} {f : Fault} (h : step s = .fault f) :
    (s.agenda = [] ∨ ∃ es, s.agenda = .wait :: es) ∧ (∃ r, s.running = some r) ∧ coreCanMove s = false := by
  cases ha : s.agenda with
  | nil => exact ⟨.inl rfl, coreCanMove_of_runAlone_fault ((step_of_agenda_nil ha).symm.trans h)⟩
  | cons e es =>
    rw [step_of_agenda_cons ha] at h
    obtain rfl := eq_wait_of_happen_fault h
    exact ⟨.inr ⟨es, rfl⟩, coreCanMove_of_hostWait_fault (s := { s with agenda := es }) h⟩

theorem hangJob_of_no_access {s : State} {r : Running} {j : Nat} (hr : s.running = some r)
    (h : waitsFor s.platform r j = false) : hangJob j s = s := by
  simp [hangJob, hr, h]

/-- The commands that have no access to come (44_batch R383). -/
theorem waitsFor_of_no_access {p : Platform} {r : Running}
    (h : r.op = .map ∨ (r.op = .hash ∧ r.latched.srcLen = 0) ∨ (r.op = .decode ∧ r.latched.srcLen = 0 ∧ r.eval = none) ∨
      (r.op = .matchFilter ∧ (p.candCap < r.latched.watchCount.toNat ∨
        (r.latched.srcLen = 0 ∧ r.latched.watchCount = 0)))) (j : Nat) : waitsFor p r j = false := by
  obtain hop | ⟨hop, hlen⟩ | ⟨hop, hlen, he⟩ | ⟨hop, hover | ⟨hlen, hcount⟩⟩ := h
  · simp [waitsFor, hop]
  · simp [waitsFor, hop, hlen]
  · simp [waitsFor, hop, hlen, he]
  · simp [waitsFor, hop, jobAccesses, matchArgs, hover.not_ge]
  · simp [waitsFor, hop, jobAccesses, matchArgs, hlen, hcount]

end Sys2Proof.Machine

namespace Sys2Proof.Proofs

open Machine Claims

/-- Settles O31: every step keeps `BatchProgress`, and after so many the batch has ended, without an abort with every slot
written. -/
theorem batchGivesTheSameSlotsInEverySchedule : Obligations.BatchGivesTheSameSlotsInEverySchedule := by
  intro s picks hr hwf hp hm hj ha hu hacc hlen
  refine ⟨_, exec_batch_idle hr hm hj ha, rfl, _, rfl, ?_⟩
  obtain ⟨w, m, hw, hall, hend⟩ := BatchProgress.steps_ended hp hu hacc (freshRun_underWay hwf hm hj ha) hlen
  have hcount : w.length = s.regs.jobCount.toNat := hall rfl
  rw [acceptance_eq_batching, hend]
  refine ⟨?_, fun j hj => hw.results j (hw.mem_of_length_eq hcount hj), fun a hoff => hw.others a fun j hj => ?_⟩
  · simp only [batchEnded, hcount, BitVec.ofNat_toNat, BitVec.setWidth_eq]
    rfl
  · have hlt := hw.jobs j hj
    simp only [slotAddr]
    omega

/-- Settles O32: the ABORT finds the batch in sound progress, which holds up to its end with the abort request too. -/
theorem abortedBatchLeavesOldOrOwnResults : Obligations.AbortedBatchLeavesOldOrOwnResults := by
  intro s picks picks' hr hwf hp hm hj ha hu hacc hrun hlen
  have hprogress := BatchProgress.steps hp hu hacc picks (.running (freshRun_underWay hwf hm hj ha) rfl)
  rw [← acceptance_eq_batching] at hprogress
  generalize coreSteps picks (acceptance .batch s) = u at hrun hprogress ⊢
  cases hprogress with
  | ended => cases hrun
  | running way _ =>
    obtain ⟨hexec, way'⟩ := exec_abort_batching way
    obtain ⟨w, m, hw, -, hend⟩ := BatchProgress.steps_ended hp hu hacc way' hlen
    refine ⟨_, hexec, _, w, rfl, ?_⟩
    rw [hend]
    refine ⟨rfl, rfl, rfl, hw.once.imp Nat.ne_of_lt, hw.jobs, ?_, hw.results, hw.others⟩
    exact (BitVec.toNat_ofNat _ _).trans (Nat.mod_eq_of_lt (hw.length_le.trans_lt s.regs.jobCount.isLt))

/-- Settles O33: each read a job makes lies in its read set (`batchJob_congr`). -/
theorem jobDependsOnItsReadSetOnly : Obligations.JobDependsOnItsReadSetOnly :=
  fun _ _ _ _ _ _ _ hcap hcfg haddr h => batchJob_congr hcap hcfg haddr h

/-- Settles O36: every step of the command takes it nearer to its end (`coreStep_stepsLeft_lt`), which is never further away
than the bound (`stepsLeft_le`). -/
theorem everyRunningCommandCompletes : Obligations.EveryRunningCommandCompletes := by
  intro s r picks h hr hh hlen
  have hi := h.running r hr
  exact coreSteps_running_of_stepsLeft_le picks hr hi h.platformLegal hh ((stepsLeft_le hi).trans hlen)

/-- Settles O34, by the two ways of writing a slot (`writeJobWord_two_ways`). -/
theorem slotWriteCountsTheJobEitherWay : Obligations.SlotWriteCountsTheJobEitherWay := by
  rintro s t r l e addr hw hnd hl he rfl rfl
  have hword : laneWord r l.job = e.word := by rw [laneWord_eq hnd hl, he]; rfl
  have hframe := writeJobWord_onlyWords r l.job (slotAddr r.latched l.job) (laneWord r l.job) s fun _ hle hlt =>
    And.intro hle hlt
  have hstatus := writeJobWord_status r l.job (slotAddr r.latched l.job) (laneWord r l.job) hw
  rw [finishJob_eq]
  refine ⟨⟨?_, fun a hoff => hframe.2.1 a ?_, hstatus⟩, fun hd hb => ?_, fun hlost => ?_⟩
  · exact congrArg (fun u : State => { u with running := some (afterFinish r l.job), jobsDone := s.jobsDone + 1 })
      hframe.1
  · simp only [slotAddr]
    omega
  · obtain ⟨-, -, heq⟩ | ⟨hlost, -⟩ := writeJobWord_two_ways r l.job (slotAddr r.latched l.job) (laneWord r l.job) s
    · rw [heq, hword]
      exact ⟨fun h => ⟨writeOutputWord_holds hw h _, writeOutputWord_drawn h _⟩,
        fun h => (writeOutputWord_of_not_accessible _ _ s hw h).2⟩
    · exact absurd hlost (not_or.2 ⟨hd, hb⟩)
  · obtain ⟨hd, hb, -⟩ | ⟨-, heq⟩ := writeJobWord_two_ways r l.job (slotAddr r.latched l.job) (laneWord r l.job) s
    · exact absurd hlost (not_or.2 ⟨hd, hb⟩)
    · rw [heq]
      exact fun h => writeOutputWord_holds (s := draw s 1) hw h _

/-- Settles O37: a fault leaves the running command stuck (`stuck_of_step_fault`), and with the invariant one that has no
access unanswered can move. -/
theorem machineStopsOnlyWhenMemoryNeverAnswers : Obligations.MachineStopsOnlyWhenMemoryNeverAnswers := by
  refine ⟨fun s f h hfault => ?_, fun s r j hr hno => congrArg _ (hangJob_of_no_access hr (waitsFor_of_no_access hno j))⟩
  obtain ⟨hagenda, ⟨r, hr⟩, hstuck⟩ := stuck_of_step_fault hfault
  refine ⟨r, hr, fun hh => ?_, hagenda⟩
  rw [coreCanMove_of_unhung h hr hh] at hstuck
  cases hstuck

/-- Settles O8: opcode 0 in a word that is not 0 leaves RSVD not 0. -/
theorem nopChangesNothing : Obligations.NopChangesNothing := by
  refine ⟨fun _ => rfl, fun s w hq hop hne => hostRegWrite_illegal hq (.inl fun hrsvd => hne ?_)⟩
  exact BitVec.eq_of_toNat_eq (show w.toNat = 0 by omega)

/-- Settles O9: an abort request set twice is set once. -/
theorem abortRequestsTheEndOfABatchOnly : Obligations.AbortRequestsTheEndOfABatchOnly := by
  refine ⟨fun s r => exec_abort_batch, fun s => exec_abort_no_batch, fun s t ht => ?_⟩
  by_cases hno : ∀ r, s.running = some r → r.op ≠ .batch
  · rw [exec_abort_no_batch hno] at ht
    cases ht
    exact exec_abort_no_batch hno
  · push Not at hno
    obtain ⟨r, hr, hop⟩ := hno
    rw [exec_abort_batch hr hop] at ht
    cases ht
    exact exec_abort_batch (r := { r with abortReq := true }) rfl hop

/-- Settles O30: with no jobs every slot is written, so the one move open is the completion step. -/
theorem emptyBatchCompletesAtOnce : Obligations.EmptyBatchCompletesAtOnce := by
  intro s pick hr hm hj ha hcount
  refine ⟨_, exec_batch_idle hr hm hj ha, rfl, ?_, rfl⟩
  have hj0 : jobCount (freshRun .batch s) = 0 := congrArg BitVec.toNat hcount
  have hcomplete : BatchMove.complete ∈ batchMoves s.platform (freshRun .batch s) :=
    mem_batchMoves.2 (batchOver_iff.2 ⟨rfl, .inr hj0.symm⟩)
  obtain ⟨b, hb, hstep⟩ := coreStep_openMove (s := acceptance .batch s) (r := freshRun .batch s) rfl rfl
    (List.ne_nil_of_mem hcomplete) pick
  obtain rfl := eq_complete_of_no_jobs rfl hj0 hb
  exact hstep

end Sys2Proof.Proofs

/-! The order of a job's checks (60_exceptions R420): what a job reports for each condition, with its count. First the lemmas
about the model's operations, one for each outcome of a check, then the obligation. -/

namespace Sys2Proof.Machine

open Sys2Proof.Claims

/-! ## The descriptor -/

theorem descriptorArgs_eq_jobOf (d : List Byte) : descriptorArgs d = jobOf d := by
  simp only [descriptorArgs, jobOf, fieldAt_eq_le_slice]

theorem descriptorLegal_iff (d : List Byte) : descriptorLegal d = true ↔ jobLegal d := by
  simp only [descriptorLegal, jobLegal, fieldAt_eq_le_slice, Bool.and_eq_true, beq_iff_eq, and_assoc]

/-! ## The watch table -/

/-- An entry's fields as the statements read them (30_encoding R165). -/
theorem watchEntry_eq (t : List Byte) (i : Nat) :
    watchEntry t i =
      { addr := fieldAt t (16 * i) 8, len := fieldAt t (16 * i + 8) 4, rsvd := fieldAt t (16 * i + 12) 4 } := by
  simp only [watchEntry, fieldAt_eq_le_slice]

/-- An entry of the table has its reserved field set (43_matcher R310). -/
theorem any_rsvd_iff (t : List Byte) (w : Nat) :
    ((watchEntries t w).any fun e => e.rsvd != 0) = true ↔ ∃ i < w, fieldAt t (16 * i + 12) 4 ≠ 0 := by
  simp [watchEntries, watchEntry_eq]

section Job

variable {p : Platform} {m : Memory} {o : Operands} {a : JobArgs}

/-! ## The items -/

/-- One item that cannot be read is a BusError of them all (43_matcher R310). -/
theorem readItems_eq_none {es : List WatchEntry} {e : WatchEntry} (he : e ∈ es)
    (hnone : memRead p m e.addr e.len = none) : readItems p m es = none := by
  induction he with
  | head => rw [readItems, hnone]
  | tail _ _ ih =>
    rw [readItems, ih]
    split <;> rfl

/-- Items that can be read are read, in the order of their entries. -/
theorem readItems_eq_some {es : List WatchEntry} {items : List (List Byte)}
    (h : List.Forall₂ (fun e b => memRead p m e.addr e.len = some b) es items) : readItems p m es = some items := by
  induction h with
  | nil => rfl
  | cons hhead _ ih => rw [readItems, hhead, ih]

/-- The items of a watch table, one for each of its entries. -/
theorem readItems_watchEntries {t : List Byte} {w : Nat} {items : List (List Byte)} (hlen : items.length = w)
    (h : ∀ (i : Nat) (hi : i < items.length),
      memRead p m (fieldAt t (16 * i) 8) (fieldAt t (16 * i + 8) 4) = some items[i]) :
    readItems p m (watchEntries t w) = some items := by
  refine readItems_eq_some (List.forall₂_iff_get.2 ⟨by simp [watchEntries, hlen], fun i _ hi => ?_⟩)
  simpa [watchEntries, watchEntry_eq] using h i hi

/-! ## What each check reports -/

/-- A job ended by one of its own checks reports that code and no count (30_encoding R171). -/
theorem earlyResult_reports {e : Evaluated} {c : ResultCode} (h : e = earlyResult c) :
    e.word.toNat = resultNumber c none false ∧ e.n = none := by
  subst h
  exact ⟨resultWord_toNat_eq c none false, rfl⟩

/-- A job whose decode failed reports that error, with the count where the prefix yielded one (43_matcher R310). -/
theorem decodeAndMatch_reports {b : List Byte} {cm cp : Nat} {c : ResultCode} (hc : (grDecode b cm cp).code = some c)
    (k0 k1 : Word) (items : List (List Byte)) :
    (decodeAndMatch k0 k1 b cm cp items).word.toNat = resultNumber c (grDecode b cm cp).n (grDecode b cm cp).w16 ∧
      (decodeAndMatch k0 k1 b cm cp items).n = (grDecode b cm cp).n := by
  simp only [decodeAndMatch, hc, resultWord_toNat_eq, and_self]

theorem checkAndMatch_of_reserved {t : List Byte} (h : ∃ i < a.w, fieldAt t (16 * i + 12) 4 ≠ 0) (b : List Byte) :
    checkAndMatch p m o a b t = earlyResult .descriptorError := by
  rw [checkAndMatch, if_pos ((any_rsvd_iff t a.w).2 h)]

/-- With no reserved field set, the items decide (43_matcher R310). -/
theorem checkAndMatch_of_clear {t : List Byte} (h : ∀ i < a.w, fieldAt t (16 * i + 12) 4 = 0) (b : List Byte) :
    checkAndMatch p m o a b t =
      (readItems p m (watchEntries t a.w)).elim (earlyResult .busError)
        (decodeAndMatch a.k0 a.k1 b o.cfg.m.toNat o.cfg.p.toNat) := by
  rw [checkAndMatch, if_neg fun hset => ?_]
  · cases readItems p m (watchEntries t a.w) <;> rfl
  · obtain ⟨i, hi, hne⟩ := (any_rsvd_iff t a.w).1 hset
    exact hne (h i hi)

theorem checkAndMatch_of_item_unreadable {t : List Byte} (hclear : ∀ i < a.w, fieldAt t (16 * i + 12) 4 = 0)
    (h : ∃ i < a.w, memRead p m (fieldAt t (16 * i) 8) (fieldAt t (16 * i + 8) 4) = none) (b : List Byte) :
    checkAndMatch p m o a b t = earlyResult .busError := by
  obtain ⟨i, hi, hnone⟩ := h
  have hmem : watchEntry t i ∈ watchEntries t a.w := List.mem_map_of_mem (List.mem_range.2 hi)
  rw [watchEntry_eq] at hmem
  rw [checkAndMatch_of_clear hclear, readItems_eq_none hmem hnone, Option.elim_none]

theorem checkAndMatch_of_items {t : List Byte} {items : List (List Byte)}
    (hclear : ∀ i < a.w, fieldAt t (16 * i + 12) 4 = 0) (hlen : items.length = a.w)
    (h : ∀ (i : Nat) (hi : i < items.length),
      memRead p m (fieldAt t (16 * i) 8) (fieldAt t (16 * i + 8) 4) = some items[i]) (b : List Byte) :
    checkAndMatch p m o a b t = decodeAndMatch a.k0 a.k1 b o.cfg.m.toNat o.cfg.p.toNat items := by
  rw [checkAndMatch_of_clear hclear, readItems_watchEntries hlen h, Option.elim_some]

theorem runJob_of_overflow (h : p.candCap < a.w) : runJob p m o a = earlyResult .candidateOverflow := if_pos h

/-- The filter and the table are read before anything else of a job within CAND_CAP; either can be the BusError. -/
theorem runJob_of_unreadable (hcap : a.w ≤ p.candCap)
    (h : memRead p m a.fa a.lb = none ∨ memRead p m a.wa (16 * a.w) = none) :
    runJob p m o a = earlyResult .busError := by
  rw [runJob, if_neg hcap.not_gt]
  obtain hfilter | htable := h
  · rw [hfilter]
  · rw [htable]
    split <;> rfl

theorem runJob_of_read (hcap : a.w ≤ p.candCap) {b t : List Byte} (hb : memRead p m a.fa a.lb = some b)
    (ht : memRead p m a.wa (16 * a.w) = some t) : runJob p m o a = checkAndMatch p m o a b t := by
  rw [runJob, if_neg hcap.not_gt, hb, ht]

theorem batchJob_of_unreadable {j : Nat} (h : memRead p m (descriptorAddr o j) 64 = none) :
    batchJob p m o j = earlyResult .busError := by
  rw [batchJob, h]

theorem batchJob_of_illegal {j : Nat} {d : List Byte} (h : memRead p m (descriptorAddr o j) 64 = some d)
    (hd : ¬jobLegal d) : batchJob p m o j = earlyResult .descriptorError := by
  rw [batchJob, h]
  exact if_neg (mt (descriptorLegal_iff d).1 hd)

theorem batchJob_of_legal {j : Nat} {d : List Byte} (h : memRead p m (descriptorAddr o j) 64 = some d)
    (hd : jobLegal d) : batchJob p m o j = runJob p m o (jobOf d) := by
  rw [batchJob, h, ← descriptorArgs_eq_jobOf]
  exact if_pos ((descriptorLegal_iff d).2 hd)

end Job

end Sys2Proof.Machine

namespace Sys2Proof.Proofs

open Machine Claims

/-- Settles O29, one lemma for each outcome of the checks of `batchJob`, `runJob` and `checkAndMatch`, in their order. -/
theorem jobReportsItsFirstError : Obligations.JobReportsItsFirstError := by
  refine ⟨fun p m o j => ⟨fun hdesc => ?_, fun d hdesc => ⟨fun hillegal => ?_, batchJob_of_legal hdesc⟩⟩,
    fun p m o a => ⟨fun hover => ?_, fun hcap => ⟨fun hread => ?_, fun b t hb ht => ?_⟩⟩⟩
  · exact earlyResult_reports (batchJob_of_unreadable hdesc)
  · exact earlyResult_reports (batchJob_of_illegal hdesc hillegal)
  · exact earlyResult_reports (runJob_of_overflow hover)
  · exact earlyResult_reports (runJob_of_unreadable hcap hread)
  · rw [runJob_of_read hcap hb ht]
    refine ⟨fun hset => ?_, fun hclear => ⟨fun hitem => ?_, ?_⟩⟩
    · exact earlyResult_reports (checkAndMatch_of_reserved hset b)
    · exact earlyResult_reports (checkAndMatch_of_item_unreadable hclear hitem b)
    · rintro items _ hlen hitems rfl
      rw [checkAndMatch_of_items hclear hlen hitems]
      exact ⟨fun c hc => decodeAndMatch_reports hc a.k0 a.k1 items, fun _ => rfl⟩

end Sys2Proof.Proofs

/-! Reset (70_reset_and_hazards): the state each reset leaves, and what a soft reset makes of the output words of the command
it abandons. First the lemmas about the model's operations, then one theorem for each obligation. -/

namespace Sys2Proof.Machine

open Sys2Proof.Claims

/-! ## The reset state -/

/-- The OPEN parameters the machine is reset on are within the spec's bounds (00_scope R8). -/
theorem platform_wellFormed : Config.platform.wellFormed = true :=
  Bool.and_eq_true_iff.2 ⟨decide_eq_true ⟨Nat.le_add_left 1 _, Config.nlanesPred.isLt⟩,
    decide_eq_true ⟨Nat.le_add_left 1 _, Config.candCapPred.isLt⟩⟩

/-- ID, PARAMS and CFG are the only registers that do not reset to 0 (70_reset_and_hazards R450). -/
theorem regWord_reset_eq_zero {r : Reg} (h : r ∉ [.id, .params, .cfg]) : regWord r State.reset = 0 := by
  cases r with
  | id | params | cfg => simp at h
  | _ => rfl

theorem readReg_reset_eq_zero {offset : Nat} (h : regAt offset ∉ [.id, .params, .cfg]) : readReg offset State.reset = 0 :=
  regWord_reset_eq_zero h

/-- What the core's reset leaves reads like the reset state on the same platform (70_reset_and_hazards R451). -/
theorem regWord_resetCore (r : Reg) (s : State) :
    regWord r (resetCore s) = regWord r { State.reset with platform := s.platform } := by
  cases r <;> rfl

theorem hostRegWrite_of_resetIn {s : State} {offset : Nat} (ha : offset % 8 = 0) (hw : offset < 4096)
    (hq : s.resetIn = true) (v : Word) : hostRegWrite offset 8 v s = .next s := by
  rw [hostRegWrite, if_pos (accessDefined_iff.2 ⟨rfl, ha, hw⟩), if_pos hq]

/-- Releasing RESET_IN leaves the reset state the machine was held in (70_reset_and_hazards R451). -/
theorem setResetIn_false_of_quiet {s : State} (h : resetCore s = s) :
    s.setResetIn false =
      { State.reset with platform := s.platform, mem := s.mem, agenda := s.agenda, observed := s.observed, drawn := s.drawn,
                         stale := s.stale } :=
  congrArg (·.setResetIn false) h.symm

/-! ## A soft reset -/

/-- A write of CTRL with SRST = 1 is a soft reset (10_state R35). -/
theorem hostRegWrite_srst {s : State} {v : Word} (hq : s.resetIn = false) (hv : v.getLsbD 1 = true) :
    hostRegWrite 0x010 8 v s = .next (softReset s) := by
  rw [hostRegWrite_defined rfl (by decide) hq]
  simp only [regAt, writeReg, hv, if_true]

theorem softReset_idle {s : State} (h : s.running = none) : softReset s = resetCore s := by simp only [softReset, h]

theorem softReset_running {s : State} {r : Running} (h : s.running = some r) :
    softReset s = resetCore ((List.range (outputWords r.op r.latched)).foldl (abandonWord r) s) := by
  simp only [softReset, h]

/-- Nothing but memory and the counter of free values depends on the command a soft reset abandons. -/
theorem softReset_eq_reset {s : State} (hq : s.resetIn = false) :
    softReset s =
      { State.reset with platform := s.platform, mem := (softReset s).mem, agenda := s.agenda, observed := s.observed,
                         drawn := (softReset s).drawn, stale := s.stale } := by
  obtain ⟨u, ho, hu⟩ := softReset_eq_resetCore s
  rw [hu]
  simp only [resetCore, ho.platform, ho.resetIn, ho.agenda, ho.observed, ho.stale, hq]
  rfl

/-- A soft reset writes no byte outside the output words of the command it abandons (70_reset_and_hazards R452). -/
theorem softReset_read_off {s : State} {r : Running} {a : Nat} (hr : s.running = some r)
    (h : ∀ k w, OutputWordAt r k w → a < w ∨ w + 4 ≤ a) : (softReset s).mem.read a = s.mem.read a := by
  rw [softReset_running hr]
  exact (abandon_onlyWords r s).2.1 a (Bool.not_eq_true _ ▸ not_inRange_of_no_word h)

/-! ## The output words of an abandoned command -/

/-- Memory m holds output word k, which stands at w, with the command's own value or as it was before the command
(70_reset_and_hazards R452). -/
def HoldsOldOrNew (p : Platform) (r : Running) (m : Memory) (k w : Nat) : Prop :=
  (∃ v, WritesWord p r k w v ∧ holdsWord m w v) ∨ ∀ i < 4, m.read (w + i) = r.before.read (w + i)

theorem HoldsOldOrNew.congr {p : Platform} {r : Running} {m m' : Memory} {k w : Nat} (h : HoldsOldOrNew p r m k w)
    (hm : ∀ i < 4, m'.read (w + i) = m.read (w + i)) : HoldsOldOrNew p r m' k w :=
  h.imp (fun ⟨v, hv, hh⟩ => ⟨v, hv, fun i hi => (hm i hi).trans (hh i hi)⟩) fun hold i hi => (hm i hi).trans (hold i hi)

/-- The value the model settles an output word with is the one the command writes there. -/
theorem writesWord_of_outputValue {p : Platform} {r : Running} {k w : Nat} {v : Word32} (hat : OutputWordAt r k w)
    (h : outputValue p r k = some v) : WritesWord p r k w v := by
  refine ⟨hat, ?_⟩
  obtain ⟨hop, -, -⟩ | ⟨hop, hat⟩ := hat
  · simp only [outputValue, hop, Option.map_eq_some_iff] at h
    obtain ⟨x, hx, rfl⟩ := h
    exact .inl ⟨hop, x, hx, rfl⟩
  · rw [outputValue_of_writesWord ⟨.inr ⟨hop, hat⟩, .inr ⟨hop, rfl⟩⟩, Option.some_inj] at h
    exact .inr ⟨hop, h.symm⟩

/-- A range written with the bytes of another memory reads as there. -/
theorem Memory.read_writeBytes_readBytes {m : Memory} (hw : m.wf) (old : Memory) {a n i : Nat} (h64 : a + n ≤ 2 ^ 64)
    (hi : i < n) : (m.writeBytes a (old.readBytes a n)).read (a + i) = old.read (a + i) := by
  rw [Memory.read_writeBytes hw, length_readBytes,
    if_pos ⟨by omega, by omega, by simp only [Config.addrLimit]; omega⟩, Nat.add_sub_cancel_left, Memory.readBytes,
    getD_map_range hi]

section AbandonWord

variable {r : Running} {s : State} {j k w : Nat}

/-- Settling one output word changes no byte of another: the words do not overlap (20_memory R121). -/
theorem abandonWord_read_other (hat : OutputWordAt r k w) (hne : j ≠ k) {i : Nat} (hi : i < 4) :
    (abandonWord r s j).mem.read (w + i) = s.mem.read (w + i) := by
  obtain ⟨-, rfl⟩ := (outputWordAt_iff r k w).1 hat
  refine (abandonWord_onlyWords (R := (· ≠ outputAddr r.op r.latched k + i)) r s j fun a h1 h2 => ?_).2.1 _ (by simp)
  simp only [outputAddr] at h1 h2 ⊢
  omega

variable (hw : s.mem.wf) (hat : OutputWordAt r k w) (hlost : wordLost s.platform r (outputJob r k) w = false)
  (hacc : accessible s.platform w 4) (h : HoldsOldOrNew s.platform r s.mem k w)

include hw hat hlost hacc h

/-- Each of the three ways of settling an output word that is not lost leaves it old or new. -/
theorem abandonWord_self_holdsOldOrNew : HoldsOldOrNew s.platform r (abandonWord r s k).mem k w := by
  obtain ⟨-, rfl⟩ := (outputWordAt_iff r k w).1 hat
  cases hv : outputValue s.platform r k with
  | none => rwa [abandonWord_none hlost hv]
  | some v =>
    rw [abandonWord_some hlost hv]
    split
    · split
      · exact .inl ⟨v, writesWord_of_outputValue hat hv, writeOutputWord_holds (s := draw s 1) hw hacc v⟩
      · exact .inr fun i hi => Memory.read_writeBytes_readBytes hw r.before hacc.1 hi
    · exact h

theorem abandonWord_holdsOldOrNew (j : Nat) : HoldsOldOrNew s.platform r (abandonWord r s j).mem k w := by
  by_cases hjk : j = k
  · subst hjk; exact abandonWord_self_holdsOldOrNew hw hat hlost hacc h
  · exact h.congr fun i hi => abandonWord_read_other hat hjk hi

/-- Settling any number of output words leaves a word that is not lost old or new. -/
theorem foldl_abandonWord_holdsOldOrNew (ks : List Nat) :
    HoldsOldOrNew s.platform r (ks.foldl (abandonWord r) s).mem k w := by
  induction ks generalizing s with
  | nil => exact h
  | cons j js ih =>
    have hstep := abandonWord_onlyWords (R := fun _ => True) r s j (by simp)
    have hnext := abandonWord_holdsOldOrNew hw hat hlost hacc h j
    rw [← hstep.platform] at hlost hacc hnext ⊢
    exact ih (hstep.2.2 hw) hlost hacc hnext

end AbandonWord

end Sys2Proof.Machine

namespace Sys2Proof.Proofs

open Machine Claims

/-- Settles O51: with a command running, the bytes of its output region alone are settled before the core's reset. -/
theorem softResetRestoresTheResetState : Obligations.SoftResetRestoresTheResetState := by
  intro s v hq hv
  refine ⟨softReset s, hostRegWrite_srst hq hv, softReset_eq_reset hq, rfl, ?_, fun hr => ?_,
    fun r a hr => softReset_read_off hr⟩
  · rw [readReg_params, readReg_params, softReset_platform]
  · rw [softReset_idle hr]; rfl

/-- Settles O52: by induction on the output words settled, each of which is kept because nothing disturbs the command. -/
theorem abandonedWordsAreOldOrNew : Obligations.AbandonedWordsAreOldOrNew := by
  intro s r hr hw hclean hwords hold k w hat
  obtain ⟨hacc, hbreach⟩ := hwords k w hat
  have hlost : wordLost s.platform r (outputJob r k) w = false := by
    rw [← Bool.not_eq_true, wordLost_iff]
    exact not_or.2 ⟨hclean _ (outputJob_lt_of_outputWordAt hat), hbreach⟩
  rw [softReset_running hr]
  exact foldl_abandonWord_holdsOldOrNew hw hat hlost hacc (hold k w hat) _

/-- Settles O50: every register but ID, PARAMS and CFG resets to 0. -/
theorem resetRegisterValues : Obligations.ResetRegisterValues := by
  have hzero : ∀ offset ∈ [0x030, 0x038, 0x040, 0x048, 0x050, 0x058, 0x060, 0x068, 0x070, 0x078, 0x080, 0x088, 0x090, 0x098,
      0x0A0], regAt offset ∉ [.id, .params, .cfg] := by decide
  obtain ⟨⟨-, hparams, -⟩, -⟩ := everyRegisterReadsItsState.2 State.reset rfl
  exact ⟨readReg_id _, readReg_reset_eq_zero (by decide), readReg_reset_eq_zero (by decide),
    readReg_reset_eq_zero (by decide), rfl, fun offset ho => readReg_reset_eq_zero (hzero offset ho),
    hparams platform_wellFormed, rfl, rfl⟩

/-- Settles O53: the invariant holds the machine in the reset state while RESET_IN is asserted. -/
theorem hardwareResetHoldsTheResetState : Obligations.HardwareResetHoldsTheResetState := by
  refine ⟨fun s => rfl, fun s offset v hq hw ha => ⟨hostRegWrite_of_resetIn ha hw hq v, ?_⟩,
    fun s pick h hq => coreStep_none pick (reset_running (h.quiet hq)),
    fun s h hq => congrArg _ (setResetIn_false_of_quiet (h.quiet hq))⟩
  rw [readReg, if_pos hq]
  exact regWord_resetCore _ s

/-- Settles O54: the reset state is what the core's reset leaves of itself. -/
theorem invariantHoldsAfterReset : Obligations.InvariantHoldsAfterReset :=
  resetCore_inv (s := State.reset) reset_mem_wf platform_wellFormed fun _ => rfl

end Sys2Proof.Proofs
